-- ==== Sys2Proof/Word.lean ====
section
/-! DEFINITION. The word types: bytes, nibbles, bus handles, and the encoded words a program is made of, one form for each format
of 30_encoding.md R70 that spec/opcode_table.json has rows for. -/

namespace Sys2Proof

/-- A byte, bits 7 down to 0 (R10). -/
abbrev Byte := BitVec 8

/-- A nibble, bits 3 down to 0 (R10). -/
abbrev Nibble := BitVec 4

/-- The bus handle of `initialize`: "an opaque value of a type the transport defines" (R24). The tag only tells handles
apart; the block never looks at it, it only passes the handle to the transport (log 26). -/
structure BusHandle where
  tag : Nat
deriving DecidableEq, Repr

/-- One encoded word, by format (R70). The formats have different widths and share no tag on the wire, so the format
is part of the word here. The host issues `ho` words only; the other four spell what the operations are made of
(DESIGN CHOICE, log 11). -/
inductive Word where
  /-- HO: an 8-bit operation id and its operands, in the order of R85's table (operand encoding: DESIGN CHOICE, log 10). -/
  | ho (id : Byte) (operands : List Nat)
  /-- LC: an HD44780 bus word, RS in bit 8 and the byte in bits 7..0 (R76). -/
  | lc (w : BitVec 9)
  /-- LN: a lone nibble transfer, RS in bit 4 and the nibble in bits 3..0 (R81). -/
  | ln (w : BitVec 5)
  /-- WB: a WS2812B bit symbol (R83). -/
  | wb (w : BitVec 1)
  /-- WB without a data bit: the trailing reset hold (R84). -/
  | hold
deriving DecidableEq, Repr

/-- Whether the host can issue the word: only host operations are (R3, and 40_lcd_transfer.md: "The procedures in this
file are internal: the host cannot call them"). -/
def Word.hostIssued : Word → Bool
  | .ho _ _ => true
  | .lc _ => false
  | .ln _ => false
  | .wb _ => false
  | .hold => false

end Sys2Proof
end

