-- ==== Sys2Proof/Syntax.lean ====
section
/-! DEFINITION. The instructions: one constructor for each of the 19 rows of spec/opcode_table.json. -/

namespace Sys2Proof

/-- What the block can be told to do, or emits. Operands the spec calls unsigned integers of any size or host pointers
are `Nat`; fields of an encoded word are bit vectors or Booleans. -/
inductive Instr where
  /-- `lcd.init`: `initialize(bus_handle, bus_address)` (R121). -/
  | lcdInit (bus : BusHandle) (addr : Nat)
  /-- `lcd.clear`: `clear()` (R123). -/
  | lcdClear
  /-- `lcd.cursor`: `set_cursor(row, column)` (R124). -/
  | lcdCursor (row column : Nat)
  /-- `lcd.text`: `write_text(string)` (R126). -/
  | lcdText (string : Nat)
  /-- `lcd.blon`: `backlight_on()` (R127). -/
  | lcdBlon
  /-- `lcd.bloff`: `backlight_off()` (R128). -/
  | lcdBloff
  /-- `lcd.wrap`: `write_wrapped(string)` (R130). -/
  | lcdWrap (string : Nat)
  /-- `lcd.scroll`: `scroll_row(row, text, delay_per_step)` (R131). -/
  | lcdScroll (row text delay : Nat)
  /-- `led.send`: `send(buffer, led_count)` (R161). -/
  | ledSend (buffer count : Nat)
  /-- `CLEAR_DISPLAY`, LC 0 0000 0001 (R77). -/
  | clearDisplay
  /-- `ENTRY_MODE_SET`, LC 0 0000 01IS (R77). -/
  | entryModeSet (increment shift : Bool)
  /-- `DISPLAY_CONTROL`, LC 0 0000 1DCB (R77). -/
  | displayControl (display cursor blink : Bool)
  /-- `FUNCTION_SET`, LC 0 001L NFxx (R77); the two ignored bits are carried. -/
  | functionSet (dataLength lines font : Bool) (ignored : BitVec 2)
  /-- `SET_DDRAM_ADDRESS`, LC 0 1AAA AAAA (R77, R78). -/
  | setDdramAddress (address : BitVec 7)
  /-- `WRITE_DATA`, LC 1 DDDD DDDD (R77). -/
  | writeData (character : Byte)
  /-- `INIT_NIBBLE`, LN 0 NNNN (R81). -/
  | initNibble (nibble : Nibble)
  /-- `WS_BIT0`, WB 0 (R83). -/
  | wsBit0
  /-- `WS_BIT1`, WB 1 (R83). -/
  | wsBit1
  /-- `WS_RESET`, the reset hold (R84). -/
  | wsReset
deriving DecidableEq, Repr

end Sys2Proof
end

