-- ==== Sys2Proof/Decode.lean ====
section
/-! DEFINITION. The decoder, total on every word and rejecting by name; the encoder, written from the same tables
(30_encoding.md R76, R77, R81, R83 to R85); and the opcode table as data. -/

namespace Sys2Proof

/-- Why a word is no instruction. -/
inductive Reject where
  /-- A host operation id outside R85's table (R88, R195). -/
  | illegalOp (id : Byte)
  /-- A known id with the wrong number of operands (log 10). -/
  | operandCount (id : Byte)
  /-- A bus word of a class the block never emits (R77, R88). -/
  | neverEmitted (w : BitVec 9)
  /-- A lone nibble with RS = 1: lone nibbles have RS = 0 (R81). -/
  | loneData (w : BitVec 5)
deriving DecidableEq, Repr

/-- A host operation from its id and operands (R85). -/
def decodeHost (id : Byte) (operands : List Nat) : Except Reject Instr :=
  match id.toNat with
  | 0x01 => match operands with
    | [bus, addr] => .ok (.lcdInit ⟨bus⟩ addr)
    | _ => .error (.operandCount id)
  | 0x02 => match operands with
    | [] => .ok .lcdClear
    | _ => .error (.operandCount id)
  | 0x03 => match operands with
    | [row, column] => .ok (.lcdCursor row column)
    | _ => .error (.operandCount id)
  | 0x04 => match operands with
    | [string] => .ok (.lcdText string)
    | _ => .error (.operandCount id)
  | 0x05 => match operands with
    | [] => .ok .lcdBlon
    | _ => .error (.operandCount id)
  | 0x06 => match operands with
    | [] => .ok .lcdBloff
    | _ => .error (.operandCount id)
  | 0x07 => match operands with
    | [string] => .ok (.lcdWrap string)
    | _ => .error (.operandCount id)
  | 0x08 => match operands with
    | [row, text, delay] => .ok (.lcdScroll row text delay)
    | _ => .error (.operandCount id)
  | 0x10 => match operands with
    | [buffer, count] => .ok (.ledSend buffer count)
    | _ => .error (.operandCount id)
  | _ => .error (.illegalOp id)

/-- An HD44780 bus word by its class (R77): the highest set bit names the class. The classes the block never emits (R88)
are rejected. -/
def decodeLc (w : BitVec 9) : Except Reject Instr :=
  if w.getLsbD 8 then .ok (.writeData (w.extractLsb' 0 8))
  else if w.getLsbD 7 then .ok (.setDdramAddress (w.extractLsb' 0 7))
  else if w.getLsbD 6 then .error (.neverEmitted w)
  else if w.getLsbD 5 then
    .ok (.functionSet (w.getLsbD 4) (w.getLsbD 3) (w.getLsbD 2) (w.extractLsb' 0 2))
  else if w.getLsbD 4 then .error (.neverEmitted w)
  else if w.getLsbD 3 then .ok (.displayControl (w.getLsbD 2) (w.getLsbD 1) (w.getLsbD 0))
  else if w.getLsbD 2 then .ok (.entryModeSet (w.getLsbD 1) (w.getLsbD 0))
  else if w.getLsbD 1 then .error (.neverEmitted w)
  else if w.getLsbD 0 then .ok .clearDisplay
  else .error (.neverEmitted w)

/-- A lone nibble (R81). -/
def decodeLn (w : BitVec 5) : Except Reject Instr :=
  if w.getLsbD 4 then .error (.loneData w) else .ok (.initNibble (w.extractLsb' 0 4))

/-- A WS2812B bit symbol (R83). -/
def decodeWb (w : BitVec 1) : Instr :=
  if w.getLsbD 0 then .wsBit1 else .wsBit0

/-- The decoder. -/
def decode : Word → Except Reject Instr
  | .ho id operands => decodeHost id operands
  | .lc w => decodeLc w
  | .ln w => decodeLn w
  | .wb w => .ok (decodeWb w)
  | .hold => .ok .wsReset

/-- Byte of ENTRY_MODE_SET, 0000 01IS (R77). -/
def entryModeByte (increment shift : Bool) : Byte :=
  0b000001#6 ++ BitVec.ofBool increment ++ BitVec.ofBool shift

/-- Byte of DISPLAY_CONTROL, 0000 1DCB (R77). -/
def displayControlByte (display cursor blink : Bool) : Byte :=
  0b00001#5 ++ BitVec.ofBool display ++ BitVec.ofBool cursor ++ BitVec.ofBool blink

/-- Byte of FUNCTION_SET, 001L NFxx (R77). -/
def functionSetByte (dataLength lines font : Bool) (ignored : BitVec 2) : Byte :=
  0b001#3 ++ BitVec.ofBool dataLength ++ BitVec.ofBool lines ++ BitVec.ofBool font ++ ignored

/-- Byte of SET_DDRAM_ADDRESS, 1AAA AAAA (R77, R78). -/
def setDdramByte (address : BitVec 7) : Byte :=
  0b1#1 ++ address

/-- A command's bus word: RS = 0 (R76). -/
def commandWord (b : Byte) : Word := .lc (0b0#1 ++ b)

/-- A character's bus word: RS = 1 (R76). -/
def dataWord (b : Byte) : Word := .lc (0b1#1 ++ b)

/-- The encoder. -/
def encode : Instr → Word
  | .lcdInit bus addr => .ho 0x01 [bus.tag, addr]
  | .lcdClear => .ho 0x02 []
  | .lcdCursor row column => .ho 0x03 [row, column]
  | .lcdText string => .ho 0x04 [string]
  | .lcdBlon => .ho 0x05 []
  | .lcdBloff => .ho 0x06 []
  | .lcdWrap string => .ho 0x07 [string]
  | .lcdScroll row text delay => .ho 0x08 [row, text, delay]
  | .ledSend buffer count => .ho 0x10 [buffer, count]
  | .clearDisplay => commandWord 0x01
  | .entryModeSet increment shift => commandWord (entryModeByte increment shift)
  | .displayControl display cursor blink => commandWord (displayControlByte display cursor blink)
  | .functionSet dataLength lines font ignored => commandWord (functionSetByte dataLength lines font ignored)
  | .setDdramAddress address => commandWord (setDdramByte address)
  | .writeData character => dataWord character
  | .initNibble nibble => .ln (0b0#1 ++ nibble)
  | .wsBit0 => .wb 0
  | .wsBit1 => .wb 1
  | .wsReset => .hold

/-- The formats of the table's rows (R70). -/
inductive Format where
  | HO
  | LC
  | LN
  | WB
deriving DecidableEq, Repr

/-- One row of spec/opcode_table.json: its format, its width in bits, and its match and mask. -/
structure Row where
  mnemonic : String
  format : Format
  width : Nat
  pattern : Nat
  mask : Nat
deriving DecidableEq, Repr

/-- The table's host operations. -/
def hostRows : List Row := [
  ⟨"lcd.init", .HO, 8, 0x01, 0xFF⟩, ⟨"lcd.clear", .HO, 8, 0x02, 0xFF⟩, ⟨"lcd.cursor", .HO, 8, 0x03, 0xFF⟩,
  ⟨"lcd.text", .HO, 8, 0x04, 0xFF⟩, ⟨"lcd.blon", .HO, 8, 0x05, 0xFF⟩, ⟨"lcd.bloff", .HO, 8, 0x06, 0xFF⟩,
  ⟨"lcd.wrap", .HO, 8, 0x07, 0xFF⟩, ⟨"lcd.scroll", .HO, 8, 0x08, 0xFF⟩, ⟨"led.send", .HO, 8, 0x10, 0xFF⟩]

/-- The table's wire rows. WS_RESET carries no bits. -/
def wireRows : List Row := [
  ⟨"CLEAR_DISPLAY", .LC, 9, 0x001, 0x1FF⟩, ⟨"ENTRY_MODE_SET", .LC, 9, 0x004, 0x1FC⟩,
  ⟨"DISPLAY_CONTROL", .LC, 9, 0x008, 0x1F8⟩, ⟨"FUNCTION_SET", .LC, 9, 0x020, 0x1E0⟩,
  ⟨"SET_DDRAM_ADDRESS", .LC, 9, 0x080, 0x180⟩, ⟨"WRITE_DATA", .LC, 9, 0x100, 0x100⟩,
  ⟨"INIT_NIBBLE", .LN, 5, 0x00, 0x10⟩, ⟨"WS_BIT0", .WB, 1, 0x0, 0x1⟩, ⟨"WS_BIT1", .WB, 1, 0x1, 0x1⟩,
  ⟨"WS_RESET", .WB, 0, 0, 0⟩]

/-- The opcode table. -/
def opcodeTable : List Row := hostRows ++ wireRows

/-- The word's format, width and bits, as the table numbers them. -/
def Word.bits : Word → Format × Nat × Nat
  | .ho id _ => (.HO, 8, id.toNat)
  | .lc w => (.LC, 9, w.toNat)
  | .ln w => (.LN, 5, w.toNat)
  | .wb w => (.WB, 1, w.toNat)
  | .hold => (.WB, 0, 0)

/-- Whether a word is one of a row's words: same format and width, and the masked bits are the row's pattern. -/
def Row.spells (r : Row) (w : Word) : Bool :=
  decide (r.format = w.bits.1) && decide (r.width = w.bits.2.1) && decide (w.bits.2.2 &&& r.mask = r.pattern)

/-- The mnemonic of an instruction's row. -/
def Instr.mnemonic : Instr → String
  | .lcdInit _ _ => "lcd.init"
  | .lcdClear => "lcd.clear"
  | .lcdCursor _ _ => "lcd.cursor"
  | .lcdText _ => "lcd.text"
  | .lcdBlon => "lcd.blon"
  | .lcdBloff => "lcd.bloff"
  | .lcdWrap _ => "lcd.wrap"
  | .lcdScroll _ _ _ => "lcd.scroll"
  | .ledSend _ _ => "led.send"
  | .clearDisplay => "CLEAR_DISPLAY"
  | .entryModeSet _ _ => "ENTRY_MODE_SET"
  | .displayControl _ _ _ => "DISPLAY_CONTROL"
  | .functionSet _ _ _ _ => "FUNCTION_SET"
  | .setDdramAddress _ => "SET_DDRAM_ADDRESS"
  | .writeData _ => "WRITE_DATA"
  | .initNibble _ => "INIT_NIBBLE"
  | .wsBit0 => "WS_BIT0"
  | .wsBit1 => "WS_BIT1"
  | .wsReset => "WS_RESET"

/-- How many operands a host operation has (R85). -/
def hostArity (id : Nat) : Nat :=
  match id with
  | 0x01 => 2
  | 0x03 => 2
  | 0x04 => 1
  | 0x07 => 1
  | 0x08 => 3
  | 0x10 => 2
  | _ => 0

/-- Whether R85 lists the id. -/
def isHostId (id : Nat) : Bool :=
  hostRows.any fun r => r.pattern == id

/-- The table word with these bits, in a container of `nbits` bits: the row's own width or that width in whole bytes.
A container of one byte can hold a host id, a lone nibble or a bit symbol, and nothing in it says which: the first row
of the table that the bits meet is taken, so 0 reads as INIT_NIBBLE and 1 as `lcd.init` (DESIGN CHOICE, log 12). The
operands of a host operation are zeros. -/
def tableWord (nbits w : Nat) : Option Word :=
  match nbits with
  | 0 => if w = 0 then some .hold else none
  | 1 => if w < 2 then some (.wb (BitVec.ofNat 1 w)) else none
  | 5 => if w < 32 then some (.ln (BitVec.ofNat 5 w)) else none
  | 8 =>
    if isHostId w then some (.ho (BitVec.ofNat 8 w) (List.replicate (hostArity w) 0))
    else if w < 16 then some (.ln (BitVec.ofNat 5 w)) else none
  | 9 => if w < 512 then some (.lc (BitVec.ofNat 9 w)) else none
  | 16 => if w < 512 then some (.lc (BitVec.ofNat 9 w)) else none
  | _ => none

/-- The instruction the decoder reads from a table word. -/
def decodeTableWord (nbits w : Nat) : Option Instr :=
  (tableWord nbits w).bind fun word => (decode word).toOption

end Sys2Proof
end

