-- ==== Sys2Proof/Machine/Memory.lean ====
section
/-! DEFINITION. Host memory: a list of (address, byte) in one canonical form. The block only reads it (20_memory.md R53);
`write` is the host's, placing strings and buffers before a run (R86). -/

namespace Sys2Proof.Machine

/-- Host memory (R50). An address it does not list is unreadable (R191): there is no default byte, so the canonical form
is that the addresses rise strictly (log 13). -/
abbrev Memory := List Host.Cell

/-- The byte at an address, none where host memory does not hold one. -/
def Memory.read : Memory → Nat → Option Byte
  | [], _ => none
  | (k, v) :: rest, a => if a = k then some v else Memory.read rest a

/-- Every listed address lies above `a`. -/
def Memory.above (a : Nat) (m : Memory) : Bool :=
  m.all fun cell => decide (a < cell.1)

/-- The canonical form: strictly rising addresses. -/
def Memory.wf : Memory → Bool
  | [] => true
  | (k, _) :: rest => Memory.above k rest && Memory.wf rest

/-- Place a byte. -/
def Memory.write : Memory → Nat → Byte → Memory
  | [], a, b => [(a, b)]
  | (k, v) :: rest, a, b =>
    if a < k then (a, b) :: (k, v) :: rest
    else if a = k then (a, b) :: rest
    else (k, v) :: Memory.write rest a b

/-- Take a byte away: the address is unreadable afterwards. -/
def Memory.erase : Memory → Nat → Memory
  | [], _ => []
  | (k, v) :: rest, a => if a = k then rest else (k, v) :: Memory.erase rest a

/-- Place a list of bytes at rising addresses: the buffer operand of R86. -/
def Memory.writeList (m : Memory) (a : Nat) : List Byte → Memory
  | [] => m
  | b :: bs => Memory.writeList (Memory.write m a b) (a + 1) bs

end Sys2Proof.Machine
end

