-- ==== Sys2Proof/Config.lean ====
section
/-! DEFINITION. The configuration record `Cfg` of 00_scope.md R8, and the free values: constants without a body for
what the spec leaves open. The default values and the validity check stand in Machine/Settings.lean. -/

namespace Sys2Proof

/-- How the bus address is given to the transport (R8, R25): an OPEN parameter. -/
inductive AddrForm where
  | sevenBit
  | leftShifted
deriving DecidableEq, Repr, Inhabited

/-- The outcome of a transport transaction that returned: a draw from ok and fail (R32). -/
inductive TransportOutcome where
  | ok
  | fail
deriving DecidableEq, Repr, Inhabited

/-- What the transport does with one transaction (R32). -/
inductive Reply where
  /-- It returns, with an outcome the block discards. -/
  | returned (outcome : TransportOutcome)
  /-- It never returns: the operation hangs (R198). -/
  | never
deriving DecidableEq, Repr, Inhabited

/-- Three like things in order: the handshake has exactly three nibbles and three delays (R8). -/
structure Three (α : Type) where
  first : α
  second : α
  third : α
deriving DecidableEq, Repr

/-- The configuration record (R8), one field for each row of its table, in its order. -/
structure Cfg where
  /-- `ROWS`. -/
  rows : Nat
  /-- `COLS`. -/
  cols : Nat
  /-- `NIB_OFF`. -/
  nibOff : Nat
  /-- `RS_MASK`. -/
  rsMask : Byte
  /-- `RW_MASK`. -/
  rwMask : Byte
  /-- `EN_MASK`. -/
  enMask : Byte
  /-- `BL_MASK`. -/
  blMask : Byte
  /-- `TU_MS`. -/
  tuMs : Nat
  /-- `PRESET_WRITE`. -/
  presetWrite : Bool
  /-- `T_PWR_MS`. -/
  tPwrMs : Nat
  /-- `INIT_NIBBLES`. -/
  initNibbles : Three Nibble
  /-- `INIT_DELAYS_MS`. -/
  initDelaysMs : Three Nat
  /-- `MODE_NIBBLE`: none or a nibble. -/
  modeNibble : Option Nibble
  /-- `MODE_DELAY_MS`. -/
  modeDelayMs : Nat
  /-- `FUNCTION_SET`. -/
  functionSet : Byte
  /-- `DISPLAY_CTRL`. -/
  displayCtrl : Byte
  /-- `CLEAR_CMD`. -/
  clearCmd : Byte
  /-- `ENTRY_MODE`. -/
  entryMode : Byte
  /-- `T_CLEAR_MS`. -/
  tClearMs : Nat
  /-- `BL_INIT`. -/
  blInit : Bool
  /-- `ROW_OFFSET`: the rows whose start differs from R79's table, with their starts; empty is R79 itself (log 15). -/
  rowStarts : List (Nat × Nat)
  /-- `ADDR_FORM`. -/
  addrForm : AddrForm
  /-- `F_CORE_HZ`, the frequency `send` reads. -/
  coreHz : Nat
  /-- `T0H_NS`. -/
  t0hNs : Nat
  /-- `T0L_NS`. -/
  t0lNs : Nat
  /-- `T1H_NS`. -/
  t1hNs : Nat
  /-- `T1L_NS`. -/
  t1lNs : Nat
  /-- `T_RESET_NS`. -/
  tResetNs : Nat
  /-- `LOOPS`: the (ns, Hz) pairs whose count differs from R164's formula, with their counts; empty is R164 (log 15). -/
  loopCounts : List ((Nat × Nat) × Nat)
  /-- `SCROLL_TRAILING_DELAY`. -/
  scrollTrailingDelay : Bool
  /-- `PIN_INIT`. -/
  pinInit : Bool
deriving DecidableEq, Repr

/-- The checks of R9, in the order R9 names them; `InvalidConfig` records the failed one (R190). -/
inductive ConfigCheck where
  | rowsAtLeastOne
  | colsAtLeastOne
  | nibOffInRange
  | masksOneBit
  | masksDifferent
  | equalPeriod
  | oneHigherThanZero
  | delaysNonIncreasing
deriving DecidableEq, Repr

/-- FREE VALUE: what the transport does with a transaction, where nothing else fixes it: it returns ok, returns fail, or never
returns (R32, R198, U2, U3; log 5). It depends on the bus handle the block passes on (R24), the address, the bytes, and the
number of the draw, so no two transactions need agree. -/
opaque Config.transportReply : BusHandle → Nat → List Byte → Nat → Reply

/-- FREE VALUE: the OPEN parameter `ADDR_FORM` of the machine right after reset (R8, U16; log 2). -/
opaque Config.openAddrForm : AddrForm

/-- FREE VALUE: one less than the OPEN parameter `F_CORE_HZ` (a positive integer) of the machine right after reset
(R8, U17; log 2). -/
opaque Config.openCoreHzPred : Nat

end Sys2Proof
end

