-- ==== Sys2Proof/Machine/Settings.lean ====
section
/-! DEFINITION. The configuration's default values (00_scope.md R8), its validity check (R9), and the two parameters
that are functions, `ROW_OFFSET` (30_encoding.md R79) and `LOOPS` (42_led_send.md R164). -/

namespace Sys2Proof.Machine

/-- R8's defaults for a geometry. `FUNCTION_SET` is 0x28 with two or more rows, else 0x20. The values the spec marks "from
general knowledge" are the spec's own decisions (log 21). `ADDR_FORM` and `F_CORE_HZ` are OPEN (log 2). -/
def defaultCfg (cols rows : Nat) : Cfg where
  rows := rows
  cols := cols
  nibOff := 4
  rsMask := 0x01
  rwMask := 0x02
  enMask := 0x04
  blMask := 0x08
  tuMs := 1
  presetWrite := true
  tPwrMs := 50
  initNibbles := ⟨0x3, 0x3, 0x3⟩
  initDelaysMs := ⟨5, 2, 1⟩
  modeNibble := some 0x2
  modeDelayMs := 1
  functionSet := if 2 ≤ rows then 0x28 else 0x20
  displayCtrl := 0x0C
  clearCmd := 0x01
  entryMode := 0x06
  tClearMs := 2
  blInit := true
  rowStarts := []
  addrForm := Config.openAddrForm
  coreHz := Config.openCoreHzPred + 1
  t0hNs := 400
  t0lNs := 850
  t1hNs := 800
  t1lNs := 450
  tResetNs := 300000
  loopCounts := []
  scrollTrailingDelay := false
  pinInit := false

/-- Exactly one bit set. -/
def oneBit (m : Byte) : Bool :=
  m != 0 && m &&& (m - 1) == 0

/-- The four masks in R9's order. -/
def masks (c : Cfg) : List Byte := [c.rsMask, c.rwMask, c.enMask, c.blMask]

/-- No two of the four masks are equal. -/
def masksDiffer (c : Cfg) : Bool :=
  c.rsMask != c.rwMask && c.rsMask != c.enMask && c.rsMask != c.blMask
    && c.rwMask != c.enMask && c.rwMask != c.blMask && c.enMask != c.blMask

/-- Whether one check of R9 holds. -/
def checkHolds (c : Cfg) : ConfigCheck → Bool
  | .rowsAtLeastOne => decide (1 ≤ c.rows)
  | .colsAtLeastOne => decide (1 ≤ c.cols)
  | .nibOffInRange => c.nibOff == 3 || c.nibOff == 4 || c.nibOff == 5
  | .masksOneBit => (masks c).all oneBit
  | .masksDifferent => masksDiffer c
  | .equalPeriod => c.t0hNs + c.t0lNs == c.t1hNs + c.t1lNs
  | .oneHigherThanZero => decide (c.t0hNs < c.t1hNs)
  | .delaysNonIncreasing =>
    decide (c.initDelaysMs.second ≤ c.initDelaysMs.first) && decide (c.initDelaysMs.third ≤ c.initDelaysMs.second)

/-- R9's checks in its order. -/
def allChecks : List ConfigCheck :=
  [.rowsAtLeastOne, .colsAtLeastOne, .nibOffInRange, .masksOneBit, .masksDifferent, .equalPeriod,
    .oneHigherThanZero, .delaysNonIncreasing]

/-- The first check that fails, none where the configuration is valid (R9; which one is reported where several fail:
DESIGN CHOICE, log 25). -/
def failedCheck (c : Cfg) : Option ConfigCheck :=
  allChecks.find? fun k => !checkHolds c k

/-- A valid configuration (R9). -/
def validCfg (c : Cfg) : Bool := allChecks.all (checkHolds c)

/-- The legal values of R8's table that R9 does not check: the positive times and the positive clock. No operation is refused
for them (log 16). -/
def inLegalRange (c : Cfg) : Bool :=
  decide (1 ≤ c.tuMs) && decide (1 ≤ c.coreHz) && decide (1 ≤ c.t0hNs) && decide (1 ≤ c.t0lNs)
    && decide (1 ≤ c.t1hNs) && decide (1 ≤ c.t1lNs) && decide (1 ≤ c.tResetNs)

/-- The first parameter of a key, if it is given one. -/
def override {κ : Type} [DecidableEq κ] (k : κ) : List (κ × Nat) → Option Nat
  | [] => none
  | (k', v) :: rest => if k = k' then some v else override k rest

/-- R79's table of row starts. Rows 2 and up of 16×2 and rows 4 and up of 20×4 are "not reachable" (R124 clamps first);
the function is total there (log 17). -/
def tableRowOffset (rows cols r : Nat) : Nat :=
  if r = 0 then 0x00
  else if cols = 20 ∧ rows = 4 ∧ r = 2 then 0x14
  else if cols = 20 ∧ rows = 4 ∧ r = 3 then 0x54
  else 0x40

/-- `ROW_OFFSET` (R8, R79; U6). -/
def rowOffset (c : Cfg) (r : Nat) : Nat :=
  (override r c.rowStarts).getD (tableRowOffset c.rows c.cols r)

/-- R164: `floor(ns × f / 1 000 000 000)`. -/
def cycleCount (ns f : Nat) : Nat := ns * f / 1000000000

/-- `LOOPS` (R8, R164). -/
def loops (c : Cfg) (ns f : Nat) : Nat :=
  (override (ns, f) c.loopCounts).getD (cycleCount ns f)

end Sys2Proof.Machine
end

