-- ==== Sys2Proof/Machine/State.lean ====
section
/-! DEFINITION. The machine's state as plain data (10_state.md R22), the reasons a step stops, and the state after reset
(70_reset_and_hazards.md R220). -/

namespace Sys2Proof.Machine

/-- An output event (R34). -/
inductive Event where
  /-- One transport transaction of bytes to a bus address. -/
  | xmit (addr : Nat) (bytes : List Byte)
  /-- A blocking delay of at least this many milliseconds. -/
  | waitMs (ms : Nat)
  /-- The LED output is driven to this level. -/
  | pin (level : Bool)
  /-- A busy-wait aimed at `ns` nanoseconds, run as `loops` no-op iterations. -/
  | spin (ns loops : Nat)
  /-- `ie` saved as `prev` and set to 0. -/
  | irqOff (prev : Bool)
  /-- `ie` set back. -/
  | irqRestore (value : Bool)
deriving DecidableEq, Repr

/-- The faults that end an operation (R190). The operation that raises one answers a next state with the fault recorded
in `State.fault`; every later operation stops with it (R31, R203). All are the spec's own model faults and stop where the
hardware would go on in a way the source does not describe: safe (log 7). -/
inductive Fault where
  /-- Raised by `write_text`, `write_wrapped`, `scroll_row` and `send` at an unreadable host byte (R191). Safe. -/
  | badRead (addr : Nat)
  /-- Raised by every LCD operation but `initialize` while `inited` = 0, with the operation's id (R192); none stands for an
  LC or LN word run on its own (log 11). Safe. -/
  | notInitialized (op : Option Byte)
  /-- Raised by `initialize` while `inited` = 1 (R193). Safe. -/
  | reInit
deriving DecidableEq, Repr

/-- The reasons there is no step at all. -/
inductive Refusal where
  /-- Raised by an arm of `exec` that has no meaning yet. Safe. No arm is left so. -/
  | notModelled (mnemonic : String)
  /-- The configuration fails a check of R9: no operation has a step (R194). Safe. -/
  | invalidConfig (check : ConfigCheck)
  /-- The decoder met an id outside R85's table (R88, R195). Safe. -/
  | illegalOp (id : Byte)
  /-- The decoder met a known id with the wrong number of operands (log 10). Safe. -/
  | operandCount (id : Byte)
  /-- The decoder met a bus word of a class the block never emits (R88). Safe. -/
  | neverEmitted (w : BitVec 9)
  /-- The decoder met a lone nibble with RS = 1 (R81). Safe. -/
  | loneData (w : BitVec 5)
  /-- An operation is started while another one has not returned: outside the contract (R204, R230, U11). Safe. -/
  | concurrentCall
  /-- A backlight operation with no byte written yet: R127 says it cannot happen, and no run reaches it (log 18). Safe. -/
  | noShadow
deriving DecidableEq, Repr

/-- The state (R22, with R21's program and `pc`, the configuration of R8, host memory of R50, and the transport's
replies of R32). -/
structure State where
  /-- The configuration record; no operation changes it (R8; log 1). -/
  cfg : Cfg
  /-- `initialize` has run (R23). -/
  inited : Bool
  /-- The bound bus handle (R24). -/
  bus : BusHandle
  /-- The target bus address (R25). -/
  addr : Nat
  /-- The backlight flag (R26). -/
  bl : Bool
  /-- The last byte written to the expander (R28). -/
  shadow : Option Byte
  /-- The level of the LED line (R29). -/
  pin : Bool
  /-- The core's interrupt-enable bit (R30). -/
  ie : Bool
  /-- The recorded fault (R31). -/
  fault : Option Fault
  /-- The observable output, oldest event first (R34). -/
  trace : List Event
  /-- The index of the next operation (R21). -/
  pc : Nat
  /-- The operations the host issues, in order (R21; log 9). -/
  program : List Word
  /-- Host memory (R50). -/
  mem : Memory
  /-- The model's own: the transport's replies to the coming transactions, oldest first; beyond the list the
  reply is the free value `Config.transportReply` (R32; log 5). -/
  replies : List Reply
  /-- The model's own: how many replies have been drawn (log 5). -/
  draws : Nat
  /-- The model's own: an operation is inside a transaction that never returns (R32, R198; log 6). -/
  blocked : Bool
deriving DecidableEq, Repr

/-- The state right after reset with a given configuration (R220). `bus`, `addr` and `bl` are unspecified and unobservable
(log 3), `ie` is the core's (log 4); `replies`, `draws` and `blocked` are the model's own (logs 5, 6). -/
def State.resetWith (c : Cfg) : State where
  cfg := c
  inited := false
  bus := ⟨0⟩
  addr := 0
  bl := false
  shadow := none
  pin := c.pinInit
  ie := true
  fault := none
  trace := []
  pc := 0
  program := []
  mem := []
  replies := []
  draws := 0
  blocked := false

/-- The machine right after reset, with R8's default configuration (16 columns, 2 rows). -/
def State.reset : State := State.resetWith (defaultCfg 16 2)

end Sys2Proof.Machine
end

