-- ==== Sys2Proof/Machine/Ops.lean ====
section
/-! DEFINITION. The named operations on the state and the pseudocode primitives of 00_scope.md R11: a procedure runs from
its first line to its last, or until it stops (R12). Raising a fault is one shared operation; there is no return from one
(60_exceptions.md R202, R203). -/

namespace Sys2Proof.Machine

/-- `emit(e)`: append an event to the trace (R11, R34). -/
def State.emit (s : State) (e : Event) : State := { s with trace := s.trace ++ [e] }

/-- The transport's reply to one transaction: the next one of a list of coming replies, beyond the list the free value, which
may be a hang (R32, R198; log 5). -/
def replyTo (replies : List Reply) (draw : Nat) (bus : BusHandle) (addr : Nat) (bytes : List Byte) : Reply :=
  match replies with
  | [] => Config.transportReply bus addr bytes draw
  | r :: _ => r

/-- The transport's reply to the next transaction on a bus (R24, R32). -/
def State.nextReply (s : State) (bus : BusHandle) (addr : Nat) (bytes : List Byte) : Reply :=
  replyTo s.replies s.draws bus addr bytes

/-- One reply is drawn. -/
def State.drawReply (s : State) : State := { s with replies := s.replies.tail, draws := s.draws + 1 }

/-- `s.shadow <- b`. -/
def State.setShadow (s : State) (b : Byte) : State := { s with shadow := some b }

/-- `s.bl <- v`. -/
def State.setBl (s : State) (v : Bool) : State := { s with bl := v }

/-- `pin <- v`. -/
def State.setPin (s : State) (v : Bool) : State := { s with pin := v }

/-- `s.ie <- v`. -/
def State.setIe (s : State) (v : Bool) : State := { s with ie := v }

/-- The first lines of `initialize` (R121): bind the handle and the address, set the flag, mark the session. -/
def State.openSession (s : State) (bus : BusHandle) (addr : Nat) : State :=
  { s with bus := bus, addr := addr, bl := s.cfg.blInit, inited := true }

/-- A fault's name is written to `s.fault`; nothing else changes (R190). -/
def State.recordFault (s : State) (f : Fault) : State := { s with fault := some f }

/-- The operation is inside a transaction that never returns (R198). -/
def State.block (s : State) : State := { s with blocked := true }

/-- A body that completed: `pc <- pc + 1` (R21, R120). -/
def State.advance (s : State) : State := { s with pc := s.pc + 1 }

/-- Why a procedure stopped before its last line. -/
inductive Stop where
  /-- A fault has been raised and recorded (R190). -/
  | raised
  /-- The transport does not return (R198). -/
  | hung
deriving DecidableEq, Repr

/-- A procedure on the state: it answers a value, or stops; either way with the state it left. -/
abbrev Proc (α : Type) := EStateM Stop State α

/-- `emit(e)` as a line of a procedure. -/
def emit (e : Event) : Proc Unit := fun s => .ok () (s.emit e)

/-- `raise F(info)`: record the fault and end the operation there (R11, R190, R202). -/
def raise {α : Type} (f : Fault) : Proc α := fun s => .error .raised (s.recordFault f)

/-- The wait for the transport: its reply is drawn; an outcome is discarded, and no return is a hang (R32, R196, R198). -/
def awaitTransport (bus : BusHandle) (addr : Nat) (bytes : List Byte) : Proc Unit := fun s =>
  match s.nextReply bus addr bytes with
  | .returned _ => .ok () s.drawReply
  | .never => .error .hung s.drawReply.block

/-- `Xmit(a, bytes)` (R11, R32). The bound bus handle goes to the transport with it, and not into the event (R22, R24, R34). -/
def xmit (bus : BusHandle) (addr : Nat) (bytes : List Byte) : Proc Unit := do
  emit (.xmit addr bytes)
  awaitTransport bus addr bytes

/-- `Wait(n)` (R11, R33). -/
def wait (ms : Nat) : Proc Unit := emit (.waitMs ms)

/-- `PinSet(v)` (R11). -/
def pinSet (v : Bool) : Proc Unit := fun s => .ok () ((s.emit (.pin v)).setPin v)

/-- `Spin(ns)` at the core frequency `f` the caller has read (R11, R164, R168). -/
def spin (f ns : Nat) : Proc Unit := fun s => .ok () (s.emit (.spin ns (loops s.cfg ns f)))

/-- `MemRead(addr, 1)` (R11, R51, R191). -/
def memRead (addr : Nat) : Proc Byte := fun s =>
  match Memory.read s.mem addr with
  | some b => .ok b s
  | none => .error .raised (s.recordFault (.badRead addr))

/-- The configuration. -/
def theCfg : Proc Cfg := fun s => .ok s.cfg s

/-- How an operation ends: a completed body moves `pc` on; a raised fault and a hang leave a state in which no operation
starts any more (R31, R198). -/
def finish (r : EStateM.Result Stop State Unit) : Host.Outcome State Fault Refusal :=
  .next (match r with
    | .ok _ s => s.advance
    | .error _ s => s)

/-- What stands before the body of every operation, in the order of R201: the configuration (R194), no operation inside
another (R204; log 27), the recorded fault (R31, R120, R160), and a reason for which this operation has no step, if any. -/
def operateUnless (refusal : Option Refusal) (body : Proc Unit) (s : State) : Host.Outcome State Fault Refusal :=
  match failedCheck s.cfg with
  | some check => .refused (.invalidConfig check)
  | none =>
    if s.blocked then .refused .concurrentCall
    else
      match s.fault with
      | some f => .fault f
      | none =>
        match refusal with
        | some r => .refused r
        | none => finish (body.run s)

/-- An operation that has a step in every live state. -/
def operate (body : Proc Unit) (s : State) : Host.Outcome State Fault Refusal := operateUnless none body s

/-- The second check of R120: every LCD operation but `initialize` needs an initialised session (R192). -/
def needSession (op : Option Byte) : Proc Unit := fun s =>
  if s.inited then .ok () s else .error .raised (s.recordFault (.notInitialized op))

/-- The decoder's rejections as refusals of the machine (R195; their place in R201's order: log 28). -/
def rejected : Reject → Refusal
  | .illegalOp id => .illegalOp id
  | .operandCount id => .operandCount id
  | .neverEmitted w => .neverEmitted w
  | .loneData w => .loneData w

end Sys2Proof.Machine
end

