-- ==== Sys2Proof/Machine/Flags.lean ====
section
/-! DEFINITION. The backlight flag (10_state.md R26) and the bits of the expander frame it and register select go into
(30_encoding.md R71 to R75). The block has no condition codes. -/

namespace Sys2Proof.Machine

/-- A mask where a flag is 1, else 0x00. -/
def maskIf (flag : Bool) (mask : Byte) : Byte := if flag then mask else 0x00

/-- A nibble at `NIB_OFF`, truncated to the byte (R74). -/
def placedNibble (c : Cfg) (n : Nibble) : Byte := n.setWidth 8 <<< c.nibOff

/-- The base frame of R74: nibble, register select and backlight; EN and RW are 0 (R72). -/
def frame (c : Cfg) (bl : Bool) (n : Nibble) (rs : Bool) : Byte :=
  placedNibble c n ||| maskIf rs c.rsMask ||| maskIf bl c.blMask

/-- The "set" frame of the enable pulse (R75). -/
def enabled (c : Cfg) (f : Byte) : Byte := f ||| c.enMask

/-- The re-issued byte with the backlight bit set (R127). -/
def litByte (c : Cfg) (b : Byte) : Byte := b ||| c.blMask

/-- The re-issued byte with the backlight bit clear, with an 8-bit NOT (R128). -/
def unlitByte (c : Cfg) (b : Byte) : Byte := b &&& ~~~c.blMask

end Sys2Proof.Machine
end

