-- ==== Sys2Proof/Machine/Operands.lean ====
section
/-! DEFINITION. Operand forms: the nibbles of a byte (30_encoding.md R73), the clamped cell and its set-DDRAM command
(R78 to R80, 41_lcd_operations.md R124), and a string's length (R125). -/

namespace Sys2Proof.Machine

/-- `b[7:4]` (R73). -/
def hiNibble (b : Byte) : Nibble := b.extractLsb' 4 4

/-- `b[3:0]` (R73). -/
def loNibble (b : Byte) : Nibble := b.extractLsb' 0 4

/-- An operand clamped to the last valid index (R124). -/
def clamp (x size : Nat) : Nat := min x (size - 1)

/-- The linear DDRAM address of the clamped cell, without width limit (R80, R124). -/
def cellAddress (c : Cfg) (row column : Nat) : Nat :=
  rowOffset c (clamp row c.rows) + clamp column c.cols

/-- `0x80 | (a & 0x7F)` (R78). -/
def ddramCommand (a : Nat) : Byte := 0x80#8 ||| BitVec.ofNat 8 (a % 128)

/-- The rest of a string's length: the search for the zero byte (R125). Each byte it passes is a different cell of host
memory, so a count of cells bounds it and the count never runs out before an unreadable byte (log 14). -/
def stringLengthFrom : Nat → Nat → Proc Nat
  | 0, a => raise (.badRead a)
  | fuel + 1, a => do
    let b ← memRead a
    if b = 0 then pure 0
    else do
      let rest ← stringLengthFrom fuel (a + 1)
      pure (rest + 1)

/-- More bytes than any string in host memory has (log 14). -/
def stringFuel : Proc Nat := fun s => .ok (s.mem.length + 1) s

/-- `len(p)` (R125). -/
def stringLength (p : Nat) : Proc Nat := do
  let fuel ← stringFuel
  stringLengthFrom fuel p

end Sys2Proof.Machine
end

