-- ==== Sys2Proof/Machine/Transfer.lean ====
section
/-! DEFINITION. The LCD channel's internal procedures (40_lcd_transfer.md R100 to R105), which every LCD operation and
every LC and LN word is made of. None retries, polls or looks at an outcome (R108, R109). -/

namespace Sys2Proof.Machine

/-- R100: one expander byte to `s.addr` on `s.bus`; `shadow` follows whatever the outcome. -/
def writeExpander (b : Byte) : Proc Unit := do
  let s ← get
  xmit s.bus s.addr [b]
  modify fun s => s.setShadow b

/-- R101: one nibble and its enable pulse; the frame is computed once. -/
def sendNibble (n : Nibble) (rs : Bool) : Proc Unit := do
  let s ← get
  let f := frame s.cfg s.bl n rs
  if s.cfg.presetWrite then
    writeExpander f
    writeExpander (enabled s.cfg f)
    wait (1 * s.cfg.tuMs)
    writeExpander f
    wait (1 * s.cfg.tuMs)
  else
    writeExpander (enabled s.cfg f)
    wait (1 * s.cfg.tuMs)
    writeExpander f
    wait (1 * s.cfg.tuMs)

/-- R103: the high nibble, then the low nibble. -/
def sendByte (b : Byte) (rs : Bool) : Proc Unit := do
  sendNibble (hiNibble b) rs
  sendNibble (loNibble b) rs

/-- R104: a command byte and its 2-unit settle. -/
def sendCmd (b : Byte) : Proc Unit := do
  sendByte b false
  let c ← theCfg
  wait (2 * c.tuMs)

/-- R105: a character byte and its 1-unit settle. -/
def sendData (b : Byte) : Proc Unit := do
  sendByte b true
  let c ← theCfg
  wait (1 * c.tuMs)

end Sys2Proof.Machine
end

