-- ==== Sys2Proof/Machine/Lcd.lean ====
section
/-! DEFINITION. The LCD channel's operations (41_lcd_operations.md R120 to R131). -/

namespace Sys2Proof.Machine

/-- The body of `clear()` without R120's checks (R123). -/
def clearBody : Proc Unit := do
  let c ← theCfg
  sendCmd c.clearCmd
  wait c.tClearMs

/-- One lone nibble of the handshake and its delay (R81, R121). -/
def handshakeNibble (n : Nibble) (ms : Nat) : Proc Unit := do
  sendNibble n false
  wait ms

/-- The optional 4-bit-select nibble (R121). -/
def modeSelect (c : Cfg) : Proc Unit :=
  match c.modeNibble with
  | none => pure ()
  | some n => handshakeNibble n c.modeDelayMs

/-- What `initialize` sends, after it has opened the session (R121). -/
def handshake (c : Cfg) : Proc Unit := do
  wait c.tPwrMs
  handshakeNibble c.initNibbles.first c.initDelaysMs.first
  handshakeNibble c.initNibbles.second c.initDelaysMs.second
  handshakeNibble c.initNibbles.third c.initDelaysMs.third
  modeSelect c
  sendCmd c.functionSet
  sendCmd c.displayCtrl
  clearBody
  sendCmd c.entryMode

/-- R121: `initialize(bus_handle, bus_address)`. -/
def initBody (bus : BusHandle) (addr : Nat) : Proc Unit := do
  let s ← get
  if s.inited then raise .reInit
  else do
    modify fun s => s.openSession bus addr
    handshake s.cfg

/-- The body of `set_cursor` (R124). -/
def cursorBody (row column : Nat) : Proc Unit := do
  let c ← theCfg
  sendCmd (ddramCommand (cellAddress c row column))

/-- The loop of `write_text` (R126): each byte is read just before it is sent. The count is `stringFuel` (log 14). -/
def textLoop : Nat → Nat → Proc Unit
  | 0, a => raise (.badRead a)
  | fuel + 1, a => do
    let b ← memRead a
    if b = 0 then pure ()
    else do
      sendData b
      textLoop fuel (a + 1)

/-- The body of `write_text` (R126). -/
def textBody (p : Nat) : Proc Unit := do
  let fuel ← stringFuel
  textLoop fuel p

/-- The last byte is re-issued, changed (R127, R128). Where no byte has been written there is none to re-issue, and the
operation has been refused (`noShadowYet`). -/
def reissue (change : Cfg → Byte → Byte) : Proc Unit := do
  let s ← get
  match s.shadow with
  | some b => writeExpander (change s.cfg b)
  | none => pure ()

/-- The body of `backlight_on()` (R127). -/
def backlightOnBody : Proc Unit := do
  modify fun s => s.setBl true
  reissue litByte

/-- The body of `backlight_off()` (R128). -/
def backlightOffBody : Proc Unit := do
  modify fun s => s.setBl false
  reissue unlitByte

/-- A session in which no byte has been written: R127 says that it cannot happen, and a backlight operation is refused in it
(log 18). -/
def noShadowYet (s : State) : Option Refusal :=
  if s.inited && s.shadow.isNone then some .noShadow else none

/-- The characters of one chunk of `write_wrapped` (R130): at most `count` of them from `a`; true where the string ended
inside the chunk. -/
def chunkLoop : Nat → Nat → Proc Bool
  | 0, _ => pure false
  | count + 1, a => do
    let b ← memRead a
    if b = 0 then pure true
    else do
      sendData b
      chunkLoop count (a + 1)

/-- The rows of `write_wrapped` (R130), `left` of them from row `r` on. -/
def wrapRows (p : Nat) : Nat → Nat → Proc Unit
  | 0, _ => pure ()
  | left + 1, r => do
    let c ← theCfg
    let first ← memRead (p + r * c.cols)
    if first = 0 then pure ()
    else do
      cursorBody r 0
      let ended ← chunkLoop c.cols (p + r * c.cols)
      if ended then pure () else wrapRows p left (r + 1)

/-- The body of `write_wrapped` (R130). -/
def wrapBody (p : Nat) : Proc Unit := do
  let c ← theCfg
  wrapRows p c.rows 0

/-- `count` characters from `a`, each read just before it is sent (R131). -/
def sendChars : Nat → Nat → Proc Unit
  | 0, _ => pure ()
  | count + 1, a => do
    let b ← memRead a
    sendData b
    sendChars count (a + 1)

/-- The delay after a window of `scroll_row`: between steps, and after the last one under `SCROLL_TRAILING_DELAY` (R131). -/
def stepDelay (more trailing : Bool) (d : Nat) : Proc Unit :=
  if more || trailing then wait d else pure ()

/-- The windows of `scroll_row` (R131), `left` of them, the next one starting at character address `a`. -/
def scrollWindows (row d : Nat) : Nat → Nat → Proc Unit
  | 0, _ => pure ()
  | left + 1, a => do
    let c ← theCfg
    cursorBody row 0
    sendChars c.cols a
    stepDelay (decide (0 < left)) c.scrollTrailingDelay d
    scrollWindows row d left (a + 1)

/-- The body of `scroll_row` (R131). -/
def scrollBody (row p d : Nat) : Proc Unit := do
  let len ← stringLength p
  let c ← theCfg
  if len ≤ c.cols then do
    cursorBody row 0
    sendChars len p
  else scrollWindows row d (len - c.cols + 1) p

/-- An LCD operation: R120's check, then the body. -/
def lcdOperation (op : Option Byte) (body : Proc Unit) : Proc Unit := do
  needSession op
  body

/-- `lcd.init` (R121). -/
def execLcdInit (bus : BusHandle) (addr : Nat) (s : State) : Host.Outcome State Fault Refusal :=
  operate (initBody bus addr) s

/-- `lcd.clear` (R123). -/
def execLcdClear (s : State) : Host.Outcome State Fault Refusal :=
  operate (lcdOperation (some 0x02) clearBody) s

/-- `lcd.cursor` (R124). -/
def execLcdCursor (row column : Nat) (s : State) : Host.Outcome State Fault Refusal :=
  operate (lcdOperation (some 0x03) (cursorBody row column)) s

/-- `lcd.text` (R126). -/
def execLcdText (p : Nat) (s : State) : Host.Outcome State Fault Refusal :=
  operate (lcdOperation (some 0x04) (textBody p)) s

/-- `lcd.blon` (R127). -/
def execLcdBlon (s : State) : Host.Outcome State Fault Refusal :=
  operateUnless (noShadowYet s) (lcdOperation (some 0x05) backlightOnBody) s

/-- `lcd.bloff` (R128). -/
def execLcdBloff (s : State) : Host.Outcome State Fault Refusal :=
  operateUnless (noShadowYet s) (lcdOperation (some 0x06) backlightOffBody) s

/-- `lcd.wrap` (R130). -/
def execLcdWrap (p : Nat) (s : State) : Host.Outcome State Fault Refusal :=
  operate (lcdOperation (some 0x07) (wrapBody p)) s

/-- `lcd.scroll` (R131). -/
def execLcdScroll (row p d : Nat) (s : State) : Host.Outcome State Fault Refusal :=
  operate (lcdOperation (some 0x08) (scrollBody row p d)) s

end Sys2Proof.Machine
end

