-- ==== Sys2Proof/Machine/Led.lean ====
section
/-! DEFINITION. The LED channel (42_led_send.md R160 to R169). It reads neither `inited` nor any LCD field. -/

namespace Sys2Proof.Machine

/-- R162: one bit symbol, at the frequency read once by the caller. -/
def sendBit (f : Nat) (v : Bool) : Proc Unit := do
  let c ← theCfg
  pinSet true
  spin f (if v then c.t1hNs else c.t0hNs)
  pinSet false
  spin f (if v then c.t1lNs else c.t0lNs)

/-- The low `k` bits of a byte, the highest of them first (R55, R161). -/
def sendBits (f : Nat) (b : Byte) : Nat → Proc Unit
  | 0 => pure ()
  | k + 1 => do
    sendBit f (b.getLsbD k)
    sendBits f b k

/-- `count` buffer bytes from `a`, each read just before its bits are sent (R161). -/
def sendBuffer (f : Nat) : Nat → Nat → Proc Unit
  | 0, _ => pure ()
  | count + 1, a => do
    let b ← memRead a
    sendBits f b 8
    sendBuffer f count (a + 1)

/-- R163: the line low and the reset hold. -/
def resetHold (f : Nat) : Proc Unit := do
  let c ← theCfg
  pinSet false
  spin f c.tResetNs

/-- `emit(irq_off(prev)); s.ie <- 0` (R161). -/
def irqOff (prev : Bool) : Proc Unit := fun s => .ok () ((s.emit (.irqOff prev)).setIe false)

/-- `emit(irq_restore(prev)); s.ie <- prev` (R161). -/
def irqRestore (prev : Bool) : Proc Unit := fun s => .ok () ((s.emit (.irqRestore prev)).setIe prev)

/-- The body of `send` (R161): the frequency is read once (R168). -/
def sendBody (p n : Nat) : Proc Unit := do
  let s ← get
  irqOff s.ie
  sendBuffer s.cfg.coreHz (3 * n) p
  resetHold s.cfg.coreHz
  irqRestore s.ie

/-- `led.send` (R161). -/
def execLedSend (p n : Nat) (s : State) : Host.Outcome State Fault Refusal :=
  operate (sendBody p n) s

/-- `WS_BIT0` (R162). -/
def execWsBit0 (s : State) : Host.Outcome State Fault Refusal :=
  operate (sendBit s.cfg.coreHz false) s

/-- `WS_BIT1` (R162). -/
def execWsBit1 (s : State) : Host.Outcome State Fault Refusal :=
  operate (sendBit s.cfg.coreHz true) s

/-- `WS_RESET` (R163). -/
def execWsReset (s : State) : Host.Outcome State Fault Refusal :=
  operate (resetHold s.cfg.coreHz) s

end Sys2Proof.Machine
end

