-- ==== Sys2Proof/Machine/Wire.lean ====
section
/-! DEFINITION. The HD44780 bus words and the lone nibble (30_encoding.md R76, R77, R81), each the internal transfer the
block makes of it. Run on their own they need the session their callers have checked (40_lcd_transfer.md R110; log 11). A
command word sends the byte it spells; the wait of `clear` and the delays of the handshake belong to those operations
(R87, R81; log 20). -/

namespace Sys2Proof.Machine

/-- A command word: R104. -/
def commandTransfer (b : Byte) : Proc Unit := lcdOperation none (sendCmd b)

/-- `CLEAR_DISPLAY`. -/
def execClearDisplay (s : State) : Host.Outcome State Fault Refusal :=
  operate (commandTransfer 0x01) s

/-- `ENTRY_MODE_SET`. -/
def execEntryModeSet (increment shift : Bool) (s : State) : Host.Outcome State Fault Refusal :=
  operate (commandTransfer (entryModeByte increment shift)) s

/-- `DISPLAY_CONTROL`. -/
def execDisplayControl (display cursor blink : Bool) (s : State) : Host.Outcome State Fault Refusal :=
  operate (commandTransfer (displayControlByte display cursor blink)) s

/-- `FUNCTION_SET`. -/
def execFunctionSet (dataLength lines font : Bool) (ignored : BitVec 2) (s : State) :
    Host.Outcome State Fault Refusal :=
  operate (commandTransfer (functionSetByte dataLength lines font ignored)) s

/-- `SET_DDRAM_ADDRESS`. -/
def execSetDdramAddress (address : BitVec 7) (s : State) : Host.Outcome State Fault Refusal :=
  operate (commandTransfer (setDdramByte address)) s

/-- `WRITE_DATA`: R105, any byte. -/
def execWriteData (character : Byte) (s : State) : Host.Outcome State Fault Refusal :=
  operate (lcdOperation none (sendData character)) s

/-- `INIT_NIBBLE`: R101 with RS = 0. -/
def execInitNibble (nibble : Nibble) (s : State) : Host.Outcome State Fault Refusal :=
  operate (lcdOperation none (sendNibble nibble false)) s

end Sys2Proof.Machine
end

