-- ==== Sys2Proof/Machine/Dispatch.lean ====
section
/-! DEFINITION. The meaning of each instruction, one arm for each constructor. -/

namespace Sys2Proof.Machine

/-- What one instruction does. -/
def exec (i : Instr) (s : State) : Host.Outcome State Fault Refusal :=
  match i with
  | .lcdInit bus addr => Sys2Proof.Machine.execLcdInit bus addr s
  | .lcdClear => Sys2Proof.Machine.execLcdClear s
  | .lcdCursor row column => Sys2Proof.Machine.execLcdCursor row column s
  | .lcdText string => Sys2Proof.Machine.execLcdText string s
  | .lcdBlon => Sys2Proof.Machine.execLcdBlon s
  | .lcdBloff => Sys2Proof.Machine.execLcdBloff s
  | .lcdWrap string => Sys2Proof.Machine.execLcdWrap string s
  | .lcdScroll row text delay => Sys2Proof.Machine.execLcdScroll row text delay s
  | .ledSend buffer count => Sys2Proof.Machine.execLedSend buffer count s
  | .clearDisplay => Sys2Proof.Machine.execClearDisplay s
  | .entryModeSet increment shift => Sys2Proof.Machine.execEntryModeSet increment shift s
  | .displayControl display cursor blink => Sys2Proof.Machine.execDisplayControl display cursor blink s
  | .functionSet dataLength lines font ignored => Sys2Proof.Machine.execFunctionSet dataLength lines font ignored s
  | .setDdramAddress address => Sys2Proof.Machine.execSetDdramAddress address s
  | .writeData character => Sys2Proof.Machine.execWriteData character s
  | .initNibble nibble => Sys2Proof.Machine.execInitNibble nibble s
  | .wsBit0 => Sys2Proof.Machine.execWsBit0 s
  | .wsBit1 => Sys2Proof.Machine.execWsBit1 s
  | .wsReset => Sys2Proof.Machine.execWsReset s

end Sys2Proof.Machine
end

