-- ==== Sys2Proof/Machine/Fetch.lean ====
section
/-! DEFINITION. Where the next operation comes from: the host's program, a list that `pc` indexes (10_state.md R21). The
block fetches no instruction bytes from memory (20_memory.md R65; log 9). -/

namespace Sys2Proof.Machine

/-- The operation at `pc`, none at the end of the program (R21). -/
def fetch (s : State) : Option Word := s.program[s.pc]?

/-- The end of the program: the block waits for the host's next operation (R21, R221; log 8). With a fault recorded no
operation runs any more (R31). -/
def atEnd (s : State) : Host.Outcome State Fault Refusal :=
  match s.fault with
  | some f => .fault f
  | none => .next s

/-- A word at an index of a list, the list grown with the word itself where it is shorter. -/
def placeAt (l : List Word) (n : Nat) (w : Word) : List Word :=
  l.take n ++ (List.replicate (n - l.length) w ++ w :: l.drop (n + 1))

/-- The table word with these bits; bits that are no table word become host id 0x00, which no operation has. -/
def wordOrNone (nbits w : Nat) : Word := (tableWord nbits w).getD (.ho 0x00 [])

end Sys2Proof.Machine
end

