-- ==== Sys2Proof/Machine/Step.lean ====
section
/-! DEFINITION. One step: the next operation of the host's program, decoded and run (10_state.md R21). -/

namespace Sys2Proof.Machine

/-- A step. An invalid configuration has none (R194, first in R201). A blocked operation stays inside its transaction (R198).
Otherwise the operation at `pc` is decoded and run; the operation moves `pc` itself (R21, R120). R201 puts `IllegalOp` before a
recorded fault; that the decoder's other rejections stand there too, and a blocked operation before all of them, is the
model's choice (log 28). -/
def step (s : State) : Host.Outcome State Fault Refusal :=
  match failedCheck s.cfg with
  | some check => .refused (.invalidConfig check)
  | none =>
    if s.blocked then .next s
    else
      match fetch s with
      | none => atEnd s
      | some w =>
        match decode w with
        | .error r => .refused (rejected r)
        | .ok i => exec i s

/-- The state whose next operation is the table word with these bits: the program's entry at `pc` (log 9). -/
def State.withFetchWord (s : State) (nbits w : Nat) : State :=
  { s with program := placeAt s.program s.pc (wordOrNone nbits w) }

end Sys2Proof.Machine
end

