-- ==== Sys2Proof/Machine/Observer.lean ====
section
/-! DEFINITION. The informative observer of 40_lcd_transfer.md R112: what an HD44780 that latches on the falling edge of
the enable bit receives from a trace. It defines no behaviour of the block (log 23). -/

namespace Sys2Proof.Machine

/-- A latched nibble and the register select it came with. -/
structure Latched where
  nibble : Nibble
  rs : Bool
deriving DecidableEq, Repr

/-- The bytes a trace writes to the expander, in order. -/
def writtenBytes : List Event → List Byte
  | [] => []
  | .xmit _ bytes :: rest => bytes ++ writtenBytes rest
  | .waitMs _ :: rest => writtenBytes rest
  | .pin _ :: rest => writtenBytes rest
  | .spin _ _ :: rest => writtenBytes rest
  | .irqOff _ :: rest => writtenBytes rest
  | .irqRestore _ :: rest => writtenBytes rest

/-- Whether a mask's bit is set. -/
def hasBit (b mask : Byte) : Bool := b &&& mask != 0

/-- What is latched from a byte `q` on the port: `(q >> NIB_OFF) & 0xF` and `q & RS_MASK ≠ 0`. -/
def latchedFrom (c : Cfg) (q : Byte) : Latched := ⟨(q >>> c.nibOff).setWidth 4, hasBit q c.rsMask⟩

/-- The nibbles latched at falling enable edges, `p` being the byte before the first. -/
def latches (c : Cfg) (p : Byte) : List Byte → List Latched
  | [] => []
  | q :: rest =>
    if hasBit p c.enMask && !hasBit q c.enMask then latchedFrom c q :: latches c q rest
    else latches c q rest

/-- Nibbles paired up as (high, low) into LC words, RS in bit 8 (R76). The spec gives no RS where the two nibbles' flags differ,
which a nibble bit on `RS_MASK` can bring about (R9), and no word for a nibble without a second one: taking the high nibble's
RS and dropping an unpaired nibble are the model's choices (log 23). -/
def pairUp : List Latched → List (BitVec 9)
  | [] => []
  | [_] => []
  | hi :: lo :: rest => (BitVec.ofBool hi.rs ++ hi.nibble ++ lo.nibble) :: pairUp rest

/-- What is latched from a trace, starting at the shadow or 0. -/
def observed (c : Cfg) (shadow : Option Byte) (events : List Event) : List Latched :=
  latches c (shadow.getD 0) (writtenBytes events)

/-- How many nibbles after `initialize` starts are lone. -/
def loneNibbles (c : Cfg) : Nat := 3 + (if c.modeNibble.isSome then 1 else 0)

end Sys2Proof.Machine
end

