-- ==== Sys2Proof/Safety.lean ====
section
/-! DEFINITION. The terms claims are made in: what counts as a safe state, the event lists of the spec's rules written as
plain lists, sums and counts over them, and the invariant of the machine. -/

namespace Sys2Proof.Machine

/-- No fault, nothing blocked, and a valid configuration: an operation can start (R120, R160, R194). -/
abbrev State.live (s : State) : Prop := validCfg s.cfg = true ∧ s.blocked = false ∧ s.fault = none

/-- Live, and `initialize` has run: every LCD operation but `initialize` can start (R120). -/
abbrev State.inSession (s : State) : Prop := s.live ∧ s.inited = true

/-- The transport's replies to the transactions of a list of events on a bus, in order, from a list of coming replies and the
number of the first draw (R32). -/
def answers (bus : BusHandle) : List Reply → Nat → List Event → List Reply
  | _, _, [] => []
  | rs, n, .xmit a bytes :: rest => replyTo rs n bus a bytes :: answers bus rs.tail (n + 1) rest
  | rs, n, .waitMs _ :: rest => answers bus rs n rest
  | rs, n, .pin _ :: rest => answers bus rs n rest
  | rs, n, .spin _ _ :: rest => answers bus rs n rest
  | rs, n, .irqOff _ :: rest => answers bus rs n rest
  | rs, n, .irqRestore _ :: rest => answers bus rs n rest

/-- "Every `Xmit` returns" (R198), on a bus, for the transactions of these events. -/
abbrev State.returnsOn (s : State) (bus : BusHandle) (events : List Event) : Prop :=
  Reply.never ∉ answers bus s.replies s.draws events

/-- "Every `Xmit` returns" (R198), on the session's bus, for the transactions of these events. -/
abbrev State.transportReturns (s : State) (events : List Event) : Prop := s.returnsOn s.bus events

/-- A safe state: no contract violation recorded and no operation hanging. -/
abbrev State.safe (s : State) : Prop := s.fault = none ∧ s.blocked = false

/-- A run has ended normally (R21). -/
abbrev State.ended (s : State) : Prop := s.pc = s.program.length ∧ s.safe

/-- A change of the next state; a fault or a refusal stays. -/
def mapNext (g : State → State) : Host.Outcome State Fault Refusal → Host.Outcome State Fault Refusal
  | .next t => .next (g t)
  | .fault f => .fault f
  | .refused r => .refused r

/-- The instructions of the LED channel; all others are the LCD channel's (R1). -/
def isLed : Instr → Bool
  | .lcdInit _ _ => false
  | .lcdClear => false
  | .lcdCursor _ _ => false
  | .lcdText _ => false
  | .lcdBlon => false
  | .lcdBloff => false
  | .lcdWrap _ => false
  | .lcdScroll _ _ _ => false
  | .ledSend _ _ => true
  | .clearDisplay => false
  | .entryModeSet _ _ => false
  | .displayControl _ _ _ => false
  | .functionSet _ _ _ _ => false
  | .setDdramAddress _ => false
  | .writeData _ => false
  | .initNibble _ => false
  | .wsBit0 => true
  | .wsBit1 => true
  | .wsReset => true

/-- Host memory holds these bytes from an address on. -/
abbrev HoldsBytes (m : Memory) (p : Nat) (bs : List Byte) : Prop :=
  ∀ i, (h : i < bs.length) → Memory.read m (p + i) = some bs[i]

/-- Host memory holds this string from an address on, the terminator included (R125). -/
abbrev HoldsString (m : Memory) (p : Nat) (bs : List Byte) : Prop :=
  HoldsBytes m p bs ∧ (∀ b ∈ bs, b ≠ 0) ∧ Memory.read m (p + bs.length) = some 0

/-- `P(F)`: the enable pulse around a base frame (R101). -/
def pulse (c : Cfg) (a : Nat) (f : Byte) : List Event :=
  (if c.presetWrite then [.xmit a [f]] else [])
    ++ [.xmit a [f ||| c.enMask], .waitMs c.tuMs, .xmit a [f], .waitMs c.tuMs]

/-- The two pulses of a byte (R103). -/
def byteEvents (c : Cfg) (a : Nat) (bl : Bool) (b : Byte) (rs : Bool) : List Event :=
  pulse c a (frame c bl (hiNibble b) rs) ++ pulse c a (frame c bl (loNibble b) rs)

/-- `C(b)` (R104). -/
def cmdEvents (c : Cfg) (a : Nat) (bl : Bool) (b : Byte) : List Event :=
  byteEvents c a bl b false ++ [.waitMs (2 * c.tuMs)]

/-- `D(b)` (R105). -/
def dataEvents (c : Cfg) (a : Nat) (bl : Bool) (b : Byte) : List Event :=
  byteEvents c a bl b true ++ [.waitMs (1 * c.tuMs)]

/-- A run of characters. -/
def charsEvents (c : Cfg) (a : Nat) (bl : Bool) (bs : List Byte) : List Event :=
  bs.flatMap (dataEvents c a bl)

/-- `clear` (R123). -/
def clearEvents (c : Cfg) (a : Nat) (bl : Bool) : List Event :=
  cmdEvents c a bl c.clearCmd ++ [.waitMs c.tClearMs]

/-- `set_cursor` (R124). -/
def cursorEvents (c : Cfg) (a : Nat) (bl : Bool) (row column : Nat) : List Event :=
  cmdEvents c a bl (ddramCommand (cellAddress c row column))

/-- A lone nibble of the handshake and its delay (R81). -/
def loneEvents (c : Cfg) (a : Nat) (bl : Bool) (n : Nibble) (ms : Nat) : List Event :=
  pulse c a (frame c bl n false) ++ [.waitMs ms]

/-- `initialize` (R121). -/
def initEvents (c : Cfg) (a : Nat) : List Event :=
  [.waitMs c.tPwrMs]
    ++ loneEvents c a c.blInit c.initNibbles.first c.initDelaysMs.first
    ++ loneEvents c a c.blInit c.initNibbles.second c.initDelaysMs.second
    ++ loneEvents c a c.blInit c.initNibbles.third c.initDelaysMs.third
    ++ (match c.modeNibble with
        | none => []
        | some n => loneEvents c a c.blInit n c.modeDelayMs)
    ++ cmdEvents c a c.blInit c.functionSet
    ++ cmdEvents c a c.blInit c.displayCtrl
    ++ clearEvents c a c.blInit
    ++ cmdEvents c a c.blInit c.entryMode

/-- The chunk of row `r` (R130). -/
def chunk (c : Cfg) (bs : List Byte) (r : Nat) : List Byte := (bs.drop (r * c.cols)).take c.cols

/-- `write_wrapped`: each row whose chunk is not empty is positioned and written (R130). -/
def wrapEvents (c : Cfg) (a : Nat) (bl : Bool) (bs : List Byte) : List Event :=
  (List.range c.rows).flatMap fun r =>
    if chunk c bs r = [] then [] else cursorEvents c a bl r 0 ++ charsEvents c a bl (chunk c bs r)

/-- One window of `scroll_row` and the delay after it (R131). -/
def windowEvents (c : Cfg) (a : Nat) (bl : Bool) (row d : Nat) (bs : List Byte) (i : Nat) : List Event :=
  cursorEvents c a bl row 0 ++ charsEvents c a bl ((bs.drop i).take c.cols)
    ++ (if i < bs.length - c.cols ∨ c.scrollTrailingDelay = true then [.waitMs d] else [])

/-- `scroll_row` (R131). -/
def scrollEvents (c : Cfg) (a : Nat) (bl : Bool) (row d : Nat) (bs : List Byte) : List Event :=
  if bs.length ≤ c.cols then cursorEvents c a bl row 0 ++ charsEvents c a bl bs
  else (List.range (bs.length - c.cols + 1)).flatMap (windowEvents c a bl row d bs)

/-- A bit symbol (R83, R162). -/
def bitEvents (c : Cfg) (v : Bool) : List Event :=
  if v then [.pin true, .spin c.t1hNs (loops c c.t1hNs c.coreHz), .pin false, .spin c.t1lNs (loops c c.t1lNs c.coreHz)]
  else [.pin true, .spin c.t0hNs (loops c c.t0hNs c.coreHz), .pin false, .spin c.t0lNs (loops c c.t0lNs c.coreHz)]

/-- The bits of a byte, bit 7 first (R55). -/
def msbFirst (b : Byte) : List Bool :=
  [b.getLsbD 7, b.getLsbD 6, b.getLsbD 5, b.getLsbD 4, b.getLsbD 3, b.getLsbD 2, b.getLsbD 1, b.getLsbD 0]

/-- The symbols of a buffer (R161). -/
def bufferEvents (c : Cfg) (bs : List Byte) : List Event :=
  bs.flatMap fun b => (msbFirst b).flatMap (bitEvents c)

/-- The reset hold (R163). -/
def holdEvents (c : Cfg) : List Event := [.pin false, .spin c.tResetNs (loops c c.tResetNs c.coreHz)]

/-- `send` (R161). -/
def sendEvents (c : Cfg) (prev : Bool) (bs : List Byte) : List Event :=
  [.irqOff prev] ++ bufferEvents c bs ++ holdEvents c ++ [.irqRestore prev]

/-- How many of the events are transport transactions. -/
def xmitCount : List Event → Nat
  | [] => 0
  | .xmit _ _ :: rest => xmitCount rest + 1
  | .waitMs _ :: rest => xmitCount rest
  | .pin _ :: rest => xmitCount rest
  | .spin _ _ :: rest => xmitCount rest
  | .irqOff _ :: rest => xmitCount rest
  | .irqRestore _ :: rest => xmitCount rest

/-- The arguments of the `wait_ms` events, in order (R33). -/
def waitArgs : List Event → List Nat
  | [] => []
  | .xmit _ _ :: rest => waitArgs rest
  | .waitMs n :: rest => n :: waitArgs rest
  | .pin _ :: rest => waitArgs rest
  | .spin _ _ :: rest => waitArgs rest
  | .irqOff _ :: rest => waitArgs rest
  | .irqRestore _ :: rest => waitArgs rest

/-- The minimum blocking time: the sum of the `wait_ms` arguments (R122, R233). -/
def waitTotal (events : List Event) : Nat := (waitArgs events).sum

/-- How many of the events drive the LED line high: one for each bit symbol (R167). -/
def pulseCount : List Event → Nat
  | [] => 0
  | .xmit _ _ :: rest => pulseCount rest
  | .waitMs _ :: rest => pulseCount rest
  | .pin v :: rest => (if v then 1 else 0) + pulseCount rest
  | .spin _ _ :: rest => pulseCount rest
  | .irqOff _ :: rest => pulseCount rest
  | .irqRestore _ :: rest => pulseCount rest

/-- The sum of the `spin` targets, in nanoseconds (R167). -/
def spinTotal : List Event → Nat
  | [] => 0
  | .xmit _ _ :: rest => spinTotal rest
  | .waitMs _ :: rest => spinTotal rest
  | .pin _ :: rest => spinTotal rest
  | .spin ns _ :: rest => ns + spinTotal rest
  | .irqOff _ :: rest => spinTotal rest
  | .irqRestore _ :: rest => spinTotal rest

/-- The events up to and including transaction number `k` (from 0). -/
def throughXmit : Nat → List Event → List Event
  | _, [] => []
  | 0, .xmit a bytes :: _ => [.xmit a bytes]
  | k + 1, .xmit a bytes :: rest => .xmit a bytes :: throughXmit k rest
  | k, .waitMs n :: rest => .waitMs n :: throughXmit k rest
  | k, .pin v :: rest => .pin v :: throughXmit k rest
  | k, .spin ns n :: rest => .spin ns n :: throughXmit k rest
  | k, .irqOff v :: rest => .irqOff v :: throughXmit k rest
  | k, .irqRestore v :: rest => .irqRestore v :: throughXmit k rest

/-- The last byte of a list of events written to the expander, `b` where there is none (R28). -/
def lastWritten (b : Option Byte) (events : List Event) : Option Byte :=
  match (writtenBytes events).getLast? with
  | some q => some q
  | none => b

/-- The last level a list of events drives the LED line to, `v` where there is none (R29). -/
def lastPin (v : Bool) : List Event → Bool
  | [] => v
  | .xmit _ _ :: rest => lastPin v rest
  | .waitMs _ :: rest => lastPin v rest
  | .pin w :: rest => lastPin w rest
  | .spin _ _ :: rest => lastPin v rest
  | .irqOff _ :: rest => lastPin v rest
  | .irqRestore _ :: rest => lastPin v rest

/-- The instruction answers a next state in which it has completed, and the events it has emitted satisfy `Q`. -/
def Completes (i : Instr) (s : State) (Q : List Event → Prop) : Prop :=
  ∃ (t : State) (events : List Event), exec i s = .next t ∧ t.pc = s.pc + 1 ∧ t.fault = none ∧ t.blocked = false ∧
    t.trace = s.trace ++ events ∧ Q events

/-- The state after LCD events that all returned: the trace is longer, the shadow is `shadow`, the transport's replies are
drawn, and every other field is as it was. -/
def State.sent (s : State) (events : List Event) (shadow : Option Byte) : State :=
  { s with trace := s.trace ++ events, shadow := shadow, replies := s.replies.drop (xmitCount events),
           draws := s.draws + xmitCount events }

/-- The state after LED events: the trace is longer, the line is low, and every other field is as it was. -/
def State.shown (s : State) (events : List Event) : State :=
  { s with trace := s.trace ++ events, pin := false }

/-- The state after a bus word's transfer that returned (R103 to R105): its two pulses and its settle delay are in the trace, the
shadow is the low nibble's frame, the replies are drawn, `pc` has moved on, and every other field is as it was. -/
def State.wordSent (s : State) (b : Byte) (rs : Bool) : State :=
  { s with
    trace := s.trace ++ (pulse s.cfg s.addr (frame s.cfg s.bl (hiNibble b) rs)
      ++ pulse s.cfg s.addr (frame s.cfg s.bl (loNibble b) rs) ++ [.waitMs ((if rs then 1 else 2) * s.cfg.tuMs)]),
    shadow := some (frame s.cfg s.bl (loNibble b) rs),
    replies := s.replies.drop (if s.cfg.presetWrite then 6 else 4),
    draws := s.draws + (if s.cfg.presetWrite then 6 else 4),
    pc := s.pc + 1 }

/-- No nibble bit falls on a mask's bit (R74). -/
def apart (c : Cfg) (mask : Byte) : Bool := (0x0F#8 <<< c.nibOff) &&& mask == 0

/-- No nibble bit falls on the enable, register-select or backlight bit, and no nibble bit is lost: the wiring the defaults
describe (R71, R74). -/
def cleanWiring (c : Cfg) : Bool :=
  (c.nibOff == 3 || c.nibOff == 4) && apart c c.enMask && apart c c.rsMask && apart c c.blMask

/-- Between operations the shadow is consistent with the session: it exists exactly once `initialize` has run (R127), its enable
bit is 0 where no nibble bit falls on it (R127, R74), and its backlight bit is the flag where no nibble bit falls on that
(R26, R74). -/
def shadowConsistent (s : State) : Prop :=
  (s.inited = true → s.shadow.isSome = true) ∧
    ∀ b, s.shadow = some b → s.inited = true ∧
      (apart s.cfg s.cfg.enMask = true → hasBit b s.cfg.enMask = false) ∧
      (apart s.cfg s.cfg.blMask = true → hasBit b s.cfg.blMask = s.bl)

/-- The invariant of the machine: host memory keeps its canonical form, `pc` stays inside the program (R21), a hang and a
recorded fault exclude each other (R198), and outside a hang the shadow is consistent. -/
def State.Inv (s : State) : Prop :=
  Memory.wf s.mem = true ∧ s.pc ≤ s.program.length ∧ (s.blocked = true → s.fault = none) ∧
    (validCfg s.cfg = true → s.blocked = false → shadowConsistent s)

/-- The trace and the fields agree (R25, R28, R29, R58): outside a hang the shadow is the last byte in the trace, `pin` is
the last level in it (`PIN_INIT` before the first), and every transaction carries one byte to the session's address. -/
def State.TraceInv (s : State) : Prop :=
  (s.blocked = false → s.shadow = lastWritten none s.trace) ∧ s.pin = lastPin s.cfg.pinInit s.trace ∧
    ∀ a bytes, Event.xmit a bytes ∈ s.trace → s.inited = true ∧ a = s.addr ∧ bytes.length = 1

end Sys2Proof.Machine
end

