-- ==== Sys2Proof/Certificates/Slice0/Obligations.lean ====
section
/-! DEFINITION. The statements for the provers. Each docstring names the rule it formalises. -/

open Sys2Proof Sys2Proof.Machine

/-! ### Encoding -/

/-- Decoding an encoded instruction gives it back, for every instruction with every operand (R76, R77, R81, R83, R85). -/
def Obligations.DecodeAfterEncode : Prop :=
  ∀ i : Instr, decode (encode i) = .ok i

/-- A word that decodes is the encoding of what it decodes to: each instruction has one word. -/
def Obligations.EncodeAfterDecode : Prop :=
  ∀ (w : Word) (i : Instr), decode w = .ok i → encode i = w

/-- R195: a host id outside R85's nine ids is refused with `IllegalOp(id)` and has no step, with any operands and also after
a recorded fault (R201). -/
def Obligations.UnlistedHostIdRefused : Prop :=
  ∀ (id : Byte) (operands : List Nat), id ∉ [0x01, 0x02, 0x03, 0x04, 0x05, 0x06, 0x07, 0x08, 0x10] →
    decode (.ho id operands) = .error (.illegalOp id) ∧
      ∀ s : State, validCfg s.cfg = true → s.blocked = false → s.program[s.pc]? = some (.ho id operands) →
        step s = .refused (.illegalOp id)

/-- A bus word decodes exactly where a row of the table spells it (R76, R77). Every other word, those of the classes that R88 says
the block never emits and the empty command among them, is refused by name: that refusal is the model's choice (log 20). -/
def Obligations.BusWordsOfTheTable : Prop :=
  ∀ w : BitVec 9,
    ((∃ i, decode (.lc w) = .ok i) ↔ ∃ r ∈ opcodeTable, r.spells (.lc w) = true) ∧
      ((∀ i, decode (.lc w) ≠ .ok i) → decode (.lc w) = .error (.neverEmitted w))

/-- Words written out from R77, R81, R83 and R85 decode to the instructions they stand for. -/
def Obligations.SampleWordsDecode : Prop :=
  decode (.ho 0x03 [1, 3]) = .ok (.lcdCursor 1 3) ∧
  decode (.ho 0x08 [0, 768, 200]) = .ok (.lcdScroll 0 768 200) ∧
  decode (.ho 0x10 [1024, 2]) = .ok (.ledSend 1024 2) ∧
  decode (.lc 0b000000001) = .ok .clearDisplay ∧
  decode (.lc 0b000000110) = .ok (.entryModeSet true false) ∧
  decode (.lc 0b000001100) = .ok (.displayControl true false false) ∧
  decode (.lc 0b000101000) = .ok (.functionSet false true false 0) ∧
  decode (.lc 0b011000011) = .ok (.setDdramAddress 0x43) ∧
  decode (.lc 0b101001000) = .ok (.writeData 0x48) ∧
  decode (.ln 0b00011) = .ok (.initNibble 0x3) ∧
  decode (.wb 0b1) = .ok .wsBit1

/-! ### Steps, the end of a run, faults and refusals -/

/-- A step at a word that decodes is the instruction at that state; a completed instruction has moved `pc` itself (R21). -/
def Obligations.StepRunsDecoded : Prop :=
  ∀ (s : State) (w : Word) (i : Instr), validCfg s.cfg = true → s.blocked = false →
    s.program[s.pc]? = some w → decode w = .ok i → step s = exec i s

/-- Where no operation runs: inside a transaction that never returns a step changes nothing (R198; log 6) and no operation
starts (R204, R230; log 27); at the end of the program without a fault a step changes nothing (R21; the idling is the model's choice,
log 8). -/
def Obligations.StepWithoutOperation : Prop :=
  ∀ s : State, validCfg s.cfg = true →
    (s.blocked = true → step s = .next s ∧ ∀ i : Instr, exec i s = .refused .concurrentCall) ∧
    (s.blocked = false → s.fault = none → s.program.length ≤ s.pc → step s = .next s)

/-- What an instruction that answers a next state has done: it was started in a live state, and it completed with `pc` moved
on, or raised a fault, or hangs; a fault and a hang leave `pc` (R21, R190, R198). That the operation which raises a fault or
hangs answers a next state is the model's form (logs 6 and 7). -/
def Obligations.CompletesFaultsOrHangs : Prop :=
  ∀ (i : Instr) (s t : State), exec i s = .next t →
    s.live ∧
      ((t.pc = s.pc + 1 ∧ t.fault = none ∧ t.blocked = false) ∨
        (t.pc = s.pc ∧ t.fault ≠ none ∧ t.blocked = false) ∨
        (t.pc = s.pc ∧ t.fault = none ∧ t.blocked = true))

/-- R31: `fault` is none at reset; raising a fault sets it; once it is set no operation has a step, so it is never cleared (R190).
The model's choices: that an operation after it answers the recorded fault as its outcome (log 7), and that a blocked machine,
which no run reaches with a fault, stays as it is (log 6). -/
def Obligations.FaultIsFinal : Prop :=
  (∀ c : Cfg, (State.resetWith c).fault = none) ∧
  (∀ (f : Fault) (s : State), (raise f : Proc Unit).run s = .error .raised { s with fault := some f }) ∧
  ∀ (s : State) (f : Fault), s.fault = some f →
    (∀ (i : Instr) (t : State), exec i s ≠ .next t) ∧ (∀ t : State, step s = .next t → s.blocked = true ∧ t = s) ∧
      (validCfg s.cfg = true → s.blocked = false → ∀ i : Instr, exec i s = .fault f)

/-- R194: under an invalid configuration no instruction has a step; the refusal names a check that fails. -/
def Obligations.InvalidConfigRefused : Prop :=
  ∀ s : State, validCfg s.cfg = false →
    ∃ k : ConfigCheck, checkHolds s.cfg k = false ∧ step s = .refused (.invalidConfig k) ∧
      ∀ i : Instr, exec i s = .refused (.invalidConfig k)

/-- R9: when a configuration is valid. -/
def Obligations.ConfigValidity : Prop :=
  ∀ c : Cfg, validCfg c = true ↔
    1 ≤ c.rows ∧ 1 ≤ c.cols ∧ (c.nibOff = 3 ∨ c.nibOff = 4 ∨ c.nibOff = 5) ∧
    (∀ m ∈ [c.rsMask, c.rwMask, c.enMask, c.blMask], ∃ k < 8, m = 1#8 <<< k) ∧
    [c.rsMask, c.rwMask, c.enMask, c.blMask].Nodup ∧
    c.t0hNs + c.t0lNs = c.t1hNs + c.t1lNs ∧ c.t0hNs < c.t1hNs ∧
    c.initDelaysMs.second ≤ c.initDelaysMs.first ∧ c.initDelaysMs.third ≤ c.initDelaysMs.second

/-- R8's defaults are valid and legal for every geometry with a row and a column. -/
def Obligations.DefaultsAreValid : Prop :=
  ∀ cols rows : Nat, 1 ≤ cols → 1 ≤ rows →
    validCfg (defaultCfg cols rows) = true ∧ inLegalRange (defaultCfg cols rows) = true ∧
      cleanWiring (defaultCfg cols rows) = true

/-- R192: before `initialize`, every other LCD operation raises `NotInitialized` with its id, reads no byte and emits
nothing, whatever host memory holds (R201). -/
def Obligations.NotInitializedRaised : Prop :=
  ∀ (s : State) (row column p d : Nat), s.live → s.inited = false →
    exec .lcdClear s = .next { s with fault := some (.notInitialized (some 0x02)) } ∧
    exec (.lcdCursor row column) s = .next { s with fault := some (.notInitialized (some 0x03)) } ∧
    exec (.lcdText p) s = .next { s with fault := some (.notInitialized (some 0x04)) } ∧
    exec .lcdBlon s = .next { s with fault := some (.notInitialized (some 0x05)) } ∧
    exec .lcdBloff s = .next { s with fault := some (.notInitialized (some 0x06)) } ∧
    exec (.lcdWrap p) s = .next { s with fault := some (.notInitialized (some 0x07)) } ∧
    exec (.lcdScroll row p d) s = .next { s with fault := some (.notInitialized (some 0x08)) }

/-- An LC or LN word run on its own before `initialize` raises the same fault without an id: the model's choice (log 11). -/
def Obligations.WireWordNeedsSession : Prop :=
  ∀ (s : State) (b1 b2 b3 : Bool) (x : BitVec 2) (a : BitVec 7) (d : Byte) (n : Nibble), s.live → s.inited = false →
    ∀ i ∈ [Instr.clearDisplay, .entryModeSet b1 b2, .displayControl b1 b2 b3, .functionSet b1 b2 b3 x,
        .setDdramAddress a, .writeData d, .initNibble n],
      exec i s = .next { s with fault := some (.notInitialized none) }

/-- R193: a second `initialize` raises `ReInit` and changes nothing else. -/
def Obligations.ReInitRaised : Prop :=
  ∀ (s : State) (bus : BusHandle) (addr : Nat), s.inSession →
    exec (.lcdInit bus addr) s = .next { s with fault := some .reInit }

/-! ### Frames and whole-machine rules -/

/-- R53, R8 and R34: no instruction writes host memory, the configuration or the program, and the trace only grows: every
byte of memory reads as before. -/
def Obligations.HostMemoryIsReadOnly : Prop :=
  ∀ (i : Instr) (s t : State), exec i s = .next t →
    (∀ a : Nat, Memory.read t.mem a = Memory.read s.mem a) ∧ t.mem = s.mem ∧ t.cfg = s.cfg ∧ t.program = s.program ∧
      ∃ events : List Event, t.trace = s.trace ++ events

/-- R30: an LCD instruction neither reads nor writes `ie`, nor the LED line: with other values there it does the same. -/
def Obligations.LcdIgnoresLedFields : Prop :=
  ∀ (i : Instr) (s : State) (ie pin : Bool), isLed i = false →
    exec i { s with ie := ie, pin := pin } = mapNext (fun t => { t with ie := ie, pin := pin }) (exec i s)

/-- R1 and R160: an LED instruction neither reads nor writes the LCD channel's fields or the transport's replies. -/
def Obligations.LedIgnoresLcdFields : Prop :=
  ∀ (i : Instr) (s : State) (inited : Bool) (bus : BusHandle) (addr : Nat) (bl : Bool) (shadow : Option Byte)
    (replies : List Reply) (draws : Nat), isLed i = true →
    exec i { s with inited := inited, bus := bus, addr := addr, bl := bl, shadow := shadow, replies := replies,
                    draws := draws } =
      mapNext (fun t => { t with inited := inited, bus := bus, addr := addr, bl := bl, shadow := shadow,
                                 replies := replies, draws := draws }) (exec i s)

/-- R23 to R25: `inited` is 0 at reset, a completed `initialize` has set it and bound the handle and the address it was given,
only `initialize` changes it, and nothing clears it or changes the handle or the address of a session. -/
def Obligations.InitedOnlySetByInitialize : Prop :=
  (∀ c : Cfg, (State.resetWith c).inited = false) ∧
    ∀ (i : Instr) (s t : State), exec i s = .next t →
      (s.inited = true → t.inited = true ∧ t.bus = s.bus ∧ t.addr = s.addr) ∧
      ((∀ bus addr, i ≠ .lcdInit bus addr) → t.inited = s.inited ∧ t.bus = s.bus ∧ t.addr = s.addr) ∧
      (∀ bus addr, i = .lcdInit bus addr → t.fault = none → t.inited = true ∧ t.bus = bus ∧ t.addr = addr)

/-- R26: `initialize` sets `bl` to `BL_INIT`, `backlight_on` to 1 and `backlight_off` to 0; no other instruction writes it. -/
def Obligations.BacklightFlagWriters : Prop :=
  ∀ (i : Instr) (s t : State), exec i s = .next t →
    (∀ bus addr, i = .lcdInit bus addr → s.inited = false → t.bl = s.cfg.blInit) ∧
    (i = .lcdBlon → s.inited = true → t.bl = true) ∧
    (i = .lcdBloff → s.inited = true → t.bl = false) ∧
    ((∀ bus addr, i ≠ .lcdInit bus addr) → i ≠ .lcdBlon → i ≠ .lcdBloff → t.bl = s.bl)

/-- R26 and R107: every expander byte an instruction writes has its backlight bit equal to the flag, where no nibble bit falls on
that bit (R74), whatever the other masks and `NIB_OFF`. -/
def Obligations.WrittenBytesCarryTheFlag : Prop :=
  ∀ (i : Instr) (s t : State) (events : List Event), exec i s = .next t →
    (0x0F#8 <<< s.cfg.nibOff) &&& s.cfg.blMask = 0 → t.trace = s.trace ++ events →
    ∀ (a : Nat) (b : Byte), Event.xmit a [b] ∈ events → hasBit b s.cfg.blMask = t.bl

/-- R198: an instruction hangs exactly where one of the transactions it has emitted never returns, whether the reply is listed or
the free value; so where every `Xmit` returns, it does not hang. -/
def Obligations.NoHangWhenTransportReturns : Prop :=
  ∀ (i : Instr) (s t : State) (events : List Event), exec i s = .next t → t.trace = s.trace ++ events →
    (t.blocked = true ↔ ¬s.returnsOn t.bus events)

/-- R196: the transport's outcomes change no state and no later event: with every ok and fail exchanged at will (but the
same hangs) an instruction does the same. -/
def Obligations.OutcomesAreDiscarded : Prop :=
  ∀ (i : Instr) (s : State) (replies : List Reply),
    replies.map (fun r => decide (r = .never)) = s.replies.map (fun r => decide (r = .never)) →
    exec i { s with replies := replies } =
      mapNext (fun t => { t with replies := replies.drop (t.draws - s.draws) }) (exec i s)

/-- R220: before `initialize` the bus handle, the bus address and the backlight flag cannot be observed: with other values
there an instruction does the same, and `initialize` overwrites them. -/
def Obligations.UnsetSessionIsUnobservable : Prop :=
  ∀ (i : Instr) (s : State) (bus : BusHandle) (addr : Nat) (bl : Bool), s.inited = false →
    exec i { s with bus := bus, addr := addr, bl := bl } =
      mapNext (fun t => if t.inited then t else { t with bus := bus, addr := addr, bl := bl }) (exec i s)

/-! ### Invariants and reset -/

/-- The state right after reset, with any configuration: what R220 gives, and the invariants hold. -/
def Obligations.ResetState : Prop :=
  ∀ c : Cfg,
    (State.resetWith c).inited = false ∧ (State.resetWith c).shadow = none ∧ (State.resetWith c).pin = c.pinInit ∧
    (State.resetWith c).fault = none ∧ (State.resetWith c).trace = [] ∧ (State.resetWith c).pc = 0 ∧
    (State.resetWith c).Inv ∧ (State.resetWith c).TraceInv

/-- Every step keeps the invariant: canonical host memory, `pc` inside the program, a hang and a fault exclusive, and a shadow
that exists exactly in a session, with its enable bit 0 where no nibble bit falls on it and its backlight bit equal to the
flag where none falls on that (R21, R26, R74, R127, R198). -/
def Obligations.StepKeepsInvariant : Prop :=
  ∀ s t : State, s.Inv → step s = .next t → t.Inv

/-- Every step keeps the agreement of trace and fields: the shadow is the last byte written, the line's level the last one
driven, and every transaction is one byte to the session's address (R25, R28, R29, R58, R71). -/
def Obligations.StepKeepsTraceAgreement : Prop :=
  ∀ s t : State, s.TraceInv → step s = .next t → t.TraceInv

/-! ### The LCD channel -/

/-- R74 and R72: the base frame as a number, its parts or-ed; and for each control bit that no nibble bit falls on: the enable bit
and the RW bit are 0, the register-select bit is `rs`, the backlight bit is the flag. -/
def Obligations.FrameFormula : Prop :=
  ∀ (c : Cfg) (bl : Bool) (n : Nibble) (rs : Bool),
    (frame c bl n rs).toNat =
      ((n.toNat <<< c.nibOff) &&& 0xFF) ||| (if rs = true then c.rsMask.toNat else 0x00)
        ||| (if bl = true then c.blMask.toNat else 0x00) ∧
    (validCfg c = true →
      ((0x0F#8 <<< c.nibOff) &&& c.enMask = 0 → hasBit (frame c bl n rs) c.enMask = false) ∧
      ((0x0F#8 <<< c.nibOff) &&& c.rsMask = 0 → hasBit (frame c bl n rs) c.rsMask = rs) ∧
      ((0x0F#8 <<< c.nibOff) &&& c.blMask = 0 → hasBit (frame c bl n rs) c.blMask = bl) ∧
      ((0x0F#8 <<< c.nibOff) &&& c.rwMask = 0 → hasBit (frame c bl n rs) c.rwMask = false))

/-- R106: transactions, delays and minimum blocking time of a nibble, a command and a character transfer that return, with any
configuration and under the defaults. -/
def Obligations.TransferCounts : Prop :=
  ∀ (s : State) (n : Nibble) (rs : Bool) (b : Byte) (k : Nat), k = (if s.cfg.presetWrite then 3 else 2) →
    (s.transportReturns (pulse s.cfg s.addr (frame s.cfg s.bl n rs)) →
      ∃ (t : State) (es : List Event), (sendNibble n rs).run s = .ok () t ∧ t.trace = s.trace ++ es ∧
        xmitCount es = k ∧ waitArgs es = [s.cfg.tuMs, s.cfg.tuMs]) ∧
    (s.transportReturns (cmdEvents s.cfg s.addr s.bl b) →
      ∃ (t : State) (es : List Event), (sendCmd b).run s = .ok () t ∧ t.trace = s.trace ++ es ∧ xmitCount es = 2 * k ∧
        waitArgs es = [s.cfg.tuMs, s.cfg.tuMs, s.cfg.tuMs, s.cfg.tuMs, 2 * s.cfg.tuMs] ∧
        waitTotal es = 6 * s.cfg.tuMs ∧
        ∀ cols rows : Nat, s.cfg = defaultCfg cols rows → xmitCount es = 6 ∧ waitTotal es = 6) ∧
    (s.transportReturns (dataEvents s.cfg s.addr s.bl b) →
      ∃ (t : State) (es : List Event), (sendData b).run s = .ok () t ∧ t.trace = s.trace ++ es ∧ xmitCount es = 2 * k ∧
        waitArgs es = [s.cfg.tuMs, s.cfg.tuMs, s.cfg.tuMs, s.cfg.tuMs, s.cfg.tuMs] ∧
        waitTotal es = 5 * s.cfg.tuMs ∧
        ∀ cols rows : Nat, s.cfg = defaultCfg cols rows → xmitCount es = 6 ∧ waitTotal es = 5)

/-- R121: `initialize` binds the session, plays its handshake and commands, and changes nothing else. -/
def Obligations.InitializeCompletes : Prop :=
  ∀ (s : State) (bus : BusHandle) (addr : Nat), s.live → s.inited = false →
    s.returnsOn bus (initEvents s.cfg addr) →
    exec (.lcdInit bus addr) s = .next
      { s with
        bus := bus, addr := addr, bl := s.cfg.blInit, inited := true,
        trace := s.trace ++ initEvents s.cfg addr,
        shadow := some (frame s.cfg s.cfg.blInit (loNibble s.cfg.entryMode) false),
        replies := s.replies.drop (xmitCount (initEvents s.cfg addr)),
        draws := s.draws + xmitCount (initEvents s.cfg addr),
        pc := s.pc + 1 }

/-- R122: the minimum blocking time and the transactions of `initialize`, with any configuration; 93 ms and 36 under the
defaults. -/
def Obligations.InitializeTiming : Prop :=
  ∀ (s : State) (bus : BusHandle) (addr : Nat), s.live → s.inited = false →
    s.returnsOn bus (initEvents s.cfg addr) →
    Completes (.lcdInit bus addr) s fun es =>
      waitTotal es =
        s.cfg.tPwrMs + (s.cfg.initDelaysMs.first + s.cfg.initDelaysMs.second + s.cfg.initDelaysMs.third)
          + (if s.cfg.modeNibble.isSome then s.cfg.modeDelayMs else 0) + 2 * s.cfg.tuMs * loneNibbles s.cfg
          + 4 * (6 * s.cfg.tuMs) + s.cfg.tClearMs ∧
      xmitCount es = (loneNibbles s.cfg + 8) * (if s.cfg.presetWrite then 3 else 2) ∧
      ∀ cols rows : Nat, s.cfg = defaultCfg cols rows → waitTotal es = 93 ∧ xmitCount es = 36

/-- R32 and R198 for `initialize`, from the state after reset too: it completes exactly where every transaction of its handshake
returns on the bus it binds, and hangs where one does not, the free value deciding beyond the listed replies (logs 5, 6). -/
def Obligations.InitializeCompletesOrHangs : Prop :=
  ∀ (s : State) (bus : BusHandle) (addr : Nat), s.live → s.inited = false →
    ∃ t : State, exec (.lcdInit bus addr) s = .next t ∧ t.fault = none ∧
      (t.blocked = false ↔ s.returnsOn bus (initEvents s.cfg addr)) ∧
      t.pc = (if t.blocked then s.pc else s.pc + 1)

/-- R123: `clear` sends its command, waits, and changes nothing else. -/
def Obligations.ClearCompletes : Prop :=
  ∀ s : State, s.inSession → s.transportReturns (clearEvents s.cfg s.addr s.bl) →
    exec .lcdClear s = .next
      { s with
        trace := s.trace ++ clearEvents s.cfg s.addr s.bl,
        shadow := some (frame s.cfg s.bl (loNibble s.cfg.clearCmd) false),
        replies := s.replies.drop (xmitCount (clearEvents s.cfg s.addr s.bl)),
        draws := s.draws + xmitCount (clearEvents s.cfg s.addr s.bl),
        pc := s.pc + 1 }

/-- R198 for `clear`: where transaction number `k` never returns, the trace ends with it, the shadow is the byte before it,
and the operation has not completed. -/
def Obligations.ClearHangs : Prop :=
  ∀ (s : State) (k : Nat), s.inSession → k < xmitCount (clearEvents s.cfg s.addr s.bl) →
    Reply.never ∉ (answers s.bus s.replies s.draws (clearEvents s.cfg s.addr s.bl)).take k →
    (answers s.bus s.replies s.draws (clearEvents s.cfg s.addr s.bl))[k]? = some .never →
    exec .lcdClear s = .next
      { s with
        trace := s.trace ++ throughXmit k (clearEvents s.cfg s.addr s.bl),
        shadow := lastWritten s.shadow (throughXmit k (clearEvents s.cfg s.addr s.bl)).dropLast,
        replies := s.replies.drop (k + 1), draws := s.draws + (k + 1), blocked := true }

/-- R124: `set_cursor` sends exactly one command for the clamped cell, for every row and column, and changes nothing else. -/
def Obligations.CursorCompletes : Prop :=
  ∀ (s : State) (row column : Nat), s.inSession →
    s.transportReturns (cursorEvents s.cfg s.addr s.bl row column) →
    exec (.lcdCursor row column) s = .next
      { s with
        trace := s.trace ++ cmdEvents s.cfg s.addr s.bl (ddramCommand (cellAddress s.cfg row column)),
        shadow := some (frame s.cfg s.bl (loNibble (ddramCommand (cellAddress s.cfg row column))) false),
        replies := s.replies.drop (if s.cfg.presetWrite then 6 else 4),
        draws := s.draws + (if s.cfg.presetWrite then 6 else 4),
        pc := s.pc + 1 }

/-- R78 to R80 and R124: the command byte of a cell, with R79's table of row starts, for every row and column: on 16×2 and
20×4 the sum fits 7 bits, elsewhere only row 0 starts at 0x00, every other row at 0x40, and the sum wraps at 7 bits. -/
def Obligations.CursorCommandByte : Prop :=
  ∀ (c : Cfg) (row column : Nat), validCfg c = true → c.rowStarts = [] →
    (c.cols = 16 → c.rows = 2 →
      (ddramCommand (cellAddress c row column)).toNat =
        0x80 + ((if min row 1 = 0 then 0x00 else 0x40) + min column 15)) ∧
    (c.cols = 20 → c.rows = 4 → ∀ start : Nat, [0x00, 0x40, 0x14, 0x54][min row 3]? = some start →
      (ddramCommand (cellAddress c row column)).toNat = 0x80 + (start + min column 19)) ∧
    (¬(c.cols = 16 ∧ c.rows = 2) → ¬(c.cols = 20 ∧ c.rows = 4) →
      (ddramCommand (cellAddress c row column)).toNat =
        0x80 + ((if min row (c.rows - 1) = 0 then 0x00 else 0x40) + min column (c.cols - 1)) % 0x80)

/-- R126: `write_text` sends each byte of a string as a character, and changes nothing else. -/
def Obligations.TextCompletes : Prop :=
  ∀ (s : State) (p : Nat) (bs : List Byte), s.inSession →
    s.transportReturns (charsEvents s.cfg s.addr s.bl bs) → HoldsString s.mem p bs →
    exec (.lcdText p) s = .next
      { s with
        trace := s.trace ++ charsEvents s.cfg s.addr s.bl bs,
        shadow := match bs.getLast? with
          | some b => some (frame s.cfg s.bl (loNibble b) true)
          | none => s.shadow,
        replies := s.replies.drop ((if s.cfg.presetWrite then 6 else 4) * bs.length),
        draws := s.draws + (if s.cfg.presetWrite then 6 else 4) * bs.length,
        pc := s.pc + 1 }

/-- R126 and R191: `write_text` that meets an unreadable byte has sent the characters before it, and raises `BadRead` there. -/
def Obligations.TextBadRead : Prop :=
  ∀ (s : State) (p : Nat) (bs : List Byte), s.inSession →
    s.transportReturns (charsEvents s.cfg s.addr s.bl bs) → HoldsBytes s.mem p bs →
    (∀ b ∈ bs, b ≠ 0) → Memory.read s.mem (p + bs.length) = none →
    exec (.lcdText p) s = .next
      { s.sent (charsEvents s.cfg s.addr s.bl bs) (lastWritten s.shadow (charsEvents s.cfg s.addr s.bl bs)) with
        fault := some (.badRead (p + bs.length)) }

/-- R127 and R128: `backlight_on` sets the flag and re-issues the last byte with the backlight bit set, `backlight_off` clears
the flag and re-issues it with that bit clear; nothing else changes. -/
def Obligations.BacklightCompletes : Prop :=
  ∀ (s : State) (b : Byte), s.inSession → s.shadow = some b →
    (s.transportReturns [.xmit s.addr [b ||| s.cfg.blMask]] →
      exec .lcdBlon s = .next
        { s with
          bl := true, trace := s.trace ++ [.xmit s.addr [b ||| s.cfg.blMask]], shadow := some (b ||| s.cfg.blMask),
          replies := s.replies.drop 1, draws := s.draws + 1, pc := s.pc + 1 }) ∧
    (s.transportReturns [.xmit s.addr [b &&& ~~~s.cfg.blMask]] →
      exec .lcdBloff s = .next
        { s with
          bl := false, trace := s.trace ++ [.xmit s.addr [b &&& ~~~s.cfg.blMask]],
          shadow := some (b &&& ~~~s.cfg.blMask), replies := s.replies.drop 1, draws := s.draws + 1, pc := s.pc + 1 })

/-- A backlight operation without a byte written is refused: R127 says it cannot happen, and the invariant rules it out; the
refusal is the model's choice (log 18). -/
def Obligations.BacklightWithoutShadowRefused : Prop :=
  ∀ s : State, s.inSession → s.shadow = none →
    exec .lcdBlon s = .refused .noShadow ∧ exec .lcdBloff s = .refused .noShadow

/-- R129: two `backlight_on` in a row write the same byte twice, and every other bit of it is the shadow's bit; so do two
`backlight_off`. -/
def Obligations.BacklightIdempotent : Prop :=
  ∀ (s : State) (b : Byte), s.inSession → s.shadow = some b →
    (s.transportReturns [.xmit s.addr [b ||| s.cfg.blMask], .xmit s.addr [b ||| s.cfg.blMask]] →
      ∃ t u : State, exec .lcdBlon s = .next t ∧ exec .lcdBlon t = .next u ∧
        u.trace = s.trace ++ [.xmit s.addr [b ||| s.cfg.blMask], .xmit s.addr [b ||| s.cfg.blMask]]) ∧
    (s.transportReturns [.xmit s.addr [b &&& ~~~s.cfg.blMask], .xmit s.addr [b &&& ~~~s.cfg.blMask]] →
      ∃ t u : State, exec .lcdBloff s = .next t ∧ exec .lcdBloff t = .next u ∧
        u.trace = s.trace ++ [.xmit s.addr [b &&& ~~~s.cfg.blMask], .xmit s.addr [b &&& ~~~s.cfg.blMask]]) ∧
    ∀ k : Nat, s.cfg.blMask.getLsbD k = false →
      (b ||| s.cfg.blMask).getLsbD k = b.getLsbD k ∧ (b &&& ~~~s.cfg.blMask).getLsbD k = b.getLsbD k

/-- R130: `write_wrapped` positions and writes each row whose chunk is not empty, and changes nothing else. `bs` is the
string, or its first `ROWS × COLS` bytes where it is that long; the terminator is then not read. -/
def Obligations.WrapCompletes : Prop :=
  ∀ (s : State) (p : Nat) (bs : List Byte), s.inSession →
    s.transportReturns (wrapEvents s.cfg s.addr s.bl bs) → HoldsBytes s.mem p bs →
    (∀ b ∈ bs, b ≠ 0) →
    (bs.length = s.cfg.rows * s.cfg.cols ∨
      (bs.length < s.cfg.rows * s.cfg.cols ∧ Memory.read s.mem (p + bs.length) = some 0)) →
    exec (.lcdWrap p) s = .next
      { s with
        trace := s.trace ++ wrapEvents s.cfg s.addr s.bl bs,
        shadow := lastWritten s.shadow (wrapEvents s.cfg s.addr s.bl bs),
        replies := s.replies.drop (xmitCount (wrapEvents s.cfg s.addr s.bl bs)),
        draws := s.draws + xmitCount (wrapEvents s.cfg s.addr s.bl bs),
        pc := s.pc + 1 }

/-- R130 and R191: `write_wrapped` that meets an unreadable byte has written what stands before it, and raises `BadRead`. -/
def Obligations.WrapBadRead : Prop :=
  ∀ (s : State) (p : Nat) (bs : List Byte), s.inSession →
    s.transportReturns (wrapEvents s.cfg s.addr s.bl bs) → HoldsBytes s.mem p bs →
    (∀ b ∈ bs, b ≠ 0) → bs.length < s.cfg.rows * s.cfg.cols → Memory.read s.mem (p + bs.length) = none →
    exec (.lcdWrap p) s = .next
      { s.sent (wrapEvents s.cfg s.addr s.bl bs) (lastWritten s.shadow (wrapEvents s.cfg s.addr s.bl bs)) with
        fault := some (.badRead (p + bs.length)) }

/-- R131: `scroll_row` writes a text that fits, or shows its windows with the delays between them; nothing else changes. -/
def Obligations.ScrollCompletes : Prop :=
  ∀ (s : State) (row p d : Nat) (bs : List Byte), s.inSession →
    s.transportReturns (scrollEvents s.cfg s.addr s.bl row d bs) → HoldsString s.mem p bs →
    exec (.lcdScroll row p d) s = .next
      { s with
        trace := s.trace ++ scrollEvents s.cfg s.addr s.bl row d bs,
        shadow := lastWritten s.shadow (scrollEvents s.cfg s.addr s.bl row d bs),
        replies := s.replies.drop (xmitCount (scrollEvents s.cfg s.addr s.bl row d bs)),
        draws := s.draws + xmitCount (scrollEvents s.cfg s.addr s.bl row d bs),
        pc := s.pc + 1 }

/-- R131: `scroll_row` reads the whole string first, so an unreadable byte stops it before any transfer. -/
def Obligations.ScrollBadRead : Prop :=
  ∀ (s : State) (row p d : Nat) (bs : List Byte), s.inSession → HoldsBytes s.mem p bs →
    (∀ b ∈ bs, b ≠ 0) → Memory.read s.mem (p + bs.length) = none →
    exec (.lcdScroll row p d) s = .next { s with fault := some (.badRead (p + bs.length)) }

/-- R233: the minimum blocking times of the LCD operations that return: the sums of the `wait_ms` arguments they emit. -/
def Obligations.MinimumBlockingTimes : Prop :=
  ∀ (s : State) (row column p d : Nat) (b : Byte) (bs : List Byte), s.inSession → s.shadow = some b →
    HoldsString s.mem p bs →
    (s.transportReturns (clearEvents s.cfg s.addr s.bl) →
      Completes .lcdClear s fun es => waitTotal es = 6 * s.cfg.tuMs + s.cfg.tClearMs) ∧
    (s.transportReturns (cursorEvents s.cfg s.addr s.bl row column) →
      Completes (.lcdCursor row column) s fun es => waitTotal es = 6 * s.cfg.tuMs) ∧
    (s.transportReturns (charsEvents s.cfg s.addr s.bl bs) →
      Completes (.lcdText p) s fun es => waitTotal es = 5 * s.cfg.tuMs * bs.length) ∧
    (s.transportReturns [.xmit s.addr [b ||| s.cfg.blMask]] → Completes .lcdBlon s fun es => waitTotal es = 0) ∧
    (s.transportReturns [.xmit s.addr [b &&& ~~~s.cfg.blMask]] → Completes .lcdBloff s fun es => waitTotal es = 0) ∧
    (s.transportReturns (wrapEvents s.cfg s.addr s.bl bs) → bs.length ≤ s.cfg.rows * s.cfg.cols →
      Completes (.lcdWrap p) s fun es =>
        waitTotal es = 6 * s.cfg.tuMs * ((bs.length + s.cfg.cols - 1) / s.cfg.cols) + 5 * s.cfg.tuMs * bs.length) ∧
    (s.transportReturns (scrollEvents s.cfg s.addr s.bl row d bs) → s.cfg.cols < bs.length →
      s.cfg.scrollTrailingDelay = false →
      Completes (.lcdScroll row p d) s fun es =>
        waitTotal es =
          (bs.length - s.cfg.cols + 1) * (6 + 5 * s.cfg.cols) * s.cfg.tuMs + (bs.length - s.cfg.cols) * d)

/-- The bus words' transfers, run on their own (log 11; R76, R77, R104, R105): each command word whose transactions return sends
the byte its class and fields spell, WRITE_DATA sends its byte as a character, any byte, and nothing else changes. -/
def Obligations.BusWordsComplete : Prop :=
  ∀ (s : State) (x y z : Bool) (dl n f : Bool) (ignored : BitVec 2) (a : BitVec 7) (b : Byte), s.inSession →
    (s.transportReturns (cmdEvents s.cfg s.addr s.bl 0x01) → exec .clearDisplay s = .next (s.wordSent 0x01 false)) ∧
    (∀ byte, byte = BitVec.ofNat 8 (0x04 + 2 * x.toNat + y.toNat) →
      s.transportReturns (cmdEvents s.cfg s.addr s.bl byte) →
      exec (.entryModeSet x y) s = .next (s.wordSent byte false)) ∧
    (∀ byte, byte = BitVec.ofNat 8 (0x08 + 4 * x.toNat + 2 * y.toNat + z.toNat) →
      s.transportReturns (cmdEvents s.cfg s.addr s.bl byte) →
      exec (.displayControl x y z) s = .next (s.wordSent byte false)) ∧
    (∀ byte, byte = BitVec.ofNat 8 (0x20 + 16 * dl.toNat + 8 * n.toNat + 4 * f.toNat + ignored.toNat) →
      s.transportReturns (cmdEvents s.cfg s.addr s.bl byte) →
      exec (.functionSet dl n f ignored) s = .next (s.wordSent byte false)) ∧
    (∀ byte, byte = BitVec.ofNat 8 (0x80 + a.toNat) → s.transportReturns (cmdEvents s.cfg s.addr s.bl byte) →
      exec (.setDdramAddress a) s = .next (s.wordSent byte false)) ∧
    (s.transportReturns (dataEvents s.cfg s.addr s.bl b) → exec (.writeData b) s = .next (s.wordSent b true))

/-- INIT_NIBBLE, run on its own (log 11), is one nibble transfer with RS = 0 (R81, R101), and changes nothing else. -/
def Obligations.InitNibbleCompletes : Prop :=
  ∀ (s : State) (n : Nibble), s.inSession →
    s.transportReturns (pulse s.cfg s.addr (frame s.cfg s.bl n false)) →
    exec (.initNibble n) s = .next
      { s with
        trace := s.trace ++ pulse s.cfg s.addr (frame s.cfg s.bl n false),
        shadow := some (frame s.cfg s.bl n false),
        replies := s.replies.drop (if s.cfg.presetWrite then 3 else 2),
        draws := s.draws + (if s.cfg.presetWrite then 3 else 2),
        pc := s.pc + 1 }

/-- `set_cursor` is the SET_DDRAM_ADDRESS word of its cell (R124, R77), a one-character text is the WRITE_DATA word (R126), and
`clear` is the CLEAR_DISPLAY word followed by its wait (R87, R123). That the words run as instructions of their own is the
model's choice (log 11), and so is that the CLEAR_DISPLAY word has no clear wait of its own (log 20). -/
def Obligations.HostOperationsAreWords : Prop :=
  ∀ (s : State) (row column p : Nat) (b : Byte), s.inSession →
    exec (.lcdCursor row column) s = exec (.setDdramAddress (BitVec.ofNat 7 (cellAddress s.cfg row column))) s ∧
    (HoldsString s.mem p [b] → exec (.lcdText p) s = exec (.writeData b) s) ∧
    (s.cfg.clearCmd = 0x01 →
      exec .lcdClear s =
        mapNext (fun t => if t.blocked then t else { t with trace := t.trace ++ [.waitMs s.cfg.tClearMs] })
          (exec .clearDisplay s))

/-- R112: from a completed `write_text` an HD44780 that latches on the falling enable edge receives exactly the string, as
RS = 1 words. The observer is informative, and the edge is the spec's general knowledge (log 23). -/
def Obligations.ObserverReceivesText : Prop :=
  ∀ (s : State) (p : Nat) (bs : List Byte), s.Inv → s.inSession →
    s.transportReturns (charsEvents s.cfg s.addr s.bl bs) → cleanWiring s.cfg = true →
    HoldsString s.mem p bs →
    Completes (.lcdText p) s fun es => pairUp (observed s.cfg s.shadow es) = bs.map fun b => 1#1 ++ b

/-- R112 and R130: from a completed `write_wrapped` the display receives, for each row written, its set-DDRAM command and then
its chunk (log 23). -/
def Obligations.ObserverReceivesWrap : Prop :=
  ∀ (s : State) (p : Nat) (bs : List Byte), s.Inv → s.inSession →
    s.transportReturns (wrapEvents s.cfg s.addr s.bl bs) → cleanWiring s.cfg = true →
    HoldsString s.mem p bs → bs.length ≤ s.cfg.rows * s.cfg.cols →
    Completes (.lcdWrap p) s fun es =>
      pairUp (observed s.cfg s.shadow es) =
        (List.range s.cfg.rows).flatMap fun r =>
          if chunk s.cfg bs r = [] then []
          else (0#1 ++ ddramCommand (cellAddress s.cfg r 0)) :: (chunk s.cfg bs r).map fun b => 1#1 ++ b

/-- R112 and R121: from a first `initialize` the display receives the handshake's lone nibbles with RS = 0, and after them the
four command words (log 23). -/
def Obligations.ObserverReceivesHandshake : Prop :=
  ∀ (s : State) (bus : BusHandle) (addr : Nat), s.live → s.inited = false → s.shadow = none →
    s.returnsOn bus (initEvents s.cfg addr) → cleanWiring s.cfg = true →
    Completes (.lcdInit bus addr) s fun es =>
      (observed s.cfg s.shadow es).take (loneNibbles s.cfg) =
        ([s.cfg.initNibbles.first, s.cfg.initNibbles.second, s.cfg.initNibbles.third] ++ s.cfg.modeNibble.toList).map
          (fun n => Latched.mk n false) ∧
      pairUp ((observed s.cfg s.shadow es).drop (loneNibbles s.cfg)) =
        [0#1 ++ s.cfg.functionSet, 0#1 ++ s.cfg.displayCtrl, 0#1 ++ s.cfg.clearCmd, 0#1 ++ s.cfg.entryMode]

/-! ### The LED channel -/

/-- R164: `LOOPS` is the floor of `ns × f / 10^9`, with R164's examples at 72 MHz and 16 MHz. -/
def Obligations.LoopsFormula : Prop :=
  (∀ (c : Cfg) (ns f : Nat), c.loopCounts = [] →
    loops c ns f * 1000000000 ≤ ns * f ∧ ns * f < (loops c ns f + 1) * 1000000000) ∧
  ∀ c : Cfg, c.loopCounts = [] →
    [400, 850, 800, 450, 300000].map (fun ns => loops c ns 72000000) = [28, 61, 57, 32, 21600] ∧
    [400, 850, 800, 450, 300000].map (fun ns => loops c ns 16000000) = [6, 13, 12, 7, 4800]

/-- R161: `send` emits its frame between the interrupt disable and restore, leaves the line low, `ie` as it was, and changes
nothing else; it needs no session and no transport. -/
def Obligations.SendCompletes : Prop :=
  ∀ (s : State) (p n : Nat) (bs : List Byte), s.live → HoldsBytes s.mem p bs → bs.length = 3 * n →
    exec (.ledSend p n) s = .next
      { s with
        trace := s.trace ++ ([.irqOff s.ie] ++ bufferEvents s.cfg bs
          ++ [.pin false, .spin s.cfg.tResetNs (loops s.cfg s.cfg.tResetNs s.cfg.coreHz)] ++ [.irqRestore s.ie]),
        pin := false, pc := s.pc + 1 }

/-- R166: `send` of no LED reads no byte and emits exactly the four events. -/
def Obligations.SendZero : Prop :=
  ∀ (s : State) (p : Nat), s.live →
    exec (.ledSend p 0) s = .next
      { s with
        trace := s.trace ++ [.irqOff s.ie, .pin false,
          .spin s.cfg.tResetNs (loops s.cfg s.cfg.tResetNs s.cfg.coreHz), .irqRestore s.ie],
        pin := false, pc := s.pc + 1 }

/-- R161 and R191: `send` that meets an unreadable byte has sent the bytes before it, and stops with interrupts off and the
line at its last level. -/
def Obligations.SendBadRead : Prop :=
  ∀ (s : State) (p n : Nat) (bs : List Byte), s.live → HoldsBytes s.mem p bs → bs.length < 3 * n →
    Memory.read s.mem (p + bs.length) = none →
    exec (.ledSend p n) s = .next
      { s with
        trace := s.trace ++ ([.irqOff s.ie] ++ bufferEvents s.cfg bs),
        pin := if bs = [] then s.pin else false, ie := false, fault := some (.badRead (p + bs.length)) }

/-- R167: events, pulses and nominal duration of a frame of `n` LEDs; 30 000·n + 300 000 ns under the defaults. -/
def Obligations.SendCounts : Prop :=
  ∀ (s : State) (p n : Nat) (bs : List Byte), s.live → HoldsBytes s.mem p bs → bs.length = 3 * n →
    Completes (.ledSend p n) s fun es =>
      es.length = 96 * n + 4 ∧ pulseCount es = 24 * n ∧ (es.take 1 = [.irqOff s.ie]) ∧
      (es.drop (96 * n + 1) =
        [.pin false, .spin s.cfg.tResetNs (loops s.cfg s.cfg.tResetNs s.cfg.coreHz), .irqRestore s.ie]) ∧
      spinTotal es = 24 * n * (s.cfg.t0hNs + s.cfg.t0lNs) + s.cfg.tResetNs ∧
      ∀ cols rows : Nat, s.cfg = defaultCfg cols rows → spinTotal es = 30000 * n + 300000

/-- R162: a bit symbol, run on its own (log 11), is four events, high then low, with the times of its value; nothing else changes. -/
def Obligations.BitSymbolsComplete : Prop :=
  ∀ s : State, s.live →
    exec .wsBit0 s = .next
      { s with
        trace := s.trace ++ [.pin true, .spin s.cfg.t0hNs (loops s.cfg s.cfg.t0hNs s.cfg.coreHz), .pin false,
          .spin s.cfg.t0lNs (loops s.cfg s.cfg.t0lNs s.cfg.coreHz)],
        pin := false, pc := s.pc + 1 } ∧
    exec .wsBit1 s = .next
      { s with
        trace := s.trace ++ [.pin true, .spin s.cfg.t1hNs (loops s.cfg s.cfg.t1hNs s.cfg.coreHz), .pin false,
          .spin s.cfg.t1lNs (loops s.cfg s.cfg.t1lNs s.cfg.coreHz)],
        pin := false, pc := s.pc + 1 }

/-- R163: the reset hold, run on its own (log 11), drives the line low and busy-waits; nothing else changes. -/
def Obligations.ResetHoldCompletes : Prop :=
  ∀ s : State, s.live →
    exec .wsReset s = .next
      { s with
        trace := s.trace ++ [.pin false, .spin s.cfg.tResetNs (loops s.cfg s.cfg.tResetNs s.cfg.coreHz)],
        pin := false, pc := s.pc + 1 }

/-- R55 and R83: the bits of a buffer can be read back from the events of `send`: byte `i`, bit 7 first, by the target of the
high phase of its symbol. -/
def Obligations.BufferReadsBack : Prop :=
  ∀ (s : State) (p n : Nat) (bs : List Byte), s.live → HoldsBytes s.mem p bs → bs.length = 3 * n →
    Completes (.ledSend p n) s fun es =>
      ∀ (i k : Nat), (h : i < bs.length) → k < 8 →
        es[32 * i + 4 * k + 1]? = some (.pin true) ∧
        ∃ m : Nat, es[32 * i + 4 * k + 2]? =
          some (.spin (if bs[i].getLsbD (7 - k) then s.cfg.t1hNs else s.cfg.t0hNs) m)
end

