-- ==== Sys2Proof/Laws/Memory.lean ====
section
/-! SUPPORT. Host memory: read after write, and every operation keeps the canonical form. -/

namespace Sys2Proof.Machine

/-- The canonical form of nothing listed. -/
@[simp] theorem Memory.wf_nil : Memory.wf [] = true := rfl

/-- A longer list is canonical when its head lies below a canonical tail. -/
theorem Memory.wf_cons (k : Nat) (v : Byte) (m : Memory) :
    Memory.wf ((k, v) :: m) = true ↔ Memory.above k m = true ∧ Memory.wf m = true := by
  simp [Memory.wf]

/-- What `above` says of each cell. -/
theorem Memory.above_iff (a : Nat) (m : Memory) : Memory.above a m = true ↔ ∀ c ∈ m, a < c.1 := by
  simp [Memory.above]

/-- An address below every listed one is unreadable. -/
theorem Memory.read_of_above {a : Nat} {m : Memory} (h : Memory.above a m = true) : Memory.read m a = none := by
  rw [Memory.above_iff] at h
  induction m with
  | nil => rfl
  | cons c rest ih =>
    obtain ⟨k, v⟩ := c
    have hk : a < k := h (k, v) (by simp)
    have : a ≠ k := by omega
    simp only [Memory.read, this, if_false]
    exact ih fun c hc => h c (by simp [hc])

/-- `above` looks down a chain. -/
theorem Memory.above_trans {a b : Nat} {m : Memory} (hab : a < b) (h : Memory.above b m = true) :
    Memory.above a m = true := by
  rw [Memory.above_iff] at *
  intro c hc
  exact lt_trans hab (h c hc)

/-- Read after write at the same address. -/
@[simp] theorem Memory.read_write_same (m : Memory) (a : Nat) (b : Byte) :
    Memory.read (Memory.write m a b) a = some b := by
  induction m with
  | nil => simp [Memory.write, Memory.read]
  | cons c rest ih =>
    obtain ⟨k, v⟩ := c
    simp only [Memory.write]
    split
    · simp [Memory.read]
    · split
      · simp [Memory.read]
      · rename_i _ hne
        simpa [Memory.read, hne] using ih

/-- Read after write at another address. -/
theorem Memory.read_write_other (m : Memory) {a a' : Nat} (b : Byte) (h : a' ≠ a) :
    Memory.read (Memory.write m a b) a' = Memory.read m a' := by
  induction m with
  | nil => simp [Memory.write, Memory.read, h]
  | cons c rest ih =>
    obtain ⟨k, v⟩ := c
    simp only [Memory.write]
    split
    · simp [Memory.read, h]
    · split
      · rename_i _ heq
        subst heq
        simp [Memory.read, h]
      · simp only [Memory.read, ih]

/-- A write below a bound keeps everything above it. -/
theorem Memory.above_write {k a : Nat} {m : Memory} (b : Byte) (ha : k < a) (h : Memory.above k m = true) :
    Memory.above k (Memory.write m a b) = true := by
  induction m with
  | nil => simp [Memory.write, Memory.above, ha]
  | cons c rest ih =>
    obtain ⟨k', v⟩ := c
    rw [Memory.above_iff] at h
    have hk' : k < k' := h (k', v) (by simp)
    have hrest : Memory.above k rest = true := by
      rw [Memory.above_iff]
      exact fun c hc => h c (by simp [hc])
    simp only [Memory.write]
    split
    · simp only [Memory.above_iff, List.mem_cons, forall_eq_or_imp]
      exact ⟨ha, hk', (Memory.above_iff k rest).mp hrest⟩
    · split
      · simp only [Memory.above_iff, List.mem_cons, forall_eq_or_imp]
        exact ⟨ha, (Memory.above_iff k rest).mp hrest⟩
      · simp only [Memory.above_iff, List.mem_cons, forall_eq_or_imp]
        exact ⟨hk', (Memory.above_iff k _).mp (ih hrest)⟩

/-- A write keeps the canonical form. -/
theorem Memory.wf_write {m : Memory} (a : Nat) (b : Byte) (h : Memory.wf m = true) :
    Memory.wf (Memory.write m a b) = true := by
  induction m with
  | nil => simp [Memory.write, Memory.wf, Memory.above]
  | cons c rest ih =>
    obtain ⟨k, v⟩ := c
    obtain ⟨hk, hrest⟩ := (Memory.wf_cons k v rest).mp h
    simp only [Memory.write]
    split
    · rename_i hlt
      refine (Memory.wf_cons a b _).mpr ⟨?_, h⟩
      simp only [Memory.above_iff, List.mem_cons, forall_eq_or_imp]
      exact ⟨hlt, (Memory.above_iff a rest).mp (Memory.above_trans hlt hk)⟩
    · split
      · rename_i _ heq
        subst heq
        exact (Memory.wf_cons a b _).mpr ⟨hk, hrest⟩
      · exact (Memory.wf_cons k v _).mpr ⟨Memory.above_write b (by omega) hk, ih hrest⟩

/-- Taking a byte away keeps a bound. -/
theorem Memory.above_erase {k : Nat} (a : Nat) {m : Memory} (h : Memory.above k m = true) :
    Memory.above k (Memory.erase m a) = true := by
  induction m with
  | nil => rfl
  | cons c rest ih =>
    obtain ⟨k', v⟩ := c
    rw [Memory.above_iff] at h
    have hrest : Memory.above k rest = true := by
      rw [Memory.above_iff]
      exact fun c hc => h c (by simp [hc])
    simp only [Memory.erase]
    split
    · exact hrest
    · simp only [Memory.above_iff, List.mem_cons, forall_eq_or_imp]
      exact ⟨h (k', v) (by simp), (Memory.above_iff k _).mp (ih hrest)⟩

/-- Taking a byte away keeps the canonical form. -/
theorem Memory.wf_erase {m : Memory} (a : Nat) (h : Memory.wf m = true) : Memory.wf (Memory.erase m a) = true := by
  induction m with
  | nil => rfl
  | cons c rest ih =>
    obtain ⟨k, v⟩ := c
    obtain ⟨hk, hrest⟩ := (Memory.wf_cons k v rest).mp h
    simp only [Memory.erase]
    split
    · exact hrest
    · exact (Memory.wf_cons k v _).mpr ⟨Memory.above_erase a hk, ih hrest⟩

/-- An erased byte is unreadable. -/
theorem Memory.read_erase_same {m : Memory} (a : Nat) (h : Memory.wf m = true) :
    Memory.read (Memory.erase m a) a = none := by
  induction m with
  | nil => rfl
  | cons c rest ih =>
    obtain ⟨k, v⟩ := c
    obtain ⟨hk, hrest⟩ := (Memory.wf_cons k v rest).mp h
    simp only [Memory.erase]
    split
    · rename_i heq
      subst heq
      exact Memory.read_of_above hk
    · rename_i hne
      simpa [Memory.read, hne] using ih hrest

/-- Erasing a byte leaves every other address alone. -/
theorem Memory.read_erase_other (m : Memory) {a a' : Nat} (h : a' ≠ a) :
    Memory.read (Memory.erase m a) a' = Memory.read m a' := by
  induction m with
  | nil => rfl
  | cons c rest ih =>
    obtain ⟨k, v⟩ := c
    simp only [Memory.erase]
    split
    · rename_i heq
      subst heq
      simp [Memory.read, h]
    · simp only [Memory.read, ih]

/-- Placing a buffer keeps the canonical form. -/
theorem Memory.wf_writeList (bs : List Byte) {m : Memory} (a : Nat) (h : Memory.wf m = true) :
    Memory.wf (Memory.writeList m a bs) = true := by
  induction bs generalizing m a with
  | nil => exact h
  | cons b bs ih => exact ih (a + 1) (Memory.wf_write a b h)

/-- A readable address is listed. -/
theorem Memory.mem_keys_of_read {m : Memory} {a : Nat} {b : Byte} (h : Memory.read m a = some b) :
    a ∈ m.map Prod.fst := by
  induction m with
  | nil => simp [Memory.read] at h
  | cons c rest ih =>
    obtain ⟨k, v⟩ := c
    simp only [Memory.read] at h
    split at h
    · rename_i heq
      simp [heq]
    · simp [ih h]

/-- A run of readable bytes is no longer than the list of cells: `stringFuel` never runs out (log 14). -/
theorem Memory.run_le_length {m : Memory} {p n : Nat} (h : ∀ i < n, (Memory.read m (p + i)).isSome = true) :
    n ≤ m.length := by
  have hsub : (List.range n).map (p + ·) ⊆ m.map Prod.fst := by
    intro x hx
    obtain ⟨i, hi, rfl⟩ := List.mem_map.mp hx
    obtain ⟨b, hb⟩ := Option.isSome_iff_exists.mp (h i (List.mem_range.mp hi))
    exact Memory.mem_keys_of_read hb
  have hnodup : ((List.range n).map (p + ·)).Nodup :=
    (List.nodup_range).map fun a b hab => by simpa using hab
  have := (hnodup.subperm hsub).length_le
  simpa using this

end Sys2Proof.Machine
end

