-- ==== Sys2Proof/Laws/State.lean ====
section
/-! SUPPORT. What each update of the state does to each field: one lemma for each pair, true by rfl. -/

namespace Sys2Proof.Machine

variable (s : State)

/-! ### `State.emit` -/

@[simp] theorem State.emit_cfg (e : Event) : (s.emit e).cfg = s.cfg := rfl
@[simp] theorem State.emit_inited (e : Event) : (s.emit e).inited = s.inited := rfl
@[simp] theorem State.emit_bus (e : Event) : (s.emit e).bus = s.bus := rfl
@[simp] theorem State.emit_addr (e : Event) : (s.emit e).addr = s.addr := rfl
@[simp] theorem State.emit_bl (e : Event) : (s.emit e).bl = s.bl := rfl
@[simp] theorem State.emit_shadow (e : Event) : (s.emit e).shadow = s.shadow := rfl
@[simp] theorem State.emit_pin (e : Event) : (s.emit e).pin = s.pin := rfl
@[simp] theorem State.emit_ie (e : Event) : (s.emit e).ie = s.ie := rfl
@[simp] theorem State.emit_fault (e : Event) : (s.emit e).fault = s.fault := rfl
@[simp] theorem State.emit_trace (e : Event) : (s.emit e).trace = s.trace ++ [e] := rfl
@[simp] theorem State.emit_pc (e : Event) : (s.emit e).pc = s.pc := rfl
@[simp] theorem State.emit_program (e : Event) : (s.emit e).program = s.program := rfl
@[simp] theorem State.emit_mem (e : Event) : (s.emit e).mem = s.mem := rfl
@[simp] theorem State.emit_replies (e : Event) : (s.emit e).replies = s.replies := rfl
@[simp] theorem State.emit_draws (e : Event) : (s.emit e).draws = s.draws := rfl
@[simp] theorem State.emit_blocked (e : Event) : (s.emit e).blocked = s.blocked := rfl

/-! ### `State.drawReply` -/

@[simp] theorem State.drawReply_cfg : s.drawReply.cfg = s.cfg := rfl
@[simp] theorem State.drawReply_inited : s.drawReply.inited = s.inited := rfl
@[simp] theorem State.drawReply_bus : s.drawReply.bus = s.bus := rfl
@[simp] theorem State.drawReply_addr : s.drawReply.addr = s.addr := rfl
@[simp] theorem State.drawReply_bl : s.drawReply.bl = s.bl := rfl
@[simp] theorem State.drawReply_shadow : s.drawReply.shadow = s.shadow := rfl
@[simp] theorem State.drawReply_pin : s.drawReply.pin = s.pin := rfl
@[simp] theorem State.drawReply_ie : s.drawReply.ie = s.ie := rfl
@[simp] theorem State.drawReply_fault : s.drawReply.fault = s.fault := rfl
@[simp] theorem State.drawReply_trace : s.drawReply.trace = s.trace := rfl
@[simp] theorem State.drawReply_pc : s.drawReply.pc = s.pc := rfl
@[simp] theorem State.drawReply_program : s.drawReply.program = s.program := rfl
@[simp] theorem State.drawReply_mem : s.drawReply.mem = s.mem := rfl
@[simp] theorem State.drawReply_replies : s.drawReply.replies = s.replies.tail := rfl
@[simp] theorem State.drawReply_draws : s.drawReply.draws = s.draws + 1 := rfl
@[simp] theorem State.drawReply_blocked : s.drawReply.blocked = s.blocked := rfl

/-! ### `State.setShadow` -/

@[simp] theorem State.setShadow_cfg (b : Byte) : (s.setShadow b).cfg = s.cfg := rfl
@[simp] theorem State.setShadow_inited (b : Byte) : (s.setShadow b).inited = s.inited := rfl
@[simp] theorem State.setShadow_bus (b : Byte) : (s.setShadow b).bus = s.bus := rfl
@[simp] theorem State.setShadow_addr (b : Byte) : (s.setShadow b).addr = s.addr := rfl
@[simp] theorem State.setShadow_bl (b : Byte) : (s.setShadow b).bl = s.bl := rfl
@[simp] theorem State.setShadow_shadow (b : Byte) : (s.setShadow b).shadow = some b := rfl
@[simp] theorem State.setShadow_pin (b : Byte) : (s.setShadow b).pin = s.pin := rfl
@[simp] theorem State.setShadow_ie (b : Byte) : (s.setShadow b).ie = s.ie := rfl
@[simp] theorem State.setShadow_fault (b : Byte) : (s.setShadow b).fault = s.fault := rfl
@[simp] theorem State.setShadow_trace (b : Byte) : (s.setShadow b).trace = s.trace := rfl
@[simp] theorem State.setShadow_pc (b : Byte) : (s.setShadow b).pc = s.pc := rfl
@[simp] theorem State.setShadow_program (b : Byte) : (s.setShadow b).program = s.program := rfl
@[simp] theorem State.setShadow_mem (b : Byte) : (s.setShadow b).mem = s.mem := rfl
@[simp] theorem State.setShadow_replies (b : Byte) : (s.setShadow b).replies = s.replies := rfl
@[simp] theorem State.setShadow_draws (b : Byte) : (s.setShadow b).draws = s.draws := rfl
@[simp] theorem State.setShadow_blocked (b : Byte) : (s.setShadow b).blocked = s.blocked := rfl

/-! ### `State.setBl` -/

@[simp] theorem State.setBl_cfg (v : Bool) : (s.setBl v).cfg = s.cfg := rfl
@[simp] theorem State.setBl_inited (v : Bool) : (s.setBl v).inited = s.inited := rfl
@[simp] theorem State.setBl_bus (v : Bool) : (s.setBl v).bus = s.bus := rfl
@[simp] theorem State.setBl_addr (v : Bool) : (s.setBl v).addr = s.addr := rfl
@[simp] theorem State.setBl_bl (v : Bool) : (s.setBl v).bl = v := rfl
@[simp] theorem State.setBl_shadow (v : Bool) : (s.setBl v).shadow = s.shadow := rfl
@[simp] theorem State.setBl_pin (v : Bool) : (s.setBl v).pin = s.pin := rfl
@[simp] theorem State.setBl_ie (v : Bool) : (s.setBl v).ie = s.ie := rfl
@[simp] theorem State.setBl_fault (v : Bool) : (s.setBl v).fault = s.fault := rfl
@[simp] theorem State.setBl_trace (v : Bool) : (s.setBl v).trace = s.trace := rfl
@[simp] theorem State.setBl_pc (v : Bool) : (s.setBl v).pc = s.pc := rfl
@[simp] theorem State.setBl_program (v : Bool) : (s.setBl v).program = s.program := rfl
@[simp] theorem State.setBl_mem (v : Bool) : (s.setBl v).mem = s.mem := rfl
@[simp] theorem State.setBl_replies (v : Bool) : (s.setBl v).replies = s.replies := rfl
@[simp] theorem State.setBl_draws (v : Bool) : (s.setBl v).draws = s.draws := rfl
@[simp] theorem State.setBl_blocked (v : Bool) : (s.setBl v).blocked = s.blocked := rfl

/-! ### `State.setPin` -/

@[simp] theorem State.setPin_cfg (v : Bool) : (s.setPin v).cfg = s.cfg := rfl
@[simp] theorem State.setPin_inited (v : Bool) : (s.setPin v).inited = s.inited := rfl
@[simp] theorem State.setPin_bus (v : Bool) : (s.setPin v).bus = s.bus := rfl
@[simp] theorem State.setPin_addr (v : Bool) : (s.setPin v).addr = s.addr := rfl
@[simp] theorem State.setPin_bl (v : Bool) : (s.setPin v).bl = s.bl := rfl
@[simp] theorem State.setPin_shadow (v : Bool) : (s.setPin v).shadow = s.shadow := rfl
@[simp] theorem State.setPin_pin (v : Bool) : (s.setPin v).pin = v := rfl
@[simp] theorem State.setPin_ie (v : Bool) : (s.setPin v).ie = s.ie := rfl
@[simp] theorem State.setPin_fault (v : Bool) : (s.setPin v).fault = s.fault := rfl
@[simp] theorem State.setPin_trace (v : Bool) : (s.setPin v).trace = s.trace := rfl
@[simp] theorem State.setPin_pc (v : Bool) : (s.setPin v).pc = s.pc := rfl
@[simp] theorem State.setPin_program (v : Bool) : (s.setPin v).program = s.program := rfl
@[simp] theorem State.setPin_mem (v : Bool) : (s.setPin v).mem = s.mem := rfl
@[simp] theorem State.setPin_replies (v : Bool) : (s.setPin v).replies = s.replies := rfl
@[simp] theorem State.setPin_draws (v : Bool) : (s.setPin v).draws = s.draws := rfl
@[simp] theorem State.setPin_blocked (v : Bool) : (s.setPin v).blocked = s.blocked := rfl

/-! ### `State.setIe` -/

@[simp] theorem State.setIe_cfg (v : Bool) : (s.setIe v).cfg = s.cfg := rfl
@[simp] theorem State.setIe_inited (v : Bool) : (s.setIe v).inited = s.inited := rfl
@[simp] theorem State.setIe_bus (v : Bool) : (s.setIe v).bus = s.bus := rfl
@[simp] theorem State.setIe_addr (v : Bool) : (s.setIe v).addr = s.addr := rfl
@[simp] theorem State.setIe_bl (v : Bool) : (s.setIe v).bl = s.bl := rfl
@[simp] theorem State.setIe_shadow (v : Bool) : (s.setIe v).shadow = s.shadow := rfl
@[simp] theorem State.setIe_pin (v : Bool) : (s.setIe v).pin = s.pin := rfl
@[simp] theorem State.setIe_ie (v : Bool) : (s.setIe v).ie = v := rfl
@[simp] theorem State.setIe_fault (v : Bool) : (s.setIe v).fault = s.fault := rfl
@[simp] theorem State.setIe_trace (v : Bool) : (s.setIe v).trace = s.trace := rfl
@[simp] theorem State.setIe_pc (v : Bool) : (s.setIe v).pc = s.pc := rfl
@[simp] theorem State.setIe_program (v : Bool) : (s.setIe v).program = s.program := rfl
@[simp] theorem State.setIe_mem (v : Bool) : (s.setIe v).mem = s.mem := rfl
@[simp] theorem State.setIe_replies (v : Bool) : (s.setIe v).replies = s.replies := rfl
@[simp] theorem State.setIe_draws (v : Bool) : (s.setIe v).draws = s.draws := rfl
@[simp] theorem State.setIe_blocked (v : Bool) : (s.setIe v).blocked = s.blocked := rfl

/-! ### `State.openSession` -/

@[simp] theorem State.openSession_cfg (b : BusHandle) (a : Nat) : (s.openSession b a).cfg = s.cfg := rfl
@[simp] theorem State.openSession_inited (b : BusHandle) (a : Nat) : (s.openSession b a).inited = true := rfl
@[simp] theorem State.openSession_bus (b : BusHandle) (a : Nat) : (s.openSession b a).bus = b := rfl
@[simp] theorem State.openSession_addr (b : BusHandle) (a : Nat) : (s.openSession b a).addr = a := rfl
@[simp] theorem State.openSession_bl (b : BusHandle) (a : Nat) : (s.openSession b a).bl = s.cfg.blInit := rfl
@[simp] theorem State.openSession_shadow (b : BusHandle) (a : Nat) : (s.openSession b a).shadow = s.shadow := rfl
@[simp] theorem State.openSession_pin (b : BusHandle) (a : Nat) : (s.openSession b a).pin = s.pin := rfl
@[simp] theorem State.openSession_ie (b : BusHandle) (a : Nat) : (s.openSession b a).ie = s.ie := rfl
@[simp] theorem State.openSession_fault (b : BusHandle) (a : Nat) : (s.openSession b a).fault = s.fault := rfl
@[simp] theorem State.openSession_trace (b : BusHandle) (a : Nat) : (s.openSession b a).trace = s.trace := rfl
@[simp] theorem State.openSession_pc (b : BusHandle) (a : Nat) : (s.openSession b a).pc = s.pc := rfl
@[simp] theorem State.openSession_program (b : BusHandle) (a : Nat) : (s.openSession b a).program = s.program := rfl
@[simp] theorem State.openSession_mem (b : BusHandle) (a : Nat) : (s.openSession b a).mem = s.mem := rfl
@[simp] theorem State.openSession_replies (b : BusHandle) (a : Nat) : (s.openSession b a).replies = s.replies := rfl
@[simp] theorem State.openSession_draws (b : BusHandle) (a : Nat) : (s.openSession b a).draws = s.draws := rfl
@[simp] theorem State.openSession_blocked (b : BusHandle) (a : Nat) : (s.openSession b a).blocked = s.blocked := rfl

/-! ### `State.recordFault` -/

@[simp] theorem State.recordFault_cfg (f : Fault) : (s.recordFault f).cfg = s.cfg := rfl
@[simp] theorem State.recordFault_inited (f : Fault) : (s.recordFault f).inited = s.inited := rfl
@[simp] theorem State.recordFault_bus (f : Fault) : (s.recordFault f).bus = s.bus := rfl
@[simp] theorem State.recordFault_addr (f : Fault) : (s.recordFault f).addr = s.addr := rfl
@[simp] theorem State.recordFault_bl (f : Fault) : (s.recordFault f).bl = s.bl := rfl
@[simp] theorem State.recordFault_shadow (f : Fault) : (s.recordFault f).shadow = s.shadow := rfl
@[simp] theorem State.recordFault_pin (f : Fault) : (s.recordFault f).pin = s.pin := rfl
@[simp] theorem State.recordFault_ie (f : Fault) : (s.recordFault f).ie = s.ie := rfl
@[simp] theorem State.recordFault_fault (f : Fault) : (s.recordFault f).fault = some f := rfl
@[simp] theorem State.recordFault_trace (f : Fault) : (s.recordFault f).trace = s.trace := rfl
@[simp] theorem State.recordFault_pc (f : Fault) : (s.recordFault f).pc = s.pc := rfl
@[simp] theorem State.recordFault_program (f : Fault) : (s.recordFault f).program = s.program := rfl
@[simp] theorem State.recordFault_mem (f : Fault) : (s.recordFault f).mem = s.mem := rfl
@[simp] theorem State.recordFault_replies (f : Fault) : (s.recordFault f).replies = s.replies := rfl
@[simp] theorem State.recordFault_draws (f : Fault) : (s.recordFault f).draws = s.draws := rfl
@[simp] theorem State.recordFault_blocked (f : Fault) : (s.recordFault f).blocked = s.blocked := rfl

/-! ### `State.block` -/

@[simp] theorem State.block_cfg : s.block.cfg = s.cfg := rfl
@[simp] theorem State.block_inited : s.block.inited = s.inited := rfl
@[simp] theorem State.block_bus : s.block.bus = s.bus := rfl
@[simp] theorem State.block_addr : s.block.addr = s.addr := rfl
@[simp] theorem State.block_bl : s.block.bl = s.bl := rfl
@[simp] theorem State.block_shadow : s.block.shadow = s.shadow := rfl
@[simp] theorem State.block_pin : s.block.pin = s.pin := rfl
@[simp] theorem State.block_ie : s.block.ie = s.ie := rfl
@[simp] theorem State.block_fault : s.block.fault = s.fault := rfl
@[simp] theorem State.block_trace : s.block.trace = s.trace := rfl
@[simp] theorem State.block_pc : s.block.pc = s.pc := rfl
@[simp] theorem State.block_program : s.block.program = s.program := rfl
@[simp] theorem State.block_mem : s.block.mem = s.mem := rfl
@[simp] theorem State.block_replies : s.block.replies = s.replies := rfl
@[simp] theorem State.block_draws : s.block.draws = s.draws := rfl
@[simp] theorem State.block_blocked : s.block.blocked = true := rfl

/-! ### `State.advance` -/

@[simp] theorem State.advance_cfg : s.advance.cfg = s.cfg := rfl
@[simp] theorem State.advance_inited : s.advance.inited = s.inited := rfl
@[simp] theorem State.advance_bus : s.advance.bus = s.bus := rfl
@[simp] theorem State.advance_addr : s.advance.addr = s.addr := rfl
@[simp] theorem State.advance_bl : s.advance.bl = s.bl := rfl
@[simp] theorem State.advance_shadow : s.advance.shadow = s.shadow := rfl
@[simp] theorem State.advance_pin : s.advance.pin = s.pin := rfl
@[simp] theorem State.advance_ie : s.advance.ie = s.ie := rfl
@[simp] theorem State.advance_fault : s.advance.fault = s.fault := rfl
@[simp] theorem State.advance_trace : s.advance.trace = s.trace := rfl
@[simp] theorem State.advance_pc : s.advance.pc = s.pc + 1 := rfl
@[simp] theorem State.advance_program : s.advance.program = s.program := rfl
@[simp] theorem State.advance_mem : s.advance.mem = s.mem := rfl
@[simp] theorem State.advance_replies : s.advance.replies = s.replies := rfl
@[simp] theorem State.advance_draws : s.advance.draws = s.draws := rfl
@[simp] theorem State.advance_blocked : s.advance.blocked = s.blocked := rfl

/-- The reply of the transport does not depend on the trace. -/
@[simp] theorem State.emit_nextReply (e : Event) (bus : BusHandle) (a : Nat) (bytes : List Byte) :
    (s.emit e).nextReply bus a bytes = s.nextReply bus a bytes := rfl

end Sys2Proof.Machine
end

