-- ==== Sys2Proof/Laws/Play.lean ====
section
/-! SUPPORT. A handier form of the emitting procedures: `play` runs a plain list of events against the transport. Each LCD
procedure equals `play` of its event list (Laws/Transfer.lean, Laws/Lcd.lean), and `play` has one inversion lemma: it
returns with the whole list played, or hangs in the first transaction whose reply is `never`. -/

namespace Sys2Proof.Machine

/-- The state after an event that returned. -/
def State.absorb (s : State) : Event → State
  | .xmit a bytes =>
    { s with trace := s.trace ++ [.xmit a bytes], replies := s.replies.tail, draws := s.draws + 1,
             shadow := lastWritten s.shadow [.xmit a bytes] }
  | .waitMs n => s.emit (.waitMs n)
  | .pin v => (s.emit (.pin v)).setPin v
  | .spin ns n => s.emit (.spin ns n)
  | .irqOff v => (s.emit (.irqOff v)).setIe false
  | .irqRestore v => (s.emit (.irqRestore v)).setIe v

/-- The state after a list of events that all returned. -/
def State.absorbAll (s : State) : List Event → State
  | [] => s
  | e :: es => (s.absorb e).absorbAll es

/-- One event. -/
def perform (e : Event) : Proc Unit := fun s =>
  match e with
  | .xmit a bytes =>
    match s.nextReply s.bus a bytes with
    | .returned _ => .ok () (s.absorb e)
    | .never => .error .hung (s.emit e).drawReply.block
  | _ => .ok () (s.absorb e)

/-- A list of events. -/
def play : List Event → Proc Unit
  | [] => pure ()
  | e :: es => do
    perform e
    play es

/-! ### Procedures -/

/-- A line that answered: the rest goes on from its state. -/
theorem bind_ok {α β : Type} {x : Proc α} {f : α → Proc β} {s t : State} {a : α} (h : x.run s = .ok a t) :
    (x >>= f).run s = (f a).run t := by
  rw [EStateM.run_bind, h]

/-- A line that stopped: so does the procedure. -/
theorem bind_error {α β : Type} {x : Proc α} {f : α → Proc β} {s t : State} {e : Stop} (h : x.run s = .error e t) :
    (x >>= f).run s = .error e t := by
  rw [EStateM.run_bind, h]

/-- What a two-line procedure can do. -/
theorem bind_cases {α β : Type} (x : Proc α) (f : α → Proc β) (s : State) :
    (∃ a t, x.run s = .ok a t ∧ (x >>= f).run s = (f a).run t) ∨
      (∃ e t, x.run s = .error e t ∧ (x >>= f).run s = .error e t) := by
  cases h : x.run s with
  | ok a t => exact .inl ⟨a, t, rfl, bind_ok h⟩
  | error e t => exact .inr ⟨e, t, rfl, bind_error h⟩

@[simp] theorem get_bind {β : Type} (f : State → Proc β) (s : State) : (get >>= f : Proc β).run s = (f s).run s := rfl

@[simp] theorem modify_bind {β : Type} (g : State → State) (f : Unit → Proc β) (s : State) :
    ((modify g : Proc Unit) >>= f : Proc β).run s = (f ()).run (g s) := rfl

@[simp] theorem modify_run (g : State → State) (s : State) : (modify g : Proc Unit).run s = .ok () (g s) := rfl

@[simp] theorem theCfg_bind {β : Type} (f : Cfg → Proc β) (s : State) :
    (theCfg >>= f : Proc β).run s = (f s.cfg).run s := rfl

@[simp] theorem stringFuel_bind {β : Type} (f : Nat → Proc β) (s : State) :
    (stringFuel >>= f : Proc β).run s = (f (s.mem.length + 1)).run s := rfl

@[simp] theorem pure_run {α : Type} (a : α) (s : State) : (pure a : Proc α).run s = .ok a s := rfl

/-- The lines of a procedure, grouped the other way. -/
theorem bind_assoc_run {α β γ : Type} (x : Proc α) (f : α → Proc β) (g : β → Proc γ) (s : State) :
    ((x >>= f) >>= g).run s = (x >>= fun a => f a >>= g).run s := by
  rw [bind_assoc]

/-- A readable byte is read, and nothing changes. -/
theorem memRead_some {a : Nat} {b : Byte} {s : State} (h : Memory.read s.mem a = some b) :
    (memRead a).run s = .ok b s := by
  simp only [memRead, EStateM.run, h]

/-- An unreadable byte raises `BadRead` (R191). -/
theorem memRead_none {a : Nat} {s : State} (h : Memory.read s.mem a = none) :
    (memRead a).run s = .error .raised (s.recordFault (.badRead a)) := by
  simp only [memRead, EStateM.run, h]

@[simp] theorem raise_run {α : Type} (f : Fault) (s : State) :
    (raise f : Proc α).run s = .error .raised (s.recordFault f) := rfl

@[simp] theorem wait_run (n : Nat) (s : State) : (wait n).run s = .ok () (s.emit (.waitMs n)) := rfl

/-! ### Fields after a list of events -/

@[simp] theorem absorb_cfg (s : State) (e : Event) : (s.absorb e).cfg = s.cfg := by cases e <;> rfl
@[simp] theorem absorb_inited (s : State) (e : Event) : (s.absorb e).inited = s.inited := by cases e <;> rfl
@[simp] theorem absorb_bus (s : State) (e : Event) : (s.absorb e).bus = s.bus := by cases e <;> rfl
@[simp] theorem absorb_addr (s : State) (e : Event) : (s.absorb e).addr = s.addr := by cases e <;> rfl
@[simp] theorem absorb_bl (s : State) (e : Event) : (s.absorb e).bl = s.bl := by cases e <;> rfl
@[simp] theorem absorb_fault (s : State) (e : Event) : (s.absorb e).fault = s.fault := by cases e <;> rfl
@[simp] theorem absorb_trace (s : State) (e : Event) : (s.absorb e).trace = s.trace ++ [e] := by cases e <;> rfl
@[simp] theorem absorb_pc (s : State) (e : Event) : (s.absorb e).pc = s.pc := by cases e <;> rfl
@[simp] theorem absorb_program (s : State) (e : Event) : (s.absorb e).program = s.program := by cases e <;> rfl
@[simp] theorem absorb_mem (s : State) (e : Event) : (s.absorb e).mem = s.mem := by cases e <;> rfl
@[simp] theorem absorb_blocked (s : State) (e : Event) : (s.absorb e).blocked = s.blocked := by cases e <;> rfl

@[simp] theorem absorbAll_nil (s : State) : s.absorbAll [] = s := rfl

theorem absorbAll_append (s : State) (es fs : List Event) :
    s.absorbAll (es ++ fs) = (s.absorbAll es).absorbAll fs := by
  induction es generalizing s with
  | nil => rfl
  | cons e es ih => exact ih (s.absorb e)

@[simp] theorem absorbAll_cfg (s : State) (es : List Event) : (s.absorbAll es).cfg = s.cfg := by
  induction es generalizing s with
  | nil => rfl
  | cons e es ih => simp [State.absorbAll, ih]

@[simp] theorem absorbAll_inited (s : State) (es : List Event) : (s.absorbAll es).inited = s.inited := by
  induction es generalizing s with
  | nil => rfl
  | cons e es ih => simp [State.absorbAll, ih]

@[simp] theorem absorbAll_bus (s : State) (es : List Event) : (s.absorbAll es).bus = s.bus := by
  induction es generalizing s with
  | nil => rfl
  | cons e es ih => simp [State.absorbAll, ih]

@[simp] theorem absorbAll_addr (s : State) (es : List Event) : (s.absorbAll es).addr = s.addr := by
  induction es generalizing s with
  | nil => rfl
  | cons e es ih => simp [State.absorbAll, ih]

@[simp] theorem absorbAll_bl (s : State) (es : List Event) : (s.absorbAll es).bl = s.bl := by
  induction es generalizing s with
  | nil => rfl
  | cons e es ih => simp [State.absorbAll, ih]

@[simp] theorem absorbAll_fault (s : State) (es : List Event) : (s.absorbAll es).fault = s.fault := by
  induction es generalizing s with
  | nil => rfl
  | cons e es ih => simp [State.absorbAll, ih]

@[simp] theorem absorbAll_trace (s : State) (es : List Event) : (s.absorbAll es).trace = s.trace ++ es := by
  induction es generalizing s with
  | nil => simp
  | cons e es ih => simp [State.absorbAll, ih]

@[simp] theorem absorbAll_pc (s : State) (es : List Event) : (s.absorbAll es).pc = s.pc := by
  induction es generalizing s with
  | nil => rfl
  | cons e es ih => simp [State.absorbAll, ih]

@[simp] theorem absorbAll_program (s : State) (es : List Event) : (s.absorbAll es).program = s.program := by
  induction es generalizing s with
  | nil => rfl
  | cons e es ih => simp [State.absorbAll, ih]

@[simp] theorem absorbAll_mem (s : State) (es : List Event) : (s.absorbAll es).mem = s.mem := by
  induction es generalizing s with
  | nil => rfl
  | cons e es ih => simp [State.absorbAll, ih]

@[simp] theorem absorbAll_blocked (s : State) (es : List Event) : (s.absorbAll es).blocked = s.blocked := by
  induction es generalizing s with
  | nil => rfl
  | cons e es ih => simp [State.absorbAll, ih]

/-- The bytes written by a longer list. -/
theorem writtenBytes_append (es fs : List Event) : writtenBytes (es ++ fs) = writtenBytes es ++ writtenBytes fs := by
  induction es with
  | nil => rfl
  | cons e es ih => cases e <;> simp [writtenBytes, ih]

/-- The last byte written by a longer list. -/
theorem lastWritten_append (b : Option Byte) (es fs : List Event) :
    lastWritten b (es ++ fs) = lastWritten (lastWritten b es) fs := by
  simp only [lastWritten, writtenBytes_append, List.getLast?_append]
  cases (writtenBytes fs).getLast? <;> cases (writtenBytes es).getLast? <;> rfl

theorem lastWritten_cons (b : Option Byte) (e : Event) (es : List Event) :
    lastWritten b (e :: es) = lastWritten (lastWritten b [e]) es := lastWritten_append b [e] es

@[simp] theorem lastWritten_nil (b : Option Byte) : lastWritten b [] = b := rfl

theorem absorb_shadow (s : State) (e : Event) : (s.absorb e).shadow = lastWritten s.shadow [e] := by cases e <;> rfl

/-- The shadow is the last byte written (R28). -/
@[simp] theorem absorbAll_shadow (s : State) (es : List Event) :
    (s.absorbAll es).shadow = lastWritten s.shadow es := by
  induction es generalizing s with
  | nil => rfl
  | cons e es ih => rw [State.absorbAll, ih, absorb_shadow, ← lastWritten_cons]

theorem xmitCount_append (es fs : List Event) : xmitCount (es ++ fs) = xmitCount es + xmitCount fs := by
  induction es with
  | nil => simp [xmitCount]
  | cons e es ih => cases e <;> simp [xmitCount, ih, Nat.add_right_comm]

theorem waitArgs_append (es fs : List Event) : waitArgs (es ++ fs) = waitArgs es ++ waitArgs fs := by
  induction es with
  | nil => rfl
  | cons e es ih => cases e <;> simp [waitArgs, ih]

theorem waitTotal_append (es fs : List Event) : waitTotal (es ++ fs) = waitTotal es + waitTotal fs := by
  simp [waitTotal, waitArgs_append]

theorem pulseCount_append (es fs : List Event) : pulseCount (es ++ fs) = pulseCount es + pulseCount fs := by
  induction es with
  | nil => simp [pulseCount]
  | cons e es ih => cases e <;> simp [pulseCount, ih, Nat.add_comm, Nat.add_left_comm]

theorem spinTotal_append (es fs : List Event) : spinTotal (es ++ fs) = spinTotal es + spinTotal fs := by
  induction es with
  | nil => simp [spinTotal]
  | cons e es ih => cases e <;> simp [spinTotal, ih, Nat.add_comm, Nat.add_left_comm]

theorem lastPin_append (v : Bool) (es fs : List Event) : lastPin v (es ++ fs) = lastPin (lastPin v es) fs := by
  induction es generalizing v with
  | nil => rfl
  | cons e es ih => cases e <;> simp [lastPin, ih]

@[simp] theorem absorbAll_replies (s : State) (es : List Event) :
    (s.absorbAll es).replies = s.replies.drop (xmitCount es) := by
  induction es generalizing s with
  | nil => rfl
  | cons e es ih =>
    rw [State.absorbAll, ih]
    cases e with
    | xmit a bytes => simp [State.absorb, xmitCount]
    | _ => simp [State.absorb, xmitCount]

@[simp] theorem absorbAll_draws (s : State) (es : List Event) :
    (s.absorbAll es).draws = s.draws + xmitCount es := by
  induction es generalizing s with
  | nil => rfl
  | cons e es ih =>
    rw [State.absorbAll, ih]
    cases e with
    | xmit a bytes => simp [State.absorb, xmitCount]; omega
    | _ => simp [State.absorb, xmitCount]

@[simp] theorem absorbAll_pin (s : State) (es : List Event) : (s.absorbAll es).pin = lastPin s.pin es := by
  induction es generalizing s with
  | nil => rfl
  | cons e es ih =>
    rw [State.absorbAll, ih]
    cases e <;> simp [State.absorb, lastPin]

/-- Whether an event belongs to the LCD channel. -/
def Event.isLcd : Event → Bool
  | .xmit _ _ => true
  | .waitMs _ => true
  | .pin _ => false
  | .spin _ _ => false
  | .irqOff _ => false
  | .irqRestore _ => false

/-- Two states are equal when their fields are. -/
theorem State.ext_fields {s t : State} (h1 : s.cfg = t.cfg) (h2 : s.inited = t.inited) (h3 : s.bus = t.bus)
    (h4 : s.addr = t.addr) (h5 : s.bl = t.bl) (h6 : s.shadow = t.shadow) (h7 : s.pin = t.pin) (h8 : s.ie = t.ie)
    (h9 : s.fault = t.fault) (h10 : s.trace = t.trace) (h11 : s.pc = t.pc) (h12 : s.program = t.program)
    (h13 : s.mem = t.mem) (h14 : s.replies = t.replies) (h15 : s.draws = t.draws) (h16 : s.blocked = t.blocked) :
    s = t := by
  cases s
  cases t
  simp_all

/-- LCD events leave the LED channel's fields alone, so the state after them is `sent`. -/
theorem absorbAll_lcd (s : State) {es : List Event} (h : ∀ e ∈ es, e.isLcd = true) :
    s.absorbAll es = s.sent es (lastWritten s.shadow es) := by
  have hpin : ∀ es : List Event, (∀ e ∈ es, e.isLcd = true) → ∀ v, lastPin v es = v := by
    intro es
    induction es with
    | nil => intro _ v; rfl
    | cons e es ih =>
      intro h v
      have he := h e (by simp)
      cases e <;> simp [Event.isLcd] at he <;> simpa [lastPin] using ih (fun e he => h e (by simp [he])) v
  have hie : ∀ es : List Event, (∀ e ∈ es, e.isLcd = true) → ∀ s : State, (s.absorbAll es).ie = s.ie := by
    intro es
    induction es with
    | nil => intro _ s; rfl
    | cons e es ih =>
      intro h s
      have he := h e (by simp)
      rw [State.absorbAll, ih fun e he => h e (by simp [he])]
      cases e <;> simp [Event.isLcd] at he <;> rfl
  apply State.ext_fields <;> simp [State.sent, hpin es h, hie es h]

/-! ### What `play` can do -/

@[simp] theorem play_nil (s : State) : (play []).run s = .ok () s := rfl

theorem play_cons (e : Event) (es : List Event) (s : State) : (play (e :: es)).run s = (perform e >>= fun _ => play es).run s := rfl

/-- Playing two lists in order. -/
theorem play_append (es fs : List Event) (s : State) : (play (es ++ fs)).run s = (play es >>= fun _ => play fs).run s := by
  induction es generalizing s with
  | nil => rfl
  | cons e es ih =>
    rw [List.cons_append, play_cons]
    rcases bind_cases (perform e) (fun _ => play (es ++ fs)) s with ⟨a, t, h1, h2⟩ | ⟨x, t, h1, h2⟩
    · have h3 : (play (e :: es)).run s = (play es).run t := by rw [play_cons, bind_ok h1]
      rw [h2, ih, EStateM.run_bind, EStateM.run_bind, h3]
    · have h3 : (play (e :: es)).run s = .error x t := by rw [play_cons, bind_error h1]
      rw [h2, bind_error h3]

/-- The state inside a transaction that never returns, the `k`-th (from 0) of a list of events. -/
def State.hungIn (s : State) (k : Nat) (es : List Event) : State :=
  { s with trace := s.trace ++ throughXmit k es, shadow := lastWritten s.shadow (throughXmit k es).dropLast,
           replies := s.replies.drop (k + 1), draws := s.draws + (k + 1), blocked := true,
           pin := lastPin s.pin (throughXmit k es), ie := (s.absorbAll (throughXmit k es)).ie }

@[simp] theorem hungIn_cfg (s : State) (k : Nat) (es : List Event) : (s.hungIn k es).cfg = s.cfg := rfl
@[simp] theorem hungIn_inited (s : State) (k : Nat) (es : List Event) : (s.hungIn k es).inited = s.inited := rfl
@[simp] theorem hungIn_bus (s : State) (k : Nat) (es : List Event) : (s.hungIn k es).bus = s.bus := rfl
@[simp] theorem hungIn_addr (s : State) (k : Nat) (es : List Event) : (s.hungIn k es).addr = s.addr := rfl
@[simp] theorem hungIn_bl (s : State) (k : Nat) (es : List Event) : (s.hungIn k es).bl = s.bl := rfl
@[simp] theorem hungIn_fault (s : State) (k : Nat) (es : List Event) : (s.hungIn k es).fault = s.fault := rfl
@[simp] theorem hungIn_pc (s : State) (k : Nat) (es : List Event) : (s.hungIn k es).pc = s.pc := rfl
@[simp] theorem hungIn_program (s : State) (k : Nat) (es : List Event) : (s.hungIn k es).program = s.program := rfl
@[simp] theorem hungIn_mem (s : State) (k : Nat) (es : List Event) : (s.hungIn k es).mem = s.mem := rfl
@[simp] theorem hungIn_blocked (s : State) (k : Nat) (es : List Event) : (s.hungIn k es).blocked = true := rfl
@[simp] theorem hungIn_trace (s : State) (k : Nat) (es : List Event) :
    (s.hungIn k es).trace = s.trace ++ throughXmit k es := rfl
@[simp] theorem hungIn_pin (s : State) (k : Nat) (es : List Event) :
    (s.hungIn k es).pin = lastPin s.pin (throughXmit k es) := rfl

/-- Nothing of a list of events is left out when its transaction is far enough. -/
theorem throughXmit_ne_nil {k : Nat} {es : List Event} (h : k < xmitCount es) : throughXmit k es ≠ [] := by
  cases es with
  | nil => simp [xmitCount] at h
  | cons e es => cases e <;> cases k <;> simp [throughXmit]

/-- An event that is no transaction goes by before the hang. -/
theorem hangs_after_quiet {k : Nat} {e : Event} {es : List Event} {s : State}
    (hp : (perform e).run s = .ok () (s.absorb e)) (hx : xmitCount (e :: es) = xmitCount es)
    (hk : k < xmitCount (e :: es))
    (h : (play es).run (s.absorb e) = .error .hung ((s.absorb e).hungIn k es)) :
    (perform e >>= fun _ => play es).run s = .error .hung (s.hungIn k (e :: es)) := by
  have ht : throughXmit k (e :: es) = e :: throughXmit k es := by
    cases e with
    | xmit a bytes => simp [xmitCount] at hx
    | _ => cases k <;> rfl
  have hw : writtenBytes [e] = [] := by
    cases e with
    | xmit a bytes => simp [xmitCount] at hx
    | _ => rfl
  have hr : (s.absorb e).replies = s.replies ∧ (s.absorb e).draws = s.draws := by
    cases e with
    | xmit a bytes => simp [xmitCount] at hx
    | _ => exact ⟨rfl, rfl⟩
  have hd : (e :: throughXmit k es).dropLast = e :: (throughXmit k es).dropLast :=
    List.dropLast_cons_of_ne_nil (throughXmit_ne_nil (hx ▸ hk))
  have hs : (s.absorb e).hungIn k es = s.hungIn k (e :: es) := by
    have hpin : lastPin (s.absorb e).pin (throughXmit k es) = lastPin s.pin (e :: throughXmit k es) := by
      cases e <;> rfl
    apply State.ext_fields <;> simp [State.hungIn, ht, hd, hr, hpin, State.absorbAll]
    rw [lastWritten_cons, absorb_shadow]
  rw [bind_ok hp, h, hs]

/-- Every transaction has a reply. -/
@[simp] theorem answers_length (bus : BusHandle) (rs : List Reply) (n : Nat) (es : List Event) :
    (answers bus rs n es).length = xmitCount es := by
  induction es generalizing rs n with
  | nil => rfl
  | cons e es ih => cases e <;> simp [answers, xmitCount, ih]

/-- The replies of two lists in order. -/
theorem answers_append (bus : BusHandle) (rs : List Reply) (n : Nat) (es fs : List Event) :
    answers bus rs n (es ++ fs) =
      answers bus rs n es ++ answers bus (rs.drop (xmitCount es)) (n + xmitCount es) fs := by
  induction es generalizing rs n with
  | nil => rfl
  | cons e es ih =>
    cases e with
    | xmit a bytes =>
      simp only [List.cons_append, answers, ih, xmitCount, List.drop_tail]
      rw [show n + 1 + xmitCount es = n + (xmitCount es + 1) by omega]
    | _ => simp [answers, ih, xmitCount]

/-- The replies up to the transaction that ends a cut list. -/
theorem answers_throughXmit (bus : BusHandle) (rs : List Reply) (n k : Nat) (es : List Event) :
    answers bus rs n (throughXmit k es) = (answers bus rs n es).take (k + 1) := by
  induction es generalizing rs n k with
  | nil => cases k <;> rfl
  | cons e es ih => cases e <;> cases k <;> simp [throughXmit, answers, ih]

/-- The replies after the first event. -/
theorem answers_absorb (s : State) (e : Event) (es : List Event) :
    answers s.bus s.replies s.draws (e :: es) =
      answers s.bus s.replies s.draws [e] ++ answers (s.absorb e).bus (s.absorb e).replies (s.absorb e).draws es := by
  cases e <;> rfl

/-- With the first `k` replies returns and the next one a hang, the list is played up to that transaction. -/
theorem play_hangs {k : Nat} {es : List Event} {s : State} (hk : k < xmitCount es)
    (hret : Reply.never ∉ (answers s.bus s.replies s.draws es).take k)
    (hnever : (answers s.bus s.replies s.draws es)[k]? = some .never) :
    (play es).run s = .error .hung (s.hungIn k es) := by
  induction es generalizing s k with
  | nil => simp [xmitCount] at hk
  | cons e es ih =>
    rw [play_cons]
    cases e with
    | xmit a bytes =>
      cases k with
      | zero =>
        have hr : s.nextReply s.bus a bytes = .never := by simpa [answers, State.nextReply] using hnever
        have hp : (perform (.xmit a bytes)).run s = .error .hung (s.emit (.xmit a bytes)).drawReply.block := by
          simp [perform, EStateM.run, hr]
        rw [bind_error hp]
        congr 1
        apply State.ext_fields <;> simp [State.hungIn, throughXmit, lastPin, State.absorbAll, State.absorb]
      | succ k =>
        have hrk : s.nextReply s.bus a bytes ≠ .never := by
          intro h
          exact hret (by simp [answers, ← h, State.nextReply])
        have hp : (perform (.xmit a bytes)).run s = .ok () (s.absorb (.xmit a bytes)) := by
          cases hr : s.nextReply s.bus a bytes with
          | returned o => simp [perform, EStateM.run, hr]
          | never => exact absurd hr hrk
        rw [bind_ok hp]
        have hk' : k < xmitCount es := by simpa [xmitCount] using hk
        rw [ih hk' (fun h => hret (List.mem_cons_of_mem _ h)) (by simpa [answers, State.absorb] using hnever)]
        have hd : (Event.xmit a bytes :: throughXmit k es).dropLast
            = .xmit a bytes :: (throughXmit k es).dropLast := List.dropLast_cons_of_ne_nil (throughXmit_ne_nil hk')
        congr 1
        apply State.ext_fields <;>
          simp [State.hungIn, throughXmit, lastPin, State.absorbAll, State.absorb, hd] <;>
          first | omega | (rw [← lastWritten_cons])
    | waitMs n => exact hangs_after_quiet rfl rfl hk (ih (s := s.absorb (.waitMs n)) hk hret hnever)
    | pin v => exact hangs_after_quiet rfl rfl hk (ih (s := s.absorb (.pin v)) hk hret hnever)
    | spin ns n => exact hangs_after_quiet rfl rfl hk (ih (s := s.absorb (.spin ns n)) hk hret hnever)
    | irqOff v => exact hangs_after_quiet rfl rfl hk (ih (s := s.absorb (.irqOff v)) hk hret hnever)
    | irqRestore v => exact hangs_after_quiet rfl rfl hk (ih (s := s.absorb (.irqRestore v)) hk hret hnever)

/-- A hang needs a `never` among the replies; the first one is where it hangs. -/
theorem first_never {rs : List Reply} (h : Reply.never ∈ rs) :
    ∃ k < rs.length, Reply.never ∉ rs.take k ∧ rs[k]? = some .never := by
  induction rs with
  | nil => simp at h
  | cons r rs ih =>
    cases r with
    | never => exact ⟨0, by simp, by simp, by simp⟩
    | returned o =>
      obtain ⟨k, hk, h1, h2⟩ := ih (by simpa using h)
      exact ⟨k + 1, by simpa using hk, by simpa using h1, by simpa using h2⟩

/-- Where every transaction returns, the whole list is played. -/
theorem play_returns (es : List Event) {s : State} (h : s.transportReturns es) :
    (play es).run s = .ok () (s.absorbAll es) := by
  induction es generalizing s with
  | nil => rfl
  | cons e es ih =>
    rw [State.transportReturns, State.returnsOn, answers_absorb, List.mem_append, not_or] at h
    have hp : (perform e).run s = .ok () (s.absorb e) := by
      cases e with
      | xmit a bytes =>
        cases hr : s.nextReply s.bus a bytes with
        | returned o => simp [perform, EStateM.run, hr]
        | never => exact absurd (by simp [answers, ← hr, State.nextReply]) h.1
      | _ => rfl
    rw [play_cons, bind_ok hp]
    exact ih h.2

/-- The inversion lemma of `play`. -/
theorem play_cases (es : List Event) (s : State) :
    (s.transportReturns es ∧ (play es).run s = .ok () (s.absorbAll es)) ∨
      ∃ k < xmitCount es, Reply.never ∉ (answers s.bus s.replies s.draws es).take k ∧
        (answers s.bus s.replies s.draws es)[k]? = some .never ∧
        (play es).run s = .error .hung (s.hungIn k es) := by
  by_cases h : Reply.never ∈ answers s.bus s.replies s.draws es
  · obtain ⟨k, hk, h1, h2⟩ := first_never h
    rw [answers_length] at hk
    exact .inr ⟨k, hk, h1, h2, play_hangs hk h1 h2⟩
  · exact .inl ⟨h, play_returns es h⟩

/-- Events without a transaction are played whole. -/
theorem play_quiet {es : List Event} (h : xmitCount es = 0) (s : State) :
    (play es).run s = .ok () (s.absorbAll es) := by
  refine play_returns es fun hm => ?_
  have hl := List.length_pos_of_mem hm
  rw [answers_length, h] at hl
  exact absurd hl (by omega)

end Sys2Proof.Machine
end

