-- ==== Sys2Proof/Laws/Transfer.lean ====
section
/-! SUPPORT. The internal transfers (R100 to R105) as plain event lists. -/

namespace Sys2Proof.Machine

/-- A line that plays a list, then whatever follows from the state after the list. -/
theorem seq_play {p r : Proc Unit} {q : Unit → Proc Unit} {es : List Event} {s : State}
    (hp : p.run s = (play es).run s) (hq : (q ()).run (s.absorbAll es) = r.run (s.absorbAll es)) :
    (p >>= q).run s = (play es >>= fun _ => r).run s := by
  rcases play_cases es s with ⟨_, h⟩ | ⟨k, _, _, _, h⟩
  · rw [bind_ok (hp.trans h), bind_ok h, hq]
  · rw [bind_error (hp.trans h), bind_error h]

/-- Two lines that play two lists play the longer one. -/
theorem seq_plays {p : Proc Unit} {q : Unit → Proc Unit} {es fs : List Event} {s : State}
    (hp : p.run s = (play es).run s) (hq : (q ()).run (s.absorbAll es) = (play fs).run (s.absorbAll es)) :
    (p >>= q).run s = (play (es ++ fs)).run s := by
  rw [play_append]
  exact seq_play hp hq

/-- A delay (R33). -/
theorem wait_play (n : Nat) (s : State) : (wait n).run s = (play [.waitMs n]).run s := rfl

/-- One expander byte (R100). -/
theorem writeExpander_play (b : Byte) (s : State) :
    (writeExpander b).run s = (play [.xmit s.addr [b]]).run s := by
  have hx : (writeExpander b).run s = (do xmit s.bus s.addr [b]; modify fun s => s.setShadow b : Proc Unit).run s := rfl
  rw [hx, play_cons]
  rcases hr : s.nextReply s.bus s.addr [b] with o | _
  · have h1 : (xmit s.bus s.addr [b]).run s = .ok () (s.emit (.xmit s.addr [b])).drawReply := by
      rw [xmit, bind_ok (t := s.emit (.xmit s.addr [b])) (a := ()) (by rfl)]
      simp only [awaitTransport, EStateM.run, State.emit_nextReply, hr]
    have h2 : (perform (.xmit s.addr [b])).run s = .ok () (s.absorb (.xmit s.addr [b])) := by
      simp only [perform, EStateM.run, hr]
    rw [bind_ok h1, bind_ok h2]
    rfl
  · have h1 : (xmit s.bus s.addr [b]).run s = .error .hung (s.emit (.xmit s.addr [b])).drawReply.block := by
      rw [xmit, bind_ok (t := s.emit (.xmit s.addr [b])) (a := ()) (by rfl)]
      simp only [awaitTransport, EStateM.run, State.emit_nextReply, hr]
    have h2 : (perform (.xmit s.addr [b])).run s = .error .hung (s.emit (.xmit s.addr [b])).drawReply.block := by
      simp only [perform, EStateM.run, hr]
    rw [bind_error h1, bind_error h2]

/-- One nibble and its enable pulse (R101). -/
theorem sendNibble_play (n : Nibble) (rs : Bool) (s : State) :
    (sendNibble n rs).run s = (play (pulse s.cfg s.addr (frame s.cfg s.bl n rs))).run s := by
  have hw : ∀ (b : Byte) (t : State), t.addr = s.addr →
      (writeExpander b).run t = (play [.xmit s.addr [b]]).run t := fun b t h => h ▸ writeExpander_play b t
  have htail : ∀ t : State, t.addr = s.addr →
      (do writeExpander (enabled s.cfg (frame s.cfg s.bl n rs))
          wait (1 * s.cfg.tuMs)
          writeExpander (frame s.cfg s.bl n rs)
          wait (1 * s.cfg.tuMs) : Proc Unit).run t =
        (play ([.xmit s.addr [frame s.cfg s.bl n rs ||| s.cfg.enMask]] ++ ([.waitMs s.cfg.tuMs] ++
          ([.xmit s.addr [frame s.cfg s.bl n rs]] ++ [.waitMs s.cfg.tuMs])))).run t := by
    intro t ht
    refine seq_plays (hw _ _ ht) (seq_plays ?_ (seq_plays (hw _ _ (by simpa using ht)) ?_))
    · rw [Nat.one_mul]; rfl
    · rw [Nat.one_mul]; rfl
  rw [sendNibble, get_bind]
  cases hc : s.cfg.presetWrite with
  | true =>
    simp only [if_true]
    rw [pulse, hc]
    exact seq_plays (hw _ s rfl) (htail _ (by simp))
  | false =>
    simp only [Bool.false_eq_true, if_false]
    rw [pulse, hc]
    exact htail s rfl

/-- The two nibbles of a byte (R103). -/
theorem sendByte_play (b : Byte) (rs : Bool) (s : State) :
    (sendByte b rs).run s = (play (byteEvents s.cfg s.addr s.bl b rs)).run s := by
  refine seq_plays (sendNibble_play _ _ s) ?_
  simpa using sendNibble_play (loNibble b) rs (s.absorbAll (pulse s.cfg s.addr (frame s.cfg s.bl (hiNibble b) rs)))

/-- A command byte (R104). -/
theorem sendCmd_play (b : Byte) (s : State) : (sendCmd b).run s = (play (cmdEvents s.cfg s.addr s.bl b)).run s := by
  refine seq_plays (sendByte_play b false s) ?_
  rw [theCfg_bind, absorbAll_cfg]
  rfl

/-- A character byte (R105). -/
theorem sendData_play (b : Byte) (s : State) : (sendData b).run s = (play (dataEvents s.cfg s.addr s.bl b)).run s := by
  refine seq_plays (sendByte_play b true s) ?_
  rw [theCfg_bind, absorbAll_cfg]
  rfl

/-! ### Event lists of the LCD channel -/

/-- The pulse is LCD events. -/
theorem pulse_isLcd (c : Cfg) (a : Nat) (f : Byte) : ∀ e ∈ pulse c a f, e.isLcd = true := by
  cases hp : c.presetWrite <;> simp [pulse, hp, Event.isLcd]

theorem isLcd_append {es fs : List Event} (h1 : ∀ e ∈ es, e.isLcd = true) (h2 : ∀ e ∈ fs, e.isLcd = true) :
    ∀ e ∈ es ++ fs, e.isLcd = true := by
  intro e he
  rcases List.mem_append.mp he with h | h
  · exact h1 e h
  · exact h2 e h

theorem isLcd_wait (n : Nat) : ∀ e ∈ [Event.waitMs n], e.isLcd = true := by simp [Event.isLcd]

theorem isLcd_flatMap {α : Type} {l : List α} {f : α → List Event} (h : ∀ x ∈ l, ∀ e ∈ f x, e.isLcd = true) :
    ∀ e ∈ l.flatMap f, e.isLcd = true := by
  intro e he
  obtain ⟨x, hx, hxe⟩ := List.mem_flatMap.mp he
  exact h x hx e hxe

theorem byteEvents_isLcd (c : Cfg) (a : Nat) (bl : Bool) (b : Byte) (rs : Bool) :
    ∀ e ∈ byteEvents c a bl b rs, e.isLcd = true :=
  isLcd_append (pulse_isLcd c a _) (pulse_isLcd c a _)

theorem cmdEvents_isLcd (c : Cfg) (a : Nat) (bl : Bool) (b : Byte) : ∀ e ∈ cmdEvents c a bl b, e.isLcd = true :=
  isLcd_append (byteEvents_isLcd c a bl b false) (isLcd_wait _)

theorem dataEvents_isLcd (c : Cfg) (a : Nat) (bl : Bool) (b : Byte) : ∀ e ∈ dataEvents c a bl b, e.isLcd = true :=
  isLcd_append (byteEvents_isLcd c a bl b true) (isLcd_wait _)

theorem charsEvents_isLcd (c : Cfg) (a : Nat) (bl : Bool) (bs : List Byte) :
    ∀ e ∈ charsEvents c a bl bs, e.isLcd = true :=
  isLcd_flatMap fun b _ => dataEvents_isLcd c a bl b

/-- Transactions of a pulse: three, or two without the preset write (R106). -/
theorem xmitCount_pulse (c : Cfg) (a : Nat) (f : Byte) :
    xmitCount (pulse c a f) = if c.presetWrite then 3 else 2 := by
  cases h : c.presetWrite <;> simp [pulse, h, xmitCount]

theorem waitArgs_pulse (c : Cfg) (a : Nat) (f : Byte) : waitArgs (pulse c a f) = [c.tuMs, c.tuMs] := by
  cases h : c.presetWrite <;> simp [pulse, h, waitArgs]

/-- A pulse ends with the base frame on the port (R101). -/
theorem lastWritten_pulse (c : Cfg) (a : Nat) (f : Byte) (b : Option Byte) : lastWritten b (pulse c a f) = some f := by
  cases h : c.presetWrite <;> simp [pulse, h, lastWritten, writtenBytes]

theorem lastWritten_wait (b : Option Byte) (n : Nat) : lastWritten b [.waitMs n] = b := rfl

/-- A byte ends with its low nibble's frame on the port (R103). -/
theorem lastWritten_byteEvents (c : Cfg) (a : Nat) (bl : Bool) (x : Byte) (rs : Bool) (b : Option Byte) :
    lastWritten b (byteEvents c a bl x rs) = some (frame c bl (loNibble x) rs) := by
  rw [byteEvents, lastWritten_append, lastWritten_pulse]

theorem lastWritten_cmdEvents (c : Cfg) (a : Nat) (bl : Bool) (x : Byte) (b : Option Byte) :
    lastWritten b (cmdEvents c a bl x) = some (frame c bl (loNibble x) false) := by
  rw [cmdEvents, lastWritten_append, lastWritten_byteEvents, lastWritten_wait]

theorem lastWritten_dataEvents (c : Cfg) (a : Nat) (bl : Bool) (x : Byte) (b : Option Byte) :
    lastWritten b (dataEvents c a bl x) = some (frame c bl (loNibble x) true) := by
  rw [dataEvents, lastWritten_append, lastWritten_byteEvents, lastWritten_wait]

end Sys2Proof.Machine
end

