-- ==== Sys2Proof/Laws/Lcd.lean ====
section
/-! SUPPORT. The bodies of the LCD operations (R121 to R131) as plain event lists. -/

namespace Sys2Proof.Machine

/-- Two states whose transfers look alike: same configuration, address, flag and host memory. -/
def Alike (s t : State) : Prop := t.cfg = s.cfg ∧ t.addr = s.addr ∧ t.bl = s.bl ∧ t.mem = s.mem

theorem Alike.refl (s : State) : Alike s s := ⟨rfl, rfl, rfl, rfl⟩

theorem Alike.absorbAll {s t : State} (h : Alike s t) (es : List Event) : Alike s (t.absorbAll es) := by
  simpa [Alike] using h

/-- `clear` (R123). -/
theorem clearBody_play (s : State) : clearBody.run s = (play (clearEvents s.cfg s.addr s.bl)).run s := by
  rw [clearBody, theCfg_bind]
  exact seq_plays (sendCmd_play _ s) rfl

/-- `set_cursor` (R124). -/
theorem cursorBody_play (row column : Nat) (s : State) :
    (cursorBody row column).run s = (play (cursorEvents s.cfg s.addr s.bl row column)).run s := by
  rw [cursorBody, theCfg_bind]
  exact sendCmd_play _ s

theorem handshakeNibble_play (n : Nibble) (ms : Nat) (s : State) :
    (handshakeNibble n ms).run s = (play (loneEvents s.cfg s.addr s.bl n ms)).run s :=
  seq_plays (sendNibble_play n false s) rfl

theorem modeSelect_play (s : State) :
    (modeSelect s.cfg).run s =
      (play (match s.cfg.modeNibble with
        | none => []
        | some n => loneEvents s.cfg s.addr s.bl n s.cfg.modeDelayMs)).run s := by
  rw [modeSelect]
  cases s.cfg.modeNibble with
  | none => rfl
  | some n => exact handshakeNibble_play n _ s

/-- The handshake and the commands after it (R121). -/
theorem handshake_play {s : State} (hbl : s.bl = s.cfg.blInit) :
    (handshake s.cfg).run s = (play (initEvents s.cfg s.addr)).run s := by
  have lone : ∀ (n : Nibble) (ms : Nat) (t : State), t.cfg = s.cfg → t.addr = s.addr → t.bl = s.bl →
      (handshakeNibble n ms).run t = (play (loneEvents s.cfg s.addr s.cfg.blInit n ms)).run t := by
    intro n ms t h1 h2 h3
    rw [handshakeNibble_play, h1, h2, h3, hbl]
  have cmd : ∀ (b : Byte) (t : State), t.cfg = s.cfg → t.addr = s.addr → t.bl = s.bl →
      (sendCmd b).run t = (play (cmdEvents s.cfg s.addr s.cfg.blInit b)).run t := by
    intro b t h1 h2 h3
    rw [sendCmd_play, h1, h2, h3, hbl]
  have clear : ∀ t : State, t.cfg = s.cfg → t.addr = s.addr → t.bl = s.bl →
      clearBody.run t = (play (clearEvents s.cfg s.addr s.cfg.blInit)).run t := by
    intro t h1 h2 h3
    rw [clearBody_play, h1, h2, h3, hbl]
  have mode : ∀ t : State, t.cfg = s.cfg → t.addr = s.addr → t.bl = s.bl →
      (modeSelect s.cfg).run t = (play (match s.cfg.modeNibble with
        | none => []
        | some n => loneEvents s.cfg s.addr s.cfg.blInit n s.cfg.modeDelayMs)).run t := by
    intro t h1 h2 h3
    rw [← h1, modeSelect_play, h1, h2, h3, hbl]
  simp only [initEvents, List.append_assoc]
  refine seq_plays (wait_play _ s) ?_
  refine seq_plays (lone _ _ _ (by simp) (by simp) (by simp)) ?_
  refine seq_plays (lone _ _ _ (by simp) (by simp) (by simp)) ?_
  refine seq_plays (lone _ _ _ (by simp) (by simp) (by simp)) ?_
  refine seq_plays (mode _ (by simp) (by simp) (by simp)) ?_
  refine seq_plays (cmd _ _ (by simp) (by simp) (by simp)) ?_
  refine seq_plays (cmd _ _ (by simp) (by simp) (by simp)) ?_
  refine seq_plays (clear _ (by simp) (by simp) (by simp)) ?_
  exact cmd _ _ (by simp) (by simp) (by simp)

/-- `initialize` before any session (R121). -/
theorem initBody_play (bus : BusHandle) (addr : Nat) {s : State} (h : s.inited = false) :
    (initBody bus addr).run s = (play (initEvents s.cfg addr)).run (s.openSession bus addr) := by
  rw [initBody, get_bind]
  simp only [h, Bool.false_eq_true, if_false, modify_bind]
  exact handshake_play (s := s.openSession bus addr) rfl

/-- `initialize` in a session (R193). -/
theorem initBody_reInit (bus : BusHandle) (addr : Nat) {s : State} (h : s.inited = true) :
    (initBody bus addr).run s = .error .raised (s.recordFault .reInit) := by
  rw [initBody, get_bind]
  simp only [h, if_true]
  rfl

/-! ### Strings -/

theorem HoldsBytes.head {m : Memory} {p : Nat} {b : Byte} {bs : List Byte} (h : HoldsBytes m p (b :: bs)) :
    Memory.read m p = some b := h 0 (by simp)

theorem HoldsBytes.tail {m : Memory} {p : Nat} {b : Byte} {bs : List Byte} (h : HoldsBytes m p (b :: bs)) :
    HoldsBytes m (p + 1) bs := by
  intro i hi
  have := h (i + 1) (by simpa using hi)
  simpa [Nat.add_assoc, Nat.add_comm 1 i] using this

theorem HoldsBytes.drop {m : Memory} {p : Nat} {bs : List Byte} (h : HoldsBytes m p bs) (k : Nat) :
    HoldsBytes m (p + k) (bs.drop k) := by
  intro i hi
  simp only [List.length_drop] at hi
  have := h (k + i) (by omega)
  simpa [Nat.add_assoc] using this

theorem HoldsBytes.take {m : Memory} {p : Nat} {bs : List Byte} (h : HoldsBytes m p bs) (k : Nat) :
    HoldsBytes m p (bs.take k) := by
  intro i hi
  simp only [List.length_take] at hi
  have := h i (by omega)
  simpa using this

theorem HoldsBytes.length_le {m : Memory} {p : Nat} {bs : List Byte} (h : HoldsBytes m p bs) :
    bs.length ≤ m.length :=
  Memory.run_le_length (p := p) fun i hi => by rw [h i hi]; rfl

theorem HoldsString.head {m : Memory} {p : Nat} {b : Byte} {bs : List Byte} (h : HoldsString m p (b :: bs)) :
    Memory.read m p = some b ∧ b ≠ 0 := ⟨h.1.head, h.2.1 b (by simp)⟩

theorem HoldsString.tail {m : Memory} {p : Nat} {b : Byte} {bs : List Byte} (h : HoldsString m p (b :: bs)) :
    HoldsString m (p + 1) bs := by
  refine ⟨h.1.tail, fun x hx => h.2.1 x (by simp [hx]), ?_⟩
  have hz := h.2.2
  rwa [List.length_cons, Nat.add_comm bs.length 1, ← Nat.add_assoc] at hz

theorem HoldsString.end_ {m : Memory} {p : Nat} (h : HoldsString m p []) : Memory.read m p = some 0 := h.2.2

/-- `write_text` on a string, with enough fuel (R126). -/
theorem textLoop_play {bs : List Byte} {fuel p : Nat} {s t : State} (hs : HoldsString s.mem p bs)
    (hf : bs.length < fuel) (ha : Alike s t) :
    (textLoop fuel p).run t = (play (charsEvents s.cfg s.addr s.bl bs)).run t := by
  induction bs generalizing fuel p t with
  | nil =>
    obtain ⟨f, rfl⟩ : ∃ f, fuel = f + 1 := ⟨fuel - 1, by simp at hf; omega⟩
    rw [textLoop, bind_ok (memRead_some (b := 0) (by rw [ha.2.2.2]; exact hs.end_))]
    rfl
  | cons b bs ih =>
    obtain ⟨f, rfl⟩ : ∃ f, fuel = f + 1 := ⟨fuel - 1, by simp at hf; omega⟩
    rw [textLoop, bind_ok (memRead_some (b := b) (by rw [ha.2.2.2]; exact hs.head.1)), if_neg hs.head.2]
    rw [charsEvents, List.flatMap_cons]
    refine seq_plays ?_ (ih hs.tail (by simpa using hf) (ha.absorbAll _))
    rw [sendData_play, ha.1, ha.2.1, ha.2.2.1]

/-- `write_text` that meets an unreadable byte after `bs` (R126, R191). -/
theorem textLoop_badRead {bs : List Byte} {fuel p : Nat} {s t : State} (hb : HoldsBytes s.mem p bs)
    (hnz : ∀ b ∈ bs, b ≠ 0) (hz : Memory.read s.mem (p + bs.length) = none)
    (hf : bs.length < fuel) (ha : Alike s t) :
    (textLoop fuel p).run t =
      (play (charsEvents s.cfg s.addr s.bl bs) >>= fun _ => raise (.badRead (p + bs.length)) : Proc Unit).run t := by
  induction bs generalizing fuel p t with
  | nil =>
    obtain ⟨f, rfl⟩ : ∃ f, fuel = f + 1 := ⟨fuel - 1, by simp at hf; omega⟩
    rw [textLoop, bind_error (memRead_none (by rw [ha.2.2.2]; simpa using hz))]
    rfl
  | cons b bs ih =>
    obtain ⟨f, rfl⟩ : ∃ f, fuel = f + 1 := ⟨fuel - 1, by simp at hf; omega⟩
    have hb0 : b ≠ 0 := hnz b (by simp)
    rw [textLoop, bind_ok (memRead_some (b := b) (by rw [ha.2.2.2]; exact hb.head)), if_neg hb0]
    have hlen : p + (b :: bs).length = p + 1 + bs.length := by simp; omega
    have hsplit : ∀ r : Proc Unit, (play (charsEvents s.cfg s.addr s.bl (b :: bs)) >>= fun _ => r).run t =
        (play (dataEvents s.cfg s.addr s.bl b) >>= fun _ => play (charsEvents s.cfg s.addr s.bl bs) >>= fun _ => r).run t := by
      intro r
      rw [charsEvents, List.flatMap_cons, ← bind_assoc_run, EStateM.run_bind, EStateM.run_bind, play_append]
      rfl
    rw [hsplit, hlen]
    refine seq_play ?_ ?_
    · rw [sendData_play, ha.1, ha.2.1, ha.2.2.1]
    · exact ih hb.tail (fun x hx => hnz x (by simp [hx])) (by rw [← hlen]; exact hz) (by simpa using hf)
        (ha.absorbAll _)

/-- `write_text` on a string (R126). -/
theorem textBody_play {bs : List Byte} {p : Nat} {s : State} (hs : HoldsString s.mem p bs) :
    (textBody p).run s = (play (charsEvents s.cfg s.addr s.bl bs)).run s := by
  rw [textBody, stringFuel_bind]
  exact textLoop_play hs (by have := hs.1.length_le; omega) (Alike.refl s)

/-- `write_text` that meets an unreadable byte (R126). -/
theorem textBody_badRead {bs : List Byte} {p : Nat} {s : State} (hb : HoldsBytes s.mem p bs)
    (hnz : ∀ b ∈ bs, b ≠ 0) (hz : Memory.read s.mem (p + bs.length) = none) :
    (textBody p).run s =
      (play (charsEvents s.cfg s.addr s.bl bs) >>= fun _ => raise (.badRead (p + bs.length)) : Proc Unit).run s := by
  rw [textBody, stringFuel_bind]
  exact textLoop_badRead hb hnz hz (by have := hb.length_le; omega) (Alike.refl s)

/-- The length of a string, with enough fuel (R125): nothing is emitted. -/
theorem stringLengthFrom_run {bs : List Byte} {fuel p : Nat} {s : State} (hs : HoldsString s.mem p bs)
    (hf : bs.length < fuel) : (stringLengthFrom fuel p).run s = .ok bs.length s := by
  induction bs generalizing fuel p with
  | nil =>
    obtain ⟨f, rfl⟩ : ∃ f, fuel = f + 1 := ⟨fuel - 1, by simp at hf; omega⟩
    rw [stringLengthFrom, bind_ok (memRead_some hs.end_)]
    rfl
  | cons b bs ih =>
    obtain ⟨f, rfl⟩ : ∃ f, fuel = f + 1 := ⟨fuel - 1, by simp at hf; omega⟩
    rw [stringLengthFrom, bind_ok (memRead_some hs.head.1), if_neg hs.head.2]
    rw [bind_ok (ih (fuel := f) hs.tail (by simpa using hf))]
    rfl

/-- The length of a byte sequence without a readable terminator: `BadRead` (R125, R191). -/
theorem stringLengthFrom_badRead {bs : List Byte} {fuel p : Nat} {s : State} (hb : HoldsBytes s.mem p bs)
    (hnz : ∀ b ∈ bs, b ≠ 0) (hz : Memory.read s.mem (p + bs.length) = none) (hf : bs.length < fuel) :
    (stringLengthFrom fuel p).run s = .error .raised (s.recordFault (.badRead (p + bs.length))) := by
  induction bs generalizing fuel p with
  | nil =>
    obtain ⟨f, rfl⟩ : ∃ f, fuel = f + 1 := ⟨fuel - 1, by simp at hf; omega⟩
    rw [stringLengthFrom, bind_error (memRead_none (by simpa using hz))]
    rfl
  | cons b bs ih =>
    obtain ⟨f, rfl⟩ : ∃ f, fuel = f + 1 := ⟨fuel - 1, by simp at hf; omega⟩
    have hlen : p + (b :: bs).length = p + 1 + bs.length := by simp; omega
    rw [stringLengthFrom, bind_ok (memRead_some hb.head), if_neg (hnz b (by simp)), hlen]
    exact bind_error (ih (fuel := f) hb.tail (fun x hx => hnz x (by simp [hx])) (by rw [← hlen]; exact hz)
      (by simpa using hf))

/-- `len(p)` (R125). -/
theorem stringLength_run {bs : List Byte} {p : Nat} {s : State} (hs : HoldsString s.mem p bs) :
    (stringLength p).run s = .ok bs.length s := by
  rw [stringLength, stringFuel_bind]
  exact stringLengthFrom_run hs (by have := hs.1.length_le; omega)

/-- `len(p)` without a readable terminator (R125). -/
theorem stringLength_badRead {bs : List Byte} {p : Nat} {s : State} (hb : HoldsBytes s.mem p bs)
    (hnz : ∀ b ∈ bs, b ≠ 0) (hz : Memory.read s.mem (p + bs.length) = none) :
    (stringLength p).run s = .error .raised (s.recordFault (.badRead (p + bs.length))) := by
  rw [stringLength, stringFuel_bind]
  exact stringLengthFrom_badRead hb hnz hz (by have := hb.length_le; omega)

/-! ### write_wrapped -/

/-- A chunk that does not end inside: all its bytes are sent (R130). -/
theorem chunkLoop_full {bs : List Byte} {p : Nat} {s t : State} (hb : HoldsBytes s.mem p bs)
    (hnz : ∀ b ∈ bs, b ≠ 0) (ha : Alike s t) :
    (chunkLoop bs.length p).run t =
      (play (charsEvents s.cfg s.addr s.bl bs) >>= fun _ => (pure false : Proc Bool)).run t := by
  induction bs generalizing p t with
  | nil => rfl
  | cons b bs ih =>
    rw [List.length_cons, chunkLoop, bind_ok (memRead_some (b := b) (by rw [ha.2.2.2]; exact hb.head)),
      if_neg (hnz b (by simp))]
    have hd : (sendData b).run t = (play (dataEvents s.cfg s.addr s.bl b)).run t := by
      rw [sendData_play, ha.1, ha.2.1, ha.2.2.1]
    have hi := fun t' (ha' : Alike s t') => ih hb.tail (fun x hx => hnz x (by simp [hx])) (t := t') ha'
    rw [charsEvents, List.flatMap_cons, EStateM.run_bind, EStateM.run_bind, play_append, EStateM.run_bind, hd]
    rcases play_cases (dataEvents s.cfg s.addr s.bl b) t with ⟨_, h⟩ | ⟨k, _, _, _, h⟩
    · simp only [h]
      rw [hi _ (ha.absorbAll _), EStateM.run_bind]
      rfl
    · simp only [h]

/-- A chunk in which the string ends (R130). -/
theorem chunkLoop_ended {bs : List Byte} {count p : Nat} {s t : State} (hs : HoldsString s.mem p bs)
    (hc : bs.length < count) (ha : Alike s t) :
    (chunkLoop count p).run t =
      (play (charsEvents s.cfg s.addr s.bl bs) >>= fun _ => (pure true : Proc Bool)).run t := by
  induction bs generalizing count p t with
  | nil =>
    obtain ⟨f, rfl⟩ : ∃ f, count = f + 1 := ⟨count - 1, by simp at hc; omega⟩
    rw [chunkLoop, bind_ok (memRead_some (b := 0) (by rw [ha.2.2.2]; exact hs.end_))]
    rfl
  | cons b bs ih =>
    obtain ⟨f, rfl⟩ : ∃ f, count = f + 1 := ⟨count - 1, by simp at hc; omega⟩
    rw [chunkLoop, bind_ok (memRead_some (b := b) (by rw [ha.2.2.2]; exact hs.head.1)), if_neg hs.head.2]
    have hd : (sendData b).run t = (play (dataEvents s.cfg s.addr s.bl b)).run t := by
      rw [sendData_play, ha.1, ha.2.1, ha.2.2.1]
    have hi := fun t' (ha' : Alike s t') => ih (count := f) hs.tail (by simpa using hc) (t := t') ha'
    rw [charsEvents, List.flatMap_cons, EStateM.run_bind, EStateM.run_bind, play_append, EStateM.run_bind, hd]
    rcases play_cases (dataEvents s.cfg s.addr s.bl b) t with ⟨_, h⟩ | ⟨k, _, _, _, h⟩
    · simp only [h]
      rw [hi _ (ha.absorbAll _), EStateM.run_bind]
      rfl
    · simp only [h]

/-- The rows of `write_wrapped` from `r` on (R130): each row whose chunk is not empty is positioned and written. -/
theorem wrapRows_play {bs : List Byte} {p left r : Nat} {s t : State} (hcols : 1 ≤ s.cfg.cols)
    (hb : HoldsBytes s.mem p bs) (hnz : ∀ b ∈ bs, b ≠ 0) (hrows : left = s.cfg.rows - r)
    (hend : bs.length = s.cfg.rows * s.cfg.cols ∨
      (bs.length < s.cfg.rows * s.cfg.cols ∧ Memory.read s.mem (p + bs.length) = some 0))
    (hfull : left ≠ 0 → r * s.cfg.cols ≤ bs.length) (ha : Alike s t) :
    (wrapRows p left r).run t = (play ((List.range' r left).flatMap fun r =>
      if chunk s.cfg bs r = [] then []
      else cursorEvents s.cfg s.addr s.bl r 0 ++ charsEvents s.cfg s.addr s.bl (chunk s.cfg bs r))).run t := by
  induction left generalizing r t with
  | zero => rfl
  | succ left ih =>
    have hle := hfull (by omega)
    rw [List.range'_succ, List.flatMap_cons, wrapRows, theCfg_bind, ha.1]
    by_cases hchunk : chunk s.cfg bs r = []
    · -- the chunk boundary lands on the terminator
      have hlen : bs.length = r * s.cfg.cols := by
        simp only [chunk, List.take_eq_nil_iff, List.drop_eq_nil_iff] at hchunk
        omega
      have hread : Memory.read s.mem (p + r * s.cfg.cols) = some 0 := by
        rcases hend with h | ⟨_, h⟩
        · exfalso
          rw [hlen] at h
          have := Nat.eq_of_mul_eq_mul_right (by omega) h
          omega
        · rwa [hlen] at h
      have hrest : ∀ k, r ≤ k → chunk s.cfg bs k = [] := by
        intro k hk
        have : r * s.cfg.cols ≤ k * s.cfg.cols := Nat.mul_le_mul_right _ hk
        simp only [chunk, List.take_eq_nil_iff, List.drop_eq_nil_iff]
        omega
      have hnil : ((List.range' (r + 1) left).flatMap fun r =>
          if chunk s.cfg bs r = [] then ([] : List Event)
          else cursorEvents s.cfg s.addr s.bl r 0 ++ charsEvents s.cfg s.addr s.bl (chunk s.cfg bs r)) = [] := by
        rw [List.flatMap_eq_nil_iff]
        intro k hk
        rw [if_pos (hrest k (by have := (List.mem_range'_1.mp hk).1; omega))]
      rw [bind_ok (memRead_some (b := 0) (by rw [ha.2.2.2]; exact hread)), if_pos rfl, if_pos hchunk, hnil]
      rfl
    · have hlt : r * s.cfg.cols < bs.length := by
        simp only [chunk, List.take_eq_nil_iff, List.drop_eq_nil_iff, not_or] at hchunk
        omega
      have hfirst : Memory.read s.mem (p + r * s.cfg.cols) = some bs[r * s.cfg.cols] := hb _ hlt
      have hnz0 : bs[r * s.cfg.cols] ≠ 0 := hnz _ (List.getElem_mem hlt)
      have hcb : HoldsBytes s.mem (p + r * s.cfg.cols) (chunk s.cfg bs r) := (hb.drop _).take _
      have hcnz : ∀ b ∈ chunk s.cfg bs r, b ≠ 0 := fun b hbm => hnz b (List.mem_of_mem_drop (List.mem_of_mem_take hbm))
      rw [bind_ok (memRead_some (b := bs[r * s.cfg.cols]) (by rw [ha.2.2.2]; exact hfirst)), if_neg hnz0,
        if_neg hchunk, List.append_assoc]
      refine seq_plays (by rw [cursorBody_play, ha.1, ha.2.1, ha.2.2.1]) ?_
      have ha' := ha.absorbAll (cursorEvents s.cfg s.addr s.bl r 0)
      generalize t.absorbAll (cursorEvents s.cfg s.addr s.bl r 0) = u at ha'
      by_cases hfullrow : (r + 1) * s.cfg.cols ≤ bs.length
      · -- a full row: the next one follows
        have hclen : (chunk s.cfg bs r).length = s.cfg.cols := by
          simp only [chunk, List.length_take, List.length_drop]
          rw [Nat.succ_mul] at hfullrow
          omega
        have hrun := chunkLoop_full hcb hcnz ha'
        rw [hclen] at hrun
        rw [EStateM.run_bind, hrun, play_append, EStateM.run_bind, EStateM.run_bind]
        rcases play_cases (charsEvents s.cfg s.addr s.bl (chunk s.cfg bs r)) u with ⟨_, h⟩ | ⟨k, _, _, _, h⟩
        · simp only [h, pure_run, Bool.false_eq_true, if_false]
          exact ih (by omega) (fun _ => hfullrow) (ha'.absorbAll _)
        · simp only [h]
      · -- the string ends inside the chunk
        have hce : chunk s.cfg bs r = bs.drop (r * s.cfg.cols) := by
          apply List.take_of_length_le
          rw [Nat.succ_mul] at hfullrow
          simp only [List.length_drop]
          omega
        have hclen : (chunk s.cfg bs r).length = bs.length - r * s.cfg.cols := by rw [hce, List.length_drop]
        have hz : Memory.read s.mem (p + bs.length) = some 0 := by
          rcases hend with h | ⟨_, h⟩
          · exfalso
            have : (r + 1) * s.cfg.cols ≤ s.cfg.rows * s.cfg.cols := Nat.mul_le_mul_right _ (by omega)
            omega
          · exact h
        have hstr : HoldsString s.mem (p + r * s.cfg.cols) (chunk s.cfg bs r) := by
          refine ⟨hcb, hcnz, ?_⟩
          have hadd : p + r * s.cfg.cols + (bs.length - r * s.cfg.cols) = p + bs.length := by omega
          rw [hclen, hadd]
          exact hz
        have hrest : ∀ k, r + 1 ≤ k → chunk s.cfg bs k = [] := by
          intro k hk
          have : (r + 1) * s.cfg.cols ≤ k * s.cfg.cols := Nat.mul_le_mul_right _ hk
          simp only [chunk, List.take_eq_nil_iff, List.drop_eq_nil_iff]
          omega
        have hnil : ((List.range' (r + 1) left).flatMap fun r =>
            if chunk s.cfg bs r = [] then ([] : List Event)
            else cursorEvents s.cfg s.addr s.bl r 0 ++ charsEvents s.cfg s.addr s.bl (chunk s.cfg bs r)) = [] := by
          rw [List.flatMap_eq_nil_iff]
          intro k hk
          rw [if_pos (hrest k (List.mem_range'_1.mp hk).1)]
        have hrun := chunkLoop_ended (count := s.cfg.cols) hstr (by rw [hclen]; rw [Nat.succ_mul] at hfullrow; omega) ha'
        rw [EStateM.run_bind, hrun, hnil, List.append_nil, EStateM.run_bind]
        rcases play_cases (charsEvents s.cfg s.addr s.bl (chunk s.cfg bs r)) u with ⟨_, h⟩ | ⟨k, _, _, _, h⟩
        · simp only [h, pure_run, if_true]
        · simp only [h]

/-- `write_wrapped` (R130). -/
theorem wrapBody_play {bs : List Byte} {p : Nat} {s : State} (hcols : 1 ≤ s.cfg.cols)
    (hb : HoldsBytes s.mem p bs) (hnz : ∀ b ∈ bs, b ≠ 0)
    (hend : bs.length = s.cfg.rows * s.cfg.cols ∨
      (bs.length < s.cfg.rows * s.cfg.cols ∧ Memory.read s.mem (p + bs.length) = some 0)) :
    (wrapBody p).run s = (play (wrapEvents s.cfg s.addr s.bl bs)).run s := by
  rw [wrapBody, theCfg_bind, wrapRows_play hcols hb hnz (by omega) hend (by simp) (Alike.refl s), wrapEvents,
    List.range_eq_range']

/-! ### scroll_row -/

/-- A run of readable characters is sent (R131). -/
theorem sendChars_play {bs : List Byte} {p : Nat} {s t : State} (hb : HoldsBytes s.mem p bs) (ha : Alike s t) :
    (sendChars bs.length p).run t = (play (charsEvents s.cfg s.addr s.bl bs)).run t := by
  induction bs generalizing p t with
  | nil => rfl
  | cons b bs ih =>
    rw [List.length_cons, sendChars, bind_ok (memRead_some (b := b) (by rw [ha.2.2.2]; exact hb.head))]
    rw [charsEvents, List.flatMap_cons]
    refine seq_plays ?_ (ih hb.tail (ha.absorbAll _))
    rw [sendData_play, ha.1, ha.2.1, ha.2.2.1]

/-- The windows of `scroll_row` (R131), the last `left` of them. -/
theorem scrollWindows_play {bs : List Byte} {row d p left i : Nat} {s t : State} (hb : HoldsBytes s.mem p bs)
    (hleft : i + left = bs.length - s.cfg.cols + 1) (hlong : s.cfg.cols < bs.length) (ha : Alike s t) :
    (scrollWindows row d left (p + i)).run t =
      (play ((List.range' i left).flatMap (windowEvents s.cfg s.addr s.bl row d bs))).run t := by
  induction left generalizing i t with
  | zero => rfl
  | succ left ih =>
    rw [List.range'_succ, List.flatMap_cons, scrollWindows, theCfg_bind, ha.1, windowEvents, List.append_assoc,
      List.append_assoc]
    refine seq_plays (by rw [cursorBody_play, ha.1, ha.2.1, ha.2.2.1]) ?_
    refine seq_plays ?_ ?_
    · have hlen : ((bs.drop i).take s.cfg.cols).length = s.cfg.cols := by simp; omega
      have hrun := sendChars_play ((hb.drop i).take s.cfg.cols) (ha.absorbAll (cursorEvents s.cfg s.addr s.bl row 0))
      rwa [hlen] at hrun
    · refine seq_plays ?_ ?_
      · have hiff : (decide (0 < left) || s.cfg.scrollTrailingDelay) = true ↔
            (i < bs.length - s.cfg.cols ∨ s.cfg.scrollTrailingDelay = true) := by
          have hmore : 0 < left ↔ i < bs.length - s.cfg.cols := by omega
          simp only [Bool.or_eq_true, decide_eq_true_eq, hmore]
        rw [stepDelay]
        by_cases h : i < bs.length - s.cfg.cols ∨ s.cfg.scrollTrailingDelay = true
        · rw [if_pos (hiff.mpr h), if_pos h]
          rfl
        · rw [if_neg (fun hc => h (hiff.mp hc)), if_neg h]
          rfl
      · exact ih (i := i + 1) (by omega) (((ha.absorbAll _).absorbAll _).absorbAll _)

/-- `scroll_row` (R131). -/
theorem scrollBody_play {bs : List Byte} {row p d : Nat} {s : State} (hs : HoldsString s.mem p bs) :
    (scrollBody row p d).run s = (play (scrollEvents s.cfg s.addr s.bl row d bs)).run s := by
  rw [scrollBody, bind_ok (stringLength_run hs), theCfg_bind, scrollEvents]
  by_cases h : bs.length ≤ s.cfg.cols
  · rw [if_pos h, if_pos h]
    exact seq_plays (cursorBody_play row 0 s) (sendChars_play hs.1 ((Alike.refl s).absorbAll _))
  · rw [if_neg h, if_neg h, List.range_eq_range']
    exact scrollWindows_play (i := 0) hs.1 (by omega) (by omega) (Alike.refl s)

/-- `scroll_row` without a readable terminator: nothing is emitted (R131). -/
theorem scrollBody_badRead {bs : List Byte} {row p d : Nat} {s : State} (hb : HoldsBytes s.mem p bs)
    (hnz : ∀ b ∈ bs, b ≠ 0) (hz : Memory.read s.mem (p + bs.length) = none) :
    (scrollBody row p d).run s = .error .raised (s.recordFault (.badRead (p + bs.length))) := by
  rw [scrollBody, bind_error (stringLength_badRead hb hnz hz)]

/-! ### Backlight -/

/-- `backlight_on` (R127). -/
theorem backlightOnBody_play {b : Byte} {s : State} (h : s.shadow = some b) :
    backlightOnBody.run s = (play [.xmit s.addr [b ||| s.cfg.blMask]]).run (s.setBl true) := by
  rw [backlightOnBody, modify_bind, reissue, get_bind]
  simp only [State.setBl_shadow, h]
  exact writeExpander_play _ _

/-- `backlight_off` (R128). -/
theorem backlightOffBody_play {b : Byte} {s : State} (h : s.shadow = some b) :
    backlightOffBody.run s = (play [.xmit s.addr [b &&& ~~~s.cfg.blMask]]).run (s.setBl false) := by
  rw [backlightOffBody, modify_bind, reissue, get_bind]
  simp only [State.setBl_shadow, h]
  exact writeExpander_play _ _

/-! ### Event lists -/

theorem clearEvents_isLcd (c : Cfg) (a : Nat) (bl : Bool) : ∀ e ∈ clearEvents c a bl, e.isLcd = true :=
  isLcd_append (cmdEvents_isLcd c a bl _) (isLcd_wait _)

theorem cursorEvents_isLcd (c : Cfg) (a : Nat) (bl : Bool) (row column : Nat) :
    ∀ e ∈ cursorEvents c a bl row column, e.isLcd = true := cmdEvents_isLcd c a bl _

theorem loneEvents_isLcd (c : Cfg) (a : Nat) (bl : Bool) (n : Nibble) (ms : Nat) :
    ∀ e ∈ loneEvents c a bl n ms, e.isLcd = true := isLcd_append (pulse_isLcd c a _) (isLcd_wait _)

theorem initEvents_isLcd (c : Cfg) (a : Nat) : ∀ e ∈ initEvents c a, e.isLcd = true := by
  refine isLcd_append (isLcd_append (isLcd_append (isLcd_append (isLcd_append (isLcd_append (isLcd_append
    (isLcd_append (isLcd_wait _) ?_) ?_) ?_) ?_) ?_) ?_) ?_) ?_
  · exact loneEvents_isLcd c a _ _ _
  · exact loneEvents_isLcd c a _ _ _
  · exact loneEvents_isLcd c a _ _ _
  · cases c.modeNibble with
    | none => simp
    | some n => exact loneEvents_isLcd c a _ n _
  · exact cmdEvents_isLcd c a _ _
  · exact cmdEvents_isLcd c a _ _
  · exact clearEvents_isLcd c a _
  · exact cmdEvents_isLcd c a _ _

theorem wrapEvents_isLcd (c : Cfg) (a : Nat) (bl : Bool) (bs : List Byte) :
    ∀ e ∈ wrapEvents c a bl bs, e.isLcd = true := by
  refine isLcd_flatMap fun r _ => ?_
  split
  · simp
  · exact isLcd_append (cursorEvents_isLcd c a bl r 0) (charsEvents_isLcd c a bl _)

theorem windowEvents_isLcd (c : Cfg) (a : Nat) (bl : Bool) (row d : Nat) (bs : List Byte) (i : Nat) :
    ∀ e ∈ windowEvents c a bl row d bs i, e.isLcd = true := by
  refine isLcd_append (isLcd_append (cursorEvents_isLcd c a bl row 0) (charsEvents_isLcd c a bl _)) ?_
  split
  · exact isLcd_wait d
  · simp

theorem scrollEvents_isLcd (c : Cfg) (a : Nat) (bl : Bool) (row d : Nat) (bs : List Byte) :
    ∀ e ∈ scrollEvents c a bl row d bs, e.isLcd = true := by
  rw [scrollEvents]
  split
  · exact isLcd_append (cursorEvents_isLcd c a bl row 0) (charsEvents_isLcd c a bl bs)
  · exact isLcd_flatMap fun i _ => windowEvents_isLcd c a bl row d bs i

end Sys2Proof.Machine
end

