-- ==== Sys2Proof/Laws/Led.lean ====
section
/-! SUPPORT. The LED channel (R161 to R163) as plain event lists: it never hangs, so each procedure answers. -/

namespace Sys2Proof.Machine

/-- One bit symbol (R162). -/
theorem sendBit_run (v : Bool) {f : Nat} {s t : State} (hf : f = s.cfg.coreHz) (hc : t.cfg = s.cfg) :
    (sendBit f v).run t = .ok () (t.absorbAll (bitEvents s.cfg v)) := by
  subst hf
  cases v <;> (rw [sendBit, theCfg_bind, ← hc]; rfl)

/-- The symbols of a byte, bit 7 first (R55). -/
theorem sendBits_run (b : Byte) {f : Nat} {s t : State} (hf : f = s.cfg.coreHz) (hc : t.cfg = s.cfg) :
    (sendBits f b 8).run t = .ok () (t.absorbAll ((msbFirst b).flatMap (bitEvents s.cfg))) := by
  have step : ∀ (k : Nat) (u : State), u.cfg = s.cfg → (sendBits f b (k + 1)).run u =
      (sendBits f b k).run (u.absorbAll (bitEvents s.cfg (b.getLsbD k))) := by
    intro k u hu
    rw [sendBits, bind_ok (sendBit_run _ hf hu)]
  simp only [msbFirst, List.flatMap_cons, List.flatMap_nil, List.append_nil]
  rw [step 7 t hc]
  rw [step 6 _ (by simpa using hc), step 5 _ (by simpa using hc), step 4 _ (by simpa using hc),
    step 3 _ (by simpa using hc), step 2 _ (by simpa using hc), step 1 _ (by simpa using hc),
    step 0 _ (by simpa using hc)]
  simp only [sendBits, pure_run, absorbAll_append]

/-- A readable buffer (R161). -/
theorem sendBuffer_run {bs : List Byte} {f p : Nat} {s t : State} (hf : f = s.cfg.coreHz)
    (hb : HoldsBytes s.mem p bs) (ha : Alike s t) :
    (sendBuffer f bs.length p).run t = .ok () (t.absorbAll (bufferEvents s.cfg bs)) := by
  induction bs generalizing p t with
  | nil => rfl
  | cons b bs ih =>
    rw [List.length_cons, sendBuffer, bind_ok (memRead_some (b := b) (by rw [ha.2.2.2]; exact hb.head)),
      bind_ok (sendBits_run b hf ha.1), ih hb.tail (ha.absorbAll _), ← absorbAll_append]
    rfl

/-- A buffer that becomes unreadable after `bs` (R161, R191). -/
theorem sendBuffer_badRead {bs : List Byte} {count f p : Nat} {s t : State} (hf : f = s.cfg.coreHz)
    (hb : HoldsBytes s.mem p bs) (hz : Memory.read s.mem (p + bs.length) = none) (hc : bs.length < count)
    (ha : Alike s t) :
    (sendBuffer f count p).run t =
      .error .raised ((t.absorbAll (bufferEvents s.cfg bs)).recordFault (.badRead (p + bs.length))) := by
  induction bs generalizing count p t with
  | nil =>
    obtain ⟨k, rfl⟩ : ∃ k, count = k + 1 := ⟨count - 1, by simp at hc; omega⟩
    rw [sendBuffer, bind_error (memRead_none (by rw [ha.2.2.2]; simpa using hz))]
    rfl
  | cons b bs ih =>
    obtain ⟨k, rfl⟩ : ∃ k, count = k + 1 := ⟨count - 1, by simp at hc; omega⟩
    have hlen : p + (b :: bs).length = p + 1 + bs.length := by simp; omega
    rw [sendBuffer, bind_ok (memRead_some (b := b) (by rw [ha.2.2.2]; exact hb.head)),
      bind_ok (sendBits_run b hf ha.1), ih hb.tail (by rw [← hlen]; exact hz) (by simpa using hc) (ha.absorbAll _),
      ← absorbAll_append, hlen]
    rfl

/-- The reset hold (R163). -/
theorem resetHold_run {f : Nat} {s t : State} (hf : f = s.cfg.coreHz) (hc : t.cfg = s.cfg) :
    (resetHold f).run t = .ok () (t.absorbAll (holdEvents s.cfg)) := by
  subst hf
  rw [resetHold, theCfg_bind, ← hc]
  rfl

/-- `send` of a readable buffer (R161). -/
theorem sendBody_run {bs : List Byte} {p n : Nat} {s : State} (hb : HoldsBytes s.mem p bs) (hn : bs.length = 3 * n) :
    (sendBody p n).run s = .ok () (s.absorbAll (sendEvents s.cfg s.ie bs)) := by
  have h1 : (irqOff s.ie).run s = .ok () (s.absorbAll [.irqOff s.ie]) := rfl
  rw [sendBody, get_bind, bind_ok h1, ← hn, bind_ok (sendBuffer_run rfl hb ((Alike.refl s).absorbAll _)),
    bind_ok (resetHold_run (s := s) rfl (by simp)), ← absorbAll_append, ← absorbAll_append]
  have h2 : ∀ t : State, (irqRestore s.ie).run t = .ok () (t.absorbAll [.irqRestore s.ie]) := fun _ => rfl
  rw [h2, ← absorbAll_append, sendEvents]
  simp only [List.append_assoc]

/-- `send` of a buffer that becomes unreadable after `bs` (R161). -/
theorem sendBody_badRead {bs : List Byte} {p n : Nat} {s : State} (hb : HoldsBytes s.mem p bs)
    (hz : Memory.read s.mem (p + bs.length) = none) (hn : bs.length < 3 * n) :
    (sendBody p n).run s = .error .raised
      ((s.absorbAll ([.irqOff s.ie] ++ bufferEvents s.cfg bs)).recordFault (.badRead (p + bs.length))) := by
  have h1 : (irqOff s.ie).run s = .ok () (s.absorbAll [.irqOff s.ie]) := rfl
  rw [sendBody, get_bind, bind_ok h1,
    bind_error (sendBuffer_badRead rfl hb hz hn ((Alike.refl s).absorbAll _)), ← absorbAll_append]

/-- The line's level after the symbols of a buffer: as it was, or low (R162). -/
theorem bufferEvents_fields (s : State) (bs : List Byte) :
    (s.absorbAll (bufferEvents s.cfg bs)).ie = s.ie ∧ (s.absorbAll (bufferEvents s.cfg bs)).shadow = s.shadow ∧
      xmitCount (bufferEvents s.cfg bs) = 0 ∧
      (s.absorbAll (bufferEvents s.cfg bs)).pin = (if bs = [] then s.pin else false) := by
  have hbit : ∀ (t : State) (v : Bool), (t.absorbAll (bitEvents s.cfg v)).ie = t.ie ∧
      (t.absorbAll (bitEvents s.cfg v)).shadow = t.shadow ∧ xmitCount (bitEvents s.cfg v) = 0 ∧
      (t.absorbAll (bitEvents s.cfg v)).pin = false := by
    intro t v
    cases v <;> simp [bitEvents, State.absorbAll, State.absorb, xmitCount]
  have hbits : ∀ (vs : List Bool) (t : State), (t.absorbAll (vs.flatMap (bitEvents s.cfg))).ie = t.ie ∧
      (t.absorbAll (vs.flatMap (bitEvents s.cfg))).shadow = t.shadow ∧
      xmitCount (vs.flatMap (bitEvents s.cfg)) = 0 ∧
      (t.absorbAll (vs.flatMap (bitEvents s.cfg))).pin = (if vs = [] then t.pin else false) := by
    intro vs
    induction vs with
    | nil => intro t; exact ⟨rfl, rfl, rfl, rfl⟩
    | cons v vs ih =>
      intro t
      obtain ⟨i1, i2, i3, i4⟩ := ih (t.absorbAll (bitEvents s.cfg v))
      obtain ⟨b1, b2, b3, b4⟩ := hbit t v
      rw [List.flatMap_cons, absorbAll_append, xmitCount_append]
      refine ⟨i1.trans b1, i2.trans b2, by rw [b3, i3], ?_⟩
      rw [i4, b4]
      simp
  have hbytes : ∀ (bs : List Byte) (t : State), (t.absorbAll (bufferEvents s.cfg bs)).ie = t.ie ∧
      (t.absorbAll (bufferEvents s.cfg bs)).shadow = t.shadow ∧ xmitCount (bufferEvents s.cfg bs) = 0 ∧
      (t.absorbAll (bufferEvents s.cfg bs)).pin = (if bs = [] then t.pin else false) := by
    intro bs
    induction bs with
    | nil => intro t; exact ⟨rfl, rfl, rfl, rfl⟩
    | cons b bs ih =>
      intro t
      obtain ⟨i1, i2, i3, i4⟩ := ih (t.absorbAll ((msbFirst b).flatMap (bitEvents s.cfg)))
      obtain ⟨b1, b2, b3, b4⟩ := hbits (msbFirst b) t
      have hcons : bufferEvents s.cfg (b :: bs) = (msbFirst b).flatMap (bitEvents s.cfg) ++ bufferEvents s.cfg bs := rfl
      rw [hcons, absorbAll_append, xmitCount_append]
      refine ⟨i1.trans b1, i2.trans b2, by rw [b3, i3], ?_⟩
      rw [i4, b4]
      simp [msbFirst]
  exact hbytes bs s

/-- `LOOPS` without overrides is R164's formula. -/
theorem loops_formula {c : Cfg} (h : c.loopCounts = []) (ns f : Nat) : loops c ns f = ns * f / 1000000000 := by
  rw [loops, h]
  rfl

end Sys2Proof.Machine
end

