-- ==== Sys2Proof/Laws/Ops.lean ====
section
/-! SUPPORT. What stands around a body: `operate`, `finish`, R120's session check, and one step. -/

namespace Sys2Proof.Machine

/-- A configuration is valid when no check fails (R9). -/
theorem failedCheck_eq_none (c : Cfg) : failedCheck c = none ↔ validCfg c = true := by
  simp [failedCheck, validCfg, List.find?_eq_none]

/-- A failed check makes the configuration invalid. -/
theorem failedCheck_eq_some {c : Cfg} {k : ConfigCheck} (h : failedCheck c = some k) : checkHolds c k = false := by
  simpa using List.find?_some h

/-- In a live state an operation runs its body, unless it is refused. -/
theorem operateUnless_live {s : State} (h : s.live) (refusal : Option Refusal) (body : Proc Unit) :
    operateUnless refusal body s =
      match refusal with
      | some r => .refused r
      | none => finish (body.run s) := by
  obtain ⟨h1, h2, h3⟩ := h
  cases refusal <;> simp [operateUnless, (failedCheck_eq_none s.cfg).mpr h1, h2, h3]

/-- In a live state an operation runs its body. -/
theorem operate_live {s : State} (h : s.live) (body : Proc Unit) : operate body s = finish (body.run s) :=
  operateUnless_live h none body

/-- An operation that answers a next state was started in a live state. -/
theorem operateUnless_next {s t : State} {refusal : Option Refusal} {body : Proc Unit}
    (h : operateUnless refusal body s = .next t) : s.live ∧ refusal = none ∧ finish (body.run s) = .next t := by
  unfold operateUnless at h
  split at h
  · cases h
  · rename_i hc
    split at h
    · cases h
    · rename_i hb
      split at h
      · cases h
      · rename_i hf
        split at h
        · cases h
        · exact ⟨⟨(failedCheck_eq_none _).mp hc, by simpa using hb, hf⟩, rfl, h⟩

/-- An invalid configuration refuses every operation (R194). -/
theorem operateUnless_invalid {s : State} {k : ConfigCheck} (h : failedCheck s.cfg = some k)
    (refusal : Option Refusal) (body : Proc Unit) : operateUnless refusal body s = .refused (.invalidConfig k) := by
  simp [operateUnless, h]

/-- An operation inside another one is refused (R204). -/
theorem operateUnless_blocked {s : State} (hv : validCfg s.cfg = true) (hb : s.blocked = true)
    (refusal : Option Refusal) (body : Proc Unit) : operateUnless refusal body s = .refused .concurrentCall := by
  simp [operateUnless, (failedCheck_eq_none s.cfg).mpr hv, hb]

/-- After a fault no operation has a step (R31). -/
theorem operateUnless_faulted {s : State} {f : Fault} (hv : validCfg s.cfg = true) (hb : s.blocked = false)
    (hf : s.fault = some f) (refusal : Option Refusal) (body : Proc Unit) :
    operateUnless refusal body s = .fault f := by
  simp [operateUnless, (failedCheck_eq_none s.cfg).mpr hv, hb, hf]

/-- Every instruction is some operation, which may be refused and has a body. -/
theorem exec_operates (i : Instr) :
    ∃ (refusal : State → Option Refusal) (body : State → Proc Unit),
      ∀ s, exec i s = operateUnless (refusal s) (body s) s := by
  cases i with
  | lcdBlon => exact ⟨noShadowYet, _, fun _ => rfl⟩
  | lcdBloff => exact ⟨noShadowYet, _, fun _ => rfl⟩
  | wsBit0 => exact ⟨fun _ => none, fun s => sendBit s.cfg.coreHz false, fun _ => rfl⟩
  | wsBit1 => exact ⟨fun _ => none, fun s => sendBit s.cfg.coreHz true, fun _ => rfl⟩
  | wsReset => exact ⟨fun _ => none, fun s => resetHold s.cfg.coreHz, fun _ => rfl⟩
  | _ => exact ⟨fun _ => none, fun _ => _, fun _ => rfl⟩

@[simp] theorem finish_ok (s : State) : finish (.ok () s) = .next s.advance := rfl
@[simp] theorem finish_error (e : Stop) (s : State) : finish (.error e s) = .next s := rfl

/-- In a session an LCD operation runs its body (R120). -/
theorem lcdOperation_session {s : State} (h : s.inited = true) (op : Option Byte) (body : Proc Unit) :
    (lcdOperation op body).run s = body.run s := by
  rw [lcdOperation, bind_ok (t := s) (a := ()) (by simp [needSession, EStateM.run, h])]

/-- Before `initialize` it raises `NotInitialized` (R192). -/
theorem lcdOperation_noSession {s : State} (h : s.inited = false) (op : Option Byte) (body : Proc Unit) :
    (lcdOperation op body).run s = .error .raised (s.recordFault (.notInitialized op)) := by
  rw [lcdOperation, bind_error (e := .raised) (t := s.recordFault (.notInitialized op))
    (by simp [needSession, EStateM.run, h])]

/-- An LCD operation in a session whose body plays a list. -/
theorem operate_session {s : State} (h : s.inSession) (op : Option Byte) (body : Proc Unit) :
    operate (lcdOperation op body) s = finish (body.run s) := by
  rw [operate_live h.1, lcdOperation_session h.2]

/-- A step at a word that decodes is the instruction (R21). -/
theorem step_exec {s : State} {w : Word} {i : Instr} (hv : validCfg s.cfg = true) (hb : s.blocked = false)
    (hw : s.program[s.pc]? = some w) (hd : decode w = .ok i) : step s = exec i s := by
  simp [step, (failedCheck_eq_none s.cfg).mpr hv, hb, fetch, hw, hd]

/-- What a step that answers a next state did: it waited inside a transaction, idled at the end, or ran an instruction. -/
theorem step_cases {s t : State} (h : step s = .next t) :
    validCfg s.cfg = true ∧
      ((s.blocked = true ∧ t = s) ∨
        (s.blocked = false ∧ s.program[s.pc]? = none ∧ s.fault = none ∧ t = s) ∨
        (s.blocked = false ∧ ∃ w i, s.program[s.pc]? = some w ∧ decode w = .ok i ∧ exec i s = .next t)) := by
  unfold step at h
  split at h
  · cases h
  · rename_i hc
    refine ⟨(failedCheck_eq_none _).mp hc, ?_⟩
    split at h
    · rename_i hb
      cases h
      exact .inl ⟨hb, rfl⟩
    · rename_i hb
      have hb' : s.blocked = false := by simpa using hb
      split at h
      · rename_i hf
        unfold atEnd at h
        split at h
        · cases h
        · rename_i hfault
          cases h
          exact .inr (.inl ⟨hb', hf, hfault, rfl⟩)
      · rename_i w hw
        split at h
        · cases h
        · rename_i i hi
          exact .inr (.inr ⟨hb', w, i, hw, hi, h⟩)

end Sys2Proof.Machine
end

