-- ==== Sys2Proof/Laws/PerInstr.lean ====
section
/-! SUPPORT. Facts about every instruction as syntax, one lemma for each constructor. -/

/-- The family `Table`: the encoding of an instruction is a word of its own row of the opcode table, the one row of the table
with its mnemonic. -/
def Sys2Proof.Laws.Table.Statement (i : Sys2Proof.Instr) : Prop :=
  ∃ r ∈ Sys2Proof.opcodeTable, r.mnemonic = i.mnemonic ∧ r.spells (Sys2Proof.encode i) = true

namespace Sys2Proof.Laws.Table

/-- A row at a place of the table. -/
theorem of_row {i : Instr} (k : Fin 19) (hm : (opcodeTable[k.val]'(k.isLt)).mnemonic = i.mnemonic)
    (hs : (opcodeTable[k.val]'(k.isLt)).spells (encode i) = true) : Statement i :=
  ⟨opcodeTable[k.val]'(k.isLt), List.getElem_mem _, hm, hs⟩

/-- A host operation's word is spelled by the row with its id, whatever its operands. -/
theorem host_spells {r : Row} (id : Byte) (operands : List Nat) (hf : r.format = .HO) (hw : r.width = 8)
    (hp : id.toNat &&& r.mask = r.pattern) : r.spells (.ho id operands) = true := by
  simp [Row.spells, Word.bits, hf, hw, hp]

theorem lcdInit (bus : BusHandle) (addr : Nat) : Statement (.lcdInit bus addr) := of_row 0 rfl (host_spells _ _ rfl rfl rfl)
theorem lcdClear : Statement .lcdClear := of_row 1 rfl rfl
theorem lcdCursor (row column : Nat) : Statement (.lcdCursor row column) := of_row 2 rfl (host_spells _ _ rfl rfl rfl)
theorem lcdText (p : Nat) : Statement (.lcdText p) := of_row 3 rfl (host_spells _ _ rfl rfl rfl)
theorem lcdBlon : Statement .lcdBlon := of_row 4 rfl rfl
theorem lcdBloff : Statement .lcdBloff := of_row 5 rfl rfl
theorem lcdWrap (p : Nat) : Statement (.lcdWrap p) := of_row 6 rfl (host_spells _ _ rfl rfl rfl)
theorem lcdScroll (row p d : Nat) : Statement (.lcdScroll row p d) := of_row 7 rfl (host_spells _ _ rfl rfl rfl)
theorem ledSend (p n : Nat) : Statement (.ledSend p n) := of_row 8 rfl (host_spells _ _ rfl rfl rfl)
theorem clearDisplay : Statement .clearDisplay := of_row 9 rfl rfl
theorem entryModeSet (i s : Bool) : Statement (.entryModeSet i s) := of_row 10 rfl (by revert i s; decide)
theorem displayControl (d c b : Bool) : Statement (.displayControl d c b) := of_row 11 rfl (by revert d c b; decide)
theorem functionSet (d n f : Bool) (x : BitVec 2) : Statement (.functionSet d n f x) :=
  of_row 12 rfl (by revert d n f x; decide)
theorem setDdramAddress (a : BitVec 7) : Statement (.setDdramAddress a) := of_row 13 rfl (by revert a; decide)
theorem writeData (d : Byte) : Statement (.writeData d) := of_row 14 rfl (by revert d; decide)
theorem initNibble (n : Nibble) : Statement (.initNibble n) := of_row 15 rfl (by revert n; decide)
theorem wsBit0 : Statement .wsBit0 := of_row 16 rfl rfl
theorem wsBit1 : Statement .wsBit1 := of_row 17 rfl rfl
theorem wsReset : Statement .wsReset := of_row 18 rfl rfl

end Sys2Proof.Laws.Table
end

