-- ==== Sys2Proof/Laws/Script.lean ====
section
/-! SUPPORT. What each instruction can do, said once. The script of an instruction is a pure function of what it reads: the
events it emits, and the fault it ends with, if any. Every body equals its script played against the transport, for every
state and every host memory (`exec_script`), and a script has one inversion lemma (`Script.run_cases`). -/

namespace Sys2Proof.Machine

/-- Events, and how the body ends after them. -/
structure Script where
  events : List Event
  ending : Option Fault

/-- More events in front. -/
def Script.after (es : List Event) (sc : Script) : Script := ⟨es ++ sc.events, sc.ending⟩

/-- One script, and another one if the first did not fault. -/
def Script.andThen (sc sd : Script) : Script :=
  match sc.ending with
  | none => ⟨sc.events ++ sd.events, sd.ending⟩
  | some f => ⟨sc.events, some f⟩

/-- How a body ends. -/
def conclude : Option Fault → Proc Unit
  | none => pure ()
  | some f => raise f

/-- A script against the transport. -/
def Script.run (sc : Script) : Proc Unit := do
  play sc.events
  conclude sc.ending

/-- What a script can do: it is played whole and ends as it says, or hangs in the first transaction that never returns. -/
theorem Script.run_cases (sc : Script) (s : State) :
    (s.transportReturns sc.events ∧
        sc.run.run s = (conclude sc.ending).run (s.absorbAll sc.events)) ∨
      ∃ k < xmitCount sc.events, Reply.never ∉ (answers s.bus s.replies s.draws sc.events).take k ∧
        (answers s.bus s.replies s.draws sc.events)[k]? = some .never ∧ sc.run.run s = .error .hung (s.hungIn k sc.events) := by
  rcases play_cases sc.events s with ⟨h0, h⟩ | ⟨k, hk, h1, h2, h⟩
  · exact .inl ⟨h0, bind_ok h⟩
  · exact .inr ⟨k, hk, h1, h2, bind_error h⟩

/-- A list of events that ends well. -/
theorem script_of_play (es : List Event) (s : State) : (play es).run s = (Script.mk es none).run.run s := by
  rcases play_cases es s with ⟨_, h⟩ | ⟨k, _, _, _, h⟩
  · rw [h, Script.run, bind_ok h]
    rfl
  · rw [h, Script.run, bind_error h]

/-- A script after a list. -/
theorem script_after {p : Proc Unit} {q : Unit → Proc Unit} {es : List Event} {sc : Script} {s : State}
    (hp : p.run s = (play es).run s) (hq : (q ()).run (s.absorbAll es) = sc.run.run (s.absorbAll es)) :
    (p >>= q).run s = (Script.after es sc).run.run s := by
  rw [seq_play (r := sc.run) hp hq]
  simp only [Script.run, Script.after, EStateM.run_bind, play_append]
  cases (play es).run s <;> rfl

/-- A script after a script. -/
theorem script_andThen {p : Proc Unit} {q : Unit → Proc Unit} {sc sd : Script} {s : State}
    (hp : p.run s = sc.run.run s)
    (hq : sc.ending = none → (q ()).run (s.absorbAll sc.events) = sd.run.run (s.absorbAll sc.events)) :
    (p >>= q).run s = (sc.andThen sd).run.run s := by
  rcases sc with ⟨es, e⟩
  cases e with
  | none =>
    have hp' : p.run s = (play es).run s := by rw [hp, ← script_of_play]
    exact script_after hp' (hq rfl)
  | some f =>
    rcases Script.run_cases ⟨es, some f⟩ s with ⟨_, h⟩ | ⟨k, _, _, _, h⟩
    · have h' : p.run s = .error .raised ((s.absorbAll es).recordFault f) := hp.trans h
      rw [bind_error h']
      exact h.symm
    · rw [bind_error (hp.trans h)]
      exact h.symm

/-! ### The loops, for every host memory -/

/-- `write_text` (R126). -/
def textScript (c : Cfg) (a : Nat) (bl : Bool) (m : Memory) : Nat → Nat → Script
  | 0, p => ⟨[], some (.badRead p)⟩
  | fuel + 1, p =>
    match Memory.read m p with
    | none => ⟨[], some (.badRead p)⟩
    | some b => if b = 0 then ⟨[], none⟩ else Script.after (dataEvents c a bl b) (textScript c a bl m fuel (p + 1))

/-- A byte is read, or `BadRead` ends the body. -/
theorem memRead_bind {α : Type} (a : Nat) (f : Byte → Proc α) (s : State) :
    (memRead a >>= f).run s =
      match Memory.read s.mem a with
      | some b => (f b).run s
      | none => .error .raised (s.recordFault (.badRead a)) := by
  cases h : Memory.read s.mem a with
  | some b => exact bind_ok (memRead_some h)
  | none => exact bind_error (memRead_none h)

theorem textLoop_script (fuel p : Nat) {s t : State} (ha : Alike s t) :
    (textLoop fuel p).run t = (textScript s.cfg s.addr s.bl s.mem fuel p).run.run t := by
  induction fuel generalizing p t with
  | zero => rfl
  | succ fuel ih =>
    rw [textLoop, textScript, memRead_bind, ha.2.2.2]
    cases h : Memory.read s.mem p with
    | none => rfl
    | some b =>
      by_cases hb : b = 0
      · simp only [hb, if_true]
        rfl
      · simp only [hb, if_false]
        refine script_after ?_ (ih (p + 1) (ha.absorbAll _))
        rw [sendData_play, ha.1, ha.2.1, ha.2.2.1]

/-- One chunk of `write_wrapped`, and whether the string ended in it (R130). -/
def chunkScript (c : Cfg) (a : Nat) (bl : Bool) (m : Memory) : Nat → Nat → Script × Bool
  | 0, _ => (⟨[], none⟩, false)
  | count + 1, p =>
    match Memory.read m p with
    | none => (⟨[], some (.badRead p)⟩, false)
    | some b =>
      if b = 0 then (⟨[], none⟩, true)
      else
        let rest := chunkScript c a bl m count (p + 1)
        (Script.after (dataEvents c a bl b) rest.1, rest.2)

/-- The chunk loop, with any continuation. -/
theorem chunkLoop_script (count p : Nat) {s t : State} (ha : Alike s t) (q : Bool → Proc Unit) :
    (chunkLoop count p >>= q).run t =
      ((chunkScript s.cfg s.addr s.bl s.mem count p).1.run >>= fun _ =>
        q (chunkScript s.cfg s.addr s.bl s.mem count p).2).run t := by
  induction count generalizing p t with
  | zero => rfl
  | succ count ih =>
    rw [chunkLoop, chunkScript, bind_assoc_run, memRead_bind, ha.2.2.2]
    cases h : Memory.read s.mem p with
    | none => rfl
    | some b =>
      by_cases hb : b = 0
      · simp only [hb, if_true]
        rfl
      · simp only [hb, if_false]
        have hd : (sendData b).run t = (play (dataEvents s.cfg s.addr s.bl b)).run t := by
          rw [sendData_play, ha.1, ha.2.1, ha.2.2.1]
        rw [bind_assoc_run, seq_play hd (ih (p + 1) (ha.absorbAll _))]
        simp only [Script.run, Script.after]
        simp only [EStateM.run_bind, play_append]
        cases (play (dataEvents s.cfg s.addr s.bl b)).run t <;> rfl

/-- The rows of `write_wrapped` (R130). -/
def wrapScript (c : Cfg) (a : Nat) (bl : Bool) (m : Memory) (p : Nat) : Nat → Nat → Script
  | 0, _ => ⟨[], none⟩
  | left + 1, r =>
    match Memory.read m (p + r * c.cols) with
    | none => ⟨[], some (.badRead (p + r * c.cols))⟩
    | some b =>
      if b = 0 then ⟨[], none⟩
      else
        let chars := chunkScript c a bl m c.cols (p + r * c.cols)
        Script.after (cursorEvents c a bl r 0)
          (chars.1.andThen (if chars.2 then ⟨[], none⟩ else wrapScript c a bl m p left (r + 1)))

theorem wrapRows_script (p left r : Nat) {s t : State} (ha : Alike s t) :
    (wrapRows p left r).run t = (wrapScript s.cfg s.addr s.bl s.mem p left r).run.run t := by
  induction left generalizing r t with
  | zero => rfl
  | succ left ih =>
    rw [wrapRows, wrapScript, theCfg_bind, memRead_bind, ha.2.2.2, ha.1]
    cases h : Memory.read s.mem (p + r * s.cfg.cols) with
    | none => rfl
    | some b =>
      by_cases hb : b = 0
      · simp only [hb, if_true]
        rfl
      · simp only [hb, if_false]
        refine script_after (by rw [cursorBody_play, ha.1, ha.2.1, ha.2.2.1]) ?_
        have ha' := ha.absorbAll (cursorEvents s.cfg s.addr s.bl r 0)
        generalize t.absorbAll (cursorEvents s.cfg s.addr s.bl r 0) = u at ha'
        rw [chunkLoop_script _ _ ha']
        refine script_andThen rfl fun _ => ?_
        cases (chunkScript s.cfg s.addr s.bl s.mem s.cfg.cols (p + r * s.cfg.cols)).2 with
        | true => rfl
        | false =>
          simp only [Bool.false_eq_true, if_false]
          exact ih (r + 1) (ha'.absorbAll _)

/-- A counted run of characters (R131). -/
def charsScript (c : Cfg) (a : Nat) (bl : Bool) (m : Memory) : Nat → Nat → Script
  | 0, _ => ⟨[], none⟩
  | count + 1, p =>
    match Memory.read m p with
    | none => ⟨[], some (.badRead p)⟩
    | some b => Script.after (dataEvents c a bl b) (charsScript c a bl m count (p + 1))

theorem sendChars_script (count p : Nat) {s t : State} (ha : Alike s t) :
    (sendChars count p).run t = (charsScript s.cfg s.addr s.bl s.mem count p).run.run t := by
  induction count generalizing p t with
  | zero => rfl
  | succ count ih =>
    rw [sendChars, charsScript, memRead_bind, ha.2.2.2]
    cases h : Memory.read s.mem p with
    | none => rfl
    | some b =>
      refine script_after ?_ (ih (p + 1) (ha.absorbAll _))
      rw [sendData_play, ha.1, ha.2.1, ha.2.2.1]

/-- The windows of `scroll_row` (R131). -/
def windowsScript (c : Cfg) (a : Nat) (bl : Bool) (m : Memory) (row d : Nat) : Nat → Nat → Script
  | 0, _ => ⟨[], none⟩
  | left + 1, p =>
    Script.after (cursorEvents c a bl row 0)
      ((charsScript c a bl m c.cols p).andThen
        (Script.after (if (decide (0 < left) || c.scrollTrailingDelay) = true then [.waitMs d] else [])
          (windowsScript c a bl m row d left (p + 1))))

theorem scrollWindows_script (row d left p : Nat) {s t : State} (ha : Alike s t) :
    (scrollWindows row d left p).run t = (windowsScript s.cfg s.addr s.bl s.mem row d left p).run.run t := by
  induction left generalizing p t with
  | zero => rfl
  | succ left ih =>
    rw [scrollWindows, windowsScript, theCfg_bind, ha.1]
    refine script_after (by rw [cursorBody_play, ha.1, ha.2.1, ha.2.2.1]) ?_
    have ha' := ha.absorbAll (cursorEvents s.cfg s.addr s.bl row 0)
    refine script_andThen (sendChars_script _ _ ha') fun _ => ?_
    refine script_after ?_ (ih (p + 1) ((ha'.absorbAll _).absorbAll _))
    rw [stepDelay]
    split <;> rfl

/-- The length of a string, or the unreadable address (R125). -/
def lengthOrBad (m : Memory) : Nat → Nat → Except Nat Nat
  | 0, p => .error p
  | fuel + 1, p =>
    match Memory.read m p with
    | none => .error p
    | some b =>
      if b = 0 then .ok 0
      else
        match lengthOrBad m fuel (p + 1) with
        | .ok n => .ok (n + 1)
        | .error a => .error a

theorem stringLengthFrom_cases (fuel p : Nat) (s : State) :
    (stringLengthFrom fuel p).run s =
      match lengthOrBad s.mem fuel p with
      | .ok n => .ok n s
      | .error a => .error .raised (s.recordFault (.badRead a)) := by
  induction fuel generalizing p with
  | zero => rfl
  | succ fuel ih =>
    rw [stringLengthFrom, lengthOrBad, memRead_bind]
    cases h : Memory.read s.mem p with
    | none => rfl
    | some b =>
      by_cases hb : b = 0
      · simp only [hb, if_true]
        rfl
      · simp only [hb, if_false]
        rw [EStateM.run_bind, ih (p + 1)]
        cases lengthOrBad s.mem fuel (p + 1) <;> rfl

/-- `scroll_row` (R131). -/
def scrollScript (c : Cfg) (a : Nat) (bl : Bool) (m : Memory) (row p d : Nat) : Script :=
  match lengthOrBad m (m.length + 1) p with
  | .error bad => ⟨[], some (.badRead bad)⟩
  | .ok len =>
    if len ≤ c.cols then Script.after (cursorEvents c a bl row 0) (charsScript c a bl m len p)
    else windowsScript c a bl m row d (len - c.cols + 1) p

theorem scrollBody_script (row p d : Nat) (s : State) :
    (scrollBody row p d).run s = (scrollScript s.cfg s.addr s.bl s.mem row p d).run.run s := by
  rw [scrollBody, scrollScript, EStateM.run_bind, stringLength, stringFuel_bind, stringLengthFrom_cases]
  cases h : lengthOrBad s.mem (s.mem.length + 1) p with
  | error bad => rfl
  | ok len =>
    simp only [theCfg_bind]
    by_cases hl : len ≤ s.cfg.cols
    · rw [if_pos hl, if_pos hl]
      exact script_after (cursorBody_play row 0 s) (sendChars_script _ _ ((Alike.refl s).absorbAll _))
    · rw [if_neg hl, if_neg hl]
      exact scrollWindows_script row d _ p (Alike.refl s)

/-- The buffer of `send` (R161). -/
def bufferScript (c : Cfg) (m : Memory) : Nat → Nat → Script
  | 0, _ => ⟨[], none⟩
  | count + 1, p =>
    match Memory.read m p with
    | none => ⟨[], some (.badRead p)⟩
    | some b => Script.after ((msbFirst b).flatMap (bitEvents c)) (bufferScript c m count (p + 1))

/-- LED events never hang. -/
theorem xmitCount_flatMap_bits (c : Cfg) (vs : List Bool) : xmitCount (vs.flatMap (bitEvents c)) = 0 := by
  induction vs with
  | nil => rfl
  | cons v vs ih =>
    rw [List.flatMap_cons, xmitCount_append, ih]
    cases v <;> rfl

theorem sendBuffer_script (count p : Nat) {f : Nat} {s t : State} (hf : f = s.cfg.coreHz) (ha : Alike s t) :
    (sendBuffer f count p).run t = (bufferScript s.cfg s.mem count p).run.run t := by
  induction count generalizing p t with
  | zero => rfl
  | succ count ih =>
    rw [sendBuffer, bufferScript, memRead_bind, ha.2.2.2]
    cases h : Memory.read s.mem p with
    | none => rfl
    | some b =>
      refine script_after ?_ (ih (p + 1) (ha.absorbAll _))
      rw [sendBits_run b hf ha.1, play_quiet (xmitCount_flatMap_bits _ _)]

/-- `send` (R161). -/
def sendScript (c : Cfg) (m : Memory) (ie : Bool) (p n : Nat) : Script :=
  Script.after [.irqOff ie] ((bufferScript c m (3 * n) p).andThen ⟨holdEvents c ++ [.irqRestore ie], none⟩)

theorem sendBody_script (p n : Nat) (s : State) :
    (sendBody p n).run s = (sendScript s.cfg s.mem s.ie p n).run.run s := by
  rw [sendBody, get_bind]
  refine script_after (es := [.irqOff s.ie]) rfl ?_
  refine script_andThen (sendBuffer_script _ _ rfl ((Alike.refl s).absorbAll _)) fun _ => ?_
  rw [← script_of_play]
  refine seq_plays ?_ rfl
  rw [resetHold_run (s := s) rfl (by simp), play_quiet rfl]

/-! ### Every instruction -/

/-- The state an instruction's events start from: a new session, a new flag, or the state itself. -/
def prep (i : Instr) (s : State) : State :=
  match i with
  | .lcdInit bus addr => if s.inited then s else s.openSession bus addr
  | .lcdBlon => if s.inited then s.setBl true else s
  | .lcdBloff => if s.inited then s.setBl false else s
  | _ => s

/-- The script of an LCD operation: R120's check, then its own. -/
def sessionScript (s : State) (op : Option Byte) (sc : Script) : Script :=
  if s.inited then sc else ⟨[], some (.notInitialized op)⟩

/-- The script of each instruction. A backlight operation has one only where a byte has been written (R127). -/
def script (i : Instr) (s : State) : Option Script :=
  match i with
  | .lcdInit _ addr => some (if s.inited then ⟨[], some .reInit⟩ else ⟨initEvents s.cfg addr, none⟩)
  | .lcdClear => some (sessionScript s (some 0x02) ⟨clearEvents s.cfg s.addr s.bl, none⟩)
  | .lcdCursor row column => some (sessionScript s (some 0x03) ⟨cursorEvents s.cfg s.addr s.bl row column, none⟩)
  | .lcdText p => some (sessionScript s (some 0x04) (textScript s.cfg s.addr s.bl s.mem (s.mem.length + 1) p))
  | .lcdBlon =>
    if s.inited then s.shadow.map fun b => ⟨[.xmit s.addr [b ||| s.cfg.blMask]], none⟩
    else some ⟨[], some (.notInitialized (some 0x05))⟩
  | .lcdBloff =>
    if s.inited then s.shadow.map fun b => ⟨[.xmit s.addr [b &&& ~~~s.cfg.blMask]], none⟩
    else some ⟨[], some (.notInitialized (some 0x06))⟩
  | .lcdWrap p => some (sessionScript s (some 0x07) (wrapScript s.cfg s.addr s.bl s.mem p s.cfg.rows 0))
  | .lcdScroll row p d => some (sessionScript s (some 0x08) (scrollScript s.cfg s.addr s.bl s.mem row p d))
  | .ledSend p n => some (sendScript s.cfg s.mem s.ie p n)
  | .clearDisplay => some (sessionScript s none ⟨cmdEvents s.cfg s.addr s.bl 0x01, none⟩)
  | .entryModeSet x y => some (sessionScript s none ⟨cmdEvents s.cfg s.addr s.bl (entryModeByte x y), none⟩)
  | .displayControl x y z => some (sessionScript s none ⟨cmdEvents s.cfg s.addr s.bl (displayControlByte x y z), none⟩)
  | .functionSet x y z w => some (sessionScript s none ⟨cmdEvents s.cfg s.addr s.bl (functionSetByte x y z w), none⟩)
  | .setDdramAddress a => some (sessionScript s none ⟨cmdEvents s.cfg s.addr s.bl (setDdramByte a), none⟩)
  | .writeData b => some (sessionScript s none ⟨dataEvents s.cfg s.addr s.bl b, none⟩)
  | .initNibble n => some (sessionScript s none ⟨pulse s.cfg s.addr (frame s.cfg s.bl n false), none⟩)
  | .wsBit0 => some ⟨bitEvents s.cfg false, none⟩
  | .wsBit1 => some ⟨bitEvents s.cfg true, none⟩
  | .wsReset => some ⟨holdEvents s.cfg, none⟩

/-- An LCD operation is its script. -/
theorem lcdOperation_script {s : State} (op : Option Byte) {body : Proc Unit} {sc : Script}
    (h : s.inited = true → body.run s = sc.run.run s) :
    (lcdOperation op body).run s = (sessionScript s op sc).run.run s := by
  cases hi : s.inited with
  | true =>
    rw [lcdOperation_session hi, h hi]
    simp [sessionScript, hi]
  | false =>
    rw [lcdOperation_noSession hi]
    simp only [sessionScript, hi, Bool.false_eq_true, if_false]
    rfl

/-- Every instruction in a live state is its script, played from its starting state; without a script it is refused. -/
theorem exec_script (i : Instr) {s : State} (h : s.live) :
    exec i s =
      match script i s with
      | some sc => finish (sc.run.run (prep i s))
      | none => .refused .noShadow := by
  cases i with
  | lcdInit bus addr =>
    rw [exec, execLcdInit, operate_live h]
    cases hi : s.inited with
    | true => rw [initBody_reInit bus addr hi]; simp only [script, prep, hi, if_true]; rfl
    | false =>
      rw [initBody_play bus addr hi, script_of_play]
      simp [script, prep, hi]
  | lcdClear =>
    rw [exec, execLcdClear, operate_live h, lcdOperation_script _ fun _ => (clearBody_play s).trans (script_of_play _ s)]
    rfl
  | lcdCursor row column =>
    rw [exec, execLcdCursor, operate_live h,
      lcdOperation_script _ fun _ => (cursorBody_play row column s).trans (script_of_play _ s)]
    rfl
  | lcdText p =>
    rw [exec, execLcdText, operate_live h,
      lcdOperation_script (sc := textScript s.cfg s.addr s.bl s.mem (s.mem.length + 1) p) _ fun _ => by
        rw [textBody, stringFuel_bind, textLoop_script _ _ (Alike.refl s)]]
    rfl
  | lcdBlon =>
    rw [exec, execLcdBlon, operateUnless_live h]
    cases hi : s.inited with
    | true =>
      cases hs : s.shadow with
      | none => simp [noShadowYet, script, hi, hs]
      | some b =>
        simp only [noShadowYet, hi, hs, Option.isNone_some, Bool.and_false, Bool.false_eq_true, if_false]
        rw [lcdOperation_session hi, backlightOnBody_play hs, script_of_play]
        simp [script, prep, hi, hs]
    | false =>
      simp only [noShadowYet, hi, Bool.false_and, Bool.false_eq_true, if_false]
      rw [lcdOperation_noSession hi]
      simp only [script, prep, hi, Bool.false_eq_true, if_false]
      rfl
  | lcdBloff =>
    rw [exec, execLcdBloff, operateUnless_live h]
    cases hi : s.inited with
    | true =>
      cases hs : s.shadow with
      | none => simp [noShadowYet, script, hi, hs]
      | some b =>
        simp only [noShadowYet, hi, hs, Option.isNone_some, Bool.and_false, Bool.false_eq_true, if_false]
        rw [lcdOperation_session hi, backlightOffBody_play hs, script_of_play]
        simp [script, prep, hi, hs]
    | false =>
      simp only [noShadowYet, hi, Bool.false_and, Bool.false_eq_true, if_false]
      rw [lcdOperation_noSession hi]
      simp only [script, prep, hi, Bool.false_eq_true, if_false]
      rfl
  | lcdWrap p =>
    rw [exec, execLcdWrap, operate_live h,
      lcdOperation_script (sc := wrapScript s.cfg s.addr s.bl s.mem p s.cfg.rows 0) _ fun _ => by
        rw [wrapBody, theCfg_bind, wrapRows_script _ _ _ (Alike.refl s)]]
    rfl
  | lcdScroll row p d =>
    rw [exec, execLcdScroll, operate_live h, lcdOperation_script _ fun _ => scrollBody_script row p d s]
    rfl
  | ledSend p n =>
    rw [exec, execLedSend, operate_live h, sendBody_script]
    rfl
  | clearDisplay =>
    rw [exec, execClearDisplay, operate_live h, commandTransfer,
      lcdOperation_script _ fun _ => (sendCmd_play _ s).trans (script_of_play _ s)]
    rfl
  | entryModeSet x y =>
    rw [exec, execEntryModeSet, operate_live h, commandTransfer,
      lcdOperation_script _ fun _ => (sendCmd_play _ s).trans (script_of_play _ s)]
    rfl
  | displayControl x y z =>
    rw [exec, execDisplayControl, operate_live h, commandTransfer,
      lcdOperation_script _ fun _ => (sendCmd_play _ s).trans (script_of_play _ s)]
    rfl
  | functionSet x y z w =>
    rw [exec, execFunctionSet, operate_live h, commandTransfer,
      lcdOperation_script _ fun _ => (sendCmd_play _ s).trans (script_of_play _ s)]
    rfl
  | setDdramAddress a =>
    rw [exec, execSetDdramAddress, operate_live h, commandTransfer,
      lcdOperation_script _ fun _ => (sendCmd_play _ s).trans (script_of_play _ s)]
    rfl
  | writeData b =>
    rw [exec, execWriteData, operate_live h, lcdOperation_script _ fun _ => (sendData_play b s).trans (script_of_play _ s)]
    rfl
  | initNibble n =>
    rw [exec, execInitNibble, operate_live h,
      lcdOperation_script _ fun _ => (sendNibble_play n false s).trans (script_of_play _ s)]
    rfl
  | wsBit0 =>
    rw [exec, execWsBit0, operate_live h, sendBit_run (s := s) false rfl rfl, ← play_quiet (by rfl), script_of_play]
    rfl
  | wsBit1 =>
    rw [exec, execWsBit1, operate_live h, sendBit_run (s := s) true rfl rfl, ← play_quiet (by rfl), script_of_play]
    rfl
  | wsReset =>
    rw [exec, execWsReset, operate_live h, resetHold_run (s := s) rfl rfl, ← play_quiet (by rfl), script_of_play]
    rfl

/-- What an instruction that answers a next state has done: it played its script whole and completed, played it and raised
its fault, or hangs in it. -/
theorem exec_next {i : Instr} {s t : State} (h : exec i s = .next t) :
    s.live ∧ ∃ sc, script i s = some sc ∧
      (((prep i s).transportReturns sc.events ∧
          ((sc.ending = none ∧ t = ((prep i s).absorbAll sc.events).advance) ∨
            ∃ f, sc.ending = some f ∧ t = ((prep i s).absorbAll sc.events).recordFault f)) ∨
        ∃ k < xmitCount sc.events,
          Reply.never ∉ (answers (prep i s).bus (prep i s).replies (prep i s).draws sc.events).take k ∧
          (answers (prep i s).bus (prep i s).replies (prep i s).draws sc.events)[k]? = some .never ∧
          t = (prep i s).hungIn k sc.events) := by
  have hl : s.live := by
    obtain ⟨refusal, body, he⟩ := exec_operates i
    rw [he] at h
    exact (operateUnless_next h).1
  refine ⟨hl, ?_⟩
  rw [exec_script i hl] at h
  cases hs : script i s with
  | none => rw [hs] at h; cases h
  | some sc =>
    rw [hs] at h
    refine ⟨sc, rfl, ?_⟩
    rcases Script.run_cases sc (prep i s) with ⟨h0, hr⟩ | ⟨k, hk, h1, h2, hr⟩
    · refine .inl ⟨h0, ?_⟩
      simp only [hr] at h
      cases he : sc.ending with
      | none =>
        rw [he] at h
        cases h
        exact .inl ⟨rfl, rfl⟩
      | some f =>
        rw [he] at h
        cases h
        exact .inr ⟨f, rfl, rfl⟩
    · refine .inr ⟨k, hk, h1, h2, ?_⟩
      simp only [hr] at h
      cases h
      rfl

/-- What the starting state of an instruction shares with the state: everything but the session. -/
theorem prep_fields (i : Instr) (s : State) :
    (prep i s).cfg = s.cfg ∧ (prep i s).shadow = s.shadow ∧ (prep i s).pin = s.pin ∧ (prep i s).ie = s.ie ∧
      (prep i s).fault = s.fault ∧ (prep i s).trace = s.trace ∧ (prep i s).pc = s.pc ∧
      (prep i s).program = s.program ∧ (prep i s).mem = s.mem ∧ (prep i s).replies = s.replies ∧
      (prep i s).draws = s.draws ∧ (prep i s).blocked = s.blocked := by
  cases i <;> simp only [prep] <;> (try split) <;> simp

/-- Where every transaction returns, an instruction plays its whole script. -/
theorem exec_returns (i : Instr) {s : State} (h : s.live) {sc : Script} (hs : script i s = some sc)
    (hr : (prep i s).transportReturns sc.events) :
    exec i s = finish ((conclude sc.ending).run ((prep i s).absorbAll sc.events)) := by
  rw [exec_script i h, hs]
  rcases Script.run_cases sc (prep i s) with ⟨_, hrun⟩ | ⟨k, _, _, h2, _⟩
  · simp only [hrun]
  · exact absurd (List.mem_of_getElem? h2) hr

/-- Where every transaction returns and the script ends well, the instruction completes with the script's events. -/
theorem completes_of_script (i : Instr) {s : State} (h : s.live) {es : List Event}
    (hs : script i s = some ⟨es, none⟩) (hr : (prep i s).transportReturns es) {Q : List Event → Prop} (hq : Q es) :
    Completes i s Q := by
  obtain ⟨_, _, _, _, hf, ht, hpc, _, _, _, _, hb⟩ := prep_fields i s
  refine ⟨((prep i s).absorbAll es).advance, es, by rw [exec_returns i h hs hr]; rfl, ?_, ?_, ?_, ?_, hq⟩
  · simp [hpc]
  · simp [hf, h.2.2]
  · simp [hb, h.2.1]
  · simp [ht]

end Sys2Proof.Machine
end

