-- ==== Sys2Proof/WellFormed.lean ====
section
/-! DEFINITION. When an instruction is one a correct host issues or the block emits. The machine itself checks none of
this: it carries the bus address unchecked (R25) and sends any character byte it is given (R105). -/

namespace Sys2Proof

/-- The values of a bus address in each form: a 7-bit device address, or one shifted left into 8 bits (R25, R50). -/
def AddrForm.admits : AddrForm → Nat → Bool
  | .sevenBit, a => decide (a < 128)
  | .leftShifted, a => decide (a < 256) && decide (a % 2 = 0)

/-- Well-formed under an address form: the bus address has the form, and a character byte is not zero (R89: "WRITE_DATA
0x00 is never emitted"). Every other operand may take every value of its type (R77, R81, R85). DESIGN CHOICE, log 19. -/
def Instr.wellFormed (form : AddrForm) : Instr → Bool
  | .lcdInit _ addr => form.admits addr
  | .lcdClear => true
  | .lcdCursor _ _ => true
  | .lcdText _ => true
  | .lcdBlon => true
  | .lcdBloff => true
  | .lcdWrap _ => true
  | .lcdScroll _ _ _ => true
  | .ledSend _ _ => true
  | .clearDisplay => true
  | .entryModeSet _ _ => true
  | .displayControl _ _ _ => true
  | .functionSet _ _ _ _ => true
  | .setDdramAddress _ => true
  | .writeData character => character != 0
  | .initNibble _ => true
  | .wsBit0 => true
  | .wsBit1 => true
  | .wsReset => true

end Sys2Proof
end

