-- ==== Sys2Proof/Tests/Slice0.lean ====
section
/-! SUPPORT. Tests: the expected results are the spec's own vectors (95_test_vectors.md, cited as V<n> and P<n>) and examples
(R<n>); and for each statement that has hypotheses a witness that meets them. -/

namespace Sys2Proof.Tests

open Sys2Proof Sys2Proof.Machine

/-! ### A small state -/

/-- R8's defaults for a geometry with the open parameters fixed. -/
def testCfg (cols rows : Nat) : Cfg := { defaultCfg cols rows with addrForm := .sevenBit, coreHz := 72000000 }

/-- After reset, on a transport that acknowledges the coming transactions, enough of them for every test. -/
def fresh : State := { State.resetWith (testCfg 16 2) with replies := List.replicate 204 (.returned .ok) }

/-- The vectors' "pre-initialised" state: bus address 0x27, `bl` 1, `shadow` 0x68. -/
def ready : State := { fresh with inited := true, addr := 0x27, bl := true, shadow := some 0x68 }

/-- The same with bytes in host memory from 0x100 on. -/
def holding (bs : List Byte) : State := { ready with mem := Memory.writeList [] 0x100 bs }

/-- The letters from A on, as in the vectors' long strings. -/
def letters (n : Nat) : List Byte := (List.range n).map fun k => BitVec.ofNat 8 (0x41 + k)

/-- A byte to the expander. -/
def x (b : Byte) : Event := .xmit 0x27 [b]

/-- A delay. -/
def w (n : Nat) : Event := .waitMs n

/-- An outcome as a sum, which can be compared. -/
def plain : Host.Outcome State Fault Refusal → State ⊕ Fault ⊕ Refusal
  | .next t => .inl t
  | .fault f => .inr (.inl f)
  | .refused r => .inr (.inr r)

/-- The next state's trace and shadow; no other outcome has one. -/
def seen : Host.Outcome State Fault Refusal → Option (List Event × Option Byte)
  | .next t => some (t.trace, t.shadow)
  | .fault _ => none
  | .refused _ => none

/-- The next state's fault and trace. -/
def ended : Host.Outcome State Fault Refusal → Option (Option Fault × List Event)
  | .next t => some (t.fault, t.trace)
  | .fault _ => none
  | .refused _ => none

/-- Transactions, delays and total delay of the next state's trace, as the vectors count them. -/
def counts : Host.Outcome State Fault Refusal → Option (Nat × Nat × Nat)
  | .next t => some (xmitCount t.trace, (waitArgs t.trace).length, waitTotal t.trace)
  | .fault _ => none
  | .refused _ => none

/-- The words an HD44780 receives in the next state's trace. -/
def words : Host.Outcome State Fault Refusal → Option (List (BitVec 9))
  | .next t => some (pairUp (observed t.cfg (some 0x68) t.trace))
  | .fault _ => none
  | .refused _ => none

/-! ### Well-formedness -/

/-- Ill-formed: an 8-bit value as a 7-bit address, an odd or too wide left-shifted one, and the character byte 0 (R25, R89). -/
theorem test_ill_formed :
    (Instr.lcdInit ⟨0⟩ 0x80).wellFormed .sevenBit = false ∧ (Instr.lcdInit ⟨0⟩ 0x4F).wellFormed .leftShifted = false ∧
      (Instr.lcdInit ⟨0⟩ 0x100).wellFormed .leftShifted = false ∧ (Instr.writeData 0x00).wellFormed .sevenBit = false := by
  decide

theorem test_well_formed :
    (Instr.lcdInit ⟨0⟩ 0x27).wellFormed .sevenBit = true ∧ (Instr.lcdInit ⟨0⟩ 0x4E).wellFormed .leftShifted = true ∧
      (Instr.writeData 0x01).wellFormed .sevenBit = true ∧ (Instr.lcdCursor 99 99).wellFormed .sevenBit = true := by
  decide

/-! ### Decoding: every constructor, from words written out from R77, R81, R83, R84 and R85 -/

theorem test_decode_host :
    decode (.ho 0x01 [7, 0x27]) = .ok (.lcdInit ⟨7⟩ 0x27) ∧ decode (.ho 0x02 []) = .ok .lcdClear ∧
    decode (.ho 0x03 [1, 3]) = .ok (.lcdCursor 1 3) ∧ decode (.ho 0x04 [0x100]) = .ok (.lcdText 0x100) ∧
    decode (.ho 0x05 []) = .ok .lcdBlon ∧ decode (.ho 0x06 []) = .ok .lcdBloff ∧
    decode (.ho 0x07 [0x200]) = .ok (.lcdWrap 0x200) ∧ decode (.ho 0x08 [0, 0x300, 200]) = .ok (.lcdScroll 0 0x300 200) ∧
    decode (.ho 0x10 [0x400, 2]) = .ok (.ledSend 0x400 2) :=
  ⟨rfl, rfl, rfl, rfl, rfl, rfl, rfl, rfl, rfl⟩

theorem test_decode_bus_words :
    decode (.lc 0b000000001) = .ok .clearDisplay ∧ decode (.lc 0b000000110) = .ok (.entryModeSet true false) ∧
    decode (.lc 0b000000101) = .ok (.entryModeSet false true) ∧
    decode (.lc 0b000001100) = .ok (.displayControl true false false) ∧
    decode (.lc 0b000001010) = .ok (.displayControl false true false) ∧
    decode (.lc 0b000101000) = .ok (.functionSet false true false 0) ∧
    decode (.lc 0b000110110) = .ok (.functionSet true false true 2) ∧
    decode (.lc 0b011000011) = .ok (.setDdramAddress 0x43) ∧ decode (.lc 0b101001000) = .ok (.writeData 0x48) :=
  ⟨rfl, rfl, rfl, rfl, rfl, rfl, rfl, rfl, rfl⟩

theorem test_decode_line_symbols :
    decode (.ln 0b00011) = .ok (.initNibble 0x3) ∧ decode (.wb 0b0) = .ok .wsBit0 ∧ decode (.wb 0b1) = .ok .wsBit1 ∧
      decode .hold = .ok .wsReset :=
  ⟨rfl, rfl, rfl, rfl⟩

/-- V113 and R88: an unlisted id; return home, shift, CGRAM address and the empty command; a lone nibble with RS = 1. -/
theorem test_decode_refuses :
    decode (.ho 0x09 []) = .error (.illegalOp 0x09) ∧ decode (.ho 0x03 [1]) = .error (.operandCount 0x03) ∧
    decode (.lc 0b000000010) = .error (.neverEmitted 0b000000010) ∧
    decode (.lc 0b000010000) = .error (.neverEmitted 0b000010000) ∧
    decode (.lc 0b001000000) = .error (.neverEmitted 0b001000000) ∧
    decode (.lc 0) = .error (.neverEmitted 0) ∧ decode (.ln 0b10011) = .error (.loneData 0b10011) :=
  ⟨rfl, rfl, rfl, rfl, rfl, rfl, rfl⟩

theorem test_table_words :
    decodeTableWord 8 0x10 = some (.ledSend 0 0) ∧ decodeTableWord 16 0x0C3 = some (.setDdramAddress 0x43) ∧
      decodeTableWord 5 0x03 = some (.initNibble 0x3) ∧ decodeTableWord 1 1 = some .wsBit1 ∧
      decodeTableWord 0 0 = some .wsReset ∧ decodeTableWord 8 0x11 = none := by
  decide

/-! ### Frames, cells and busy-waits -/

/-- V1 to V9. -/
theorem test_frame :
    let c := fun off => { testCfg 16 2 with nibOff := off }
    [frame (c 4) true 0x0 false, frame (c 4) false 0x0 false, frame (c 4) true 0xF false, frame (c 4) true 0xA true,
      frame (c 4) false 0x8 true, frame (c 3) true 0xF false, frame (c 3) false 0x1 false, frame (c 5) true 0xA true,
      frame (c 5) false 0x8 true] = [0x08, 0x00, 0xF8, 0xA9, 0x81, 0x78, 0x08, 0x49, 0x01] := by
  decide +kernel

/-- V30 to V41. -/
theorem test_cursor_commands :
    let cell := fun cols rows r k => ddramCommand (cellAddress (testCfg cols rows) r k)
    [cell 16 2 0 0, cell 16 2 1 3, cell 16 2 1 15, cell 20 4 2 5, cell 20 4 3 19, cell 20 2 1 5, cell 16 4 2 7,
      cell 16 2 7 200, cell 20 4 9 9, cell 8 1 5 5, cell 16 4 3 0, cell 100 2 1 99]
      = [0x80, 0xC3, 0xCF, 0x99, 0xE7, 0xC5, 0xC7, 0xCF, 0xDD, 0x85, 0xC0, 0xA3] := by
  decide +kernel

/-- V97 to V99. -/
theorem test_loops :
    ([400, 850, 800, 450, 300000].map fun ns => loops (testCfg 16 2) ns 72000000) = [28, 61, 57, 32, 21600] ∧
    ([400, 850, 800, 450, 300000].map fun ns => loops (testCfg 16 2) ns 16000000) = [6, 13, 12, 7, 4800] ∧
    ([400, 850, 800, 450, 300000].map fun ns => loops (testCfg 16 2) ns 2000000) = [0, 1, 1, 0, 600] := by
  decide +kernel

/-! ### LCD operations -/

/-- V20, P1. -/
theorem test_init_trace :
    seen (exec (.lcdInit ⟨1⟩ 0x27) fresh) = some (
      [w 50, x 0x38, x 0x3C, w 1, x 0x38, w 1, w 5, x 0x38, x 0x3C, w 1, x 0x38, w 1, w 2,
        x 0x38, x 0x3C, w 1, x 0x38, w 1, w 1, x 0x28, x 0x2C, w 1, x 0x28, w 1, w 1]
      ++ [x 0x28, x 0x2C, w 1, x 0x28, w 1, x 0x88, x 0x8C, w 1, x 0x88, w 1, w 2]
      ++ [x 0x08, x 0x0C, w 1, x 0x08, w 1, x 0xC8, x 0xCC, w 1, x 0xC8, w 1, w 2]
      ++ [x 0x08, x 0x0C, w 1, x 0x08, w 1, x 0x18, x 0x1C, w 1, x 0x18, w 1, w 2, w 2]
      ++ [x 0x08, x 0x0C, w 1, x 0x08, w 1, x 0x68, x 0x6C, w 1, x 0x68, w 1, w 2], some 0x68) := by
  decide +kernel

/-- V22. -/
theorem test_init_twice : plain (exec (.lcdInit ⟨1⟩ 0x27) ready) = .inl { ready with fault := some .reInit } := by
  decide +kernel

/-- V23. -/
theorem test_clear :
    seen (exec .lcdClear ready) = some (
      [x 0x08, x 0x0C, w 1, x 0x08, w 1, x 0x18, x 0x1C, w 1, x 0x18, w 1, w 2, w 2], some 0x18) := by
  decide +kernel

/-- V25. -/
theorem test_clear_first :
    plain (exec .lcdClear fresh) = .inl { fresh with fault := some (.notInitialized (some 0x02)) } := by
  decide +kernel

/-- V42. -/
theorem test_cursor :
    seen (exec (.lcdCursor 1 3) ready) = some (
      [x 0xC8, x 0xCC, w 1, x 0xC8, w 1, x 0x38, x 0x3C, w 1, x 0x38, w 1, w 2], some 0x38) := by
  decide +kernel

/-- V45; V116: the same with every transaction failing. -/
theorem test_text :
    let hi := [x 0x49, x 0x4D, w 1, x 0x49, w 1, x 0x89, x 0x8D, w 1, x 0x89, w 1, w 1,
      x 0x69, x 0x6D, w 1, x 0x69, w 1, x 0x99, x 0x9D, w 1, x 0x99, w 1, w 1]
    seen (exec (.lcdText 0x100) (holding [0x48, 0x69, 0x00])) = some (hi, some 0x99) ∧
    seen (exec (.lcdText 0x100)
      { holding [0x48, 0x69, 0x00] with replies := List.replicate 12 (.returned .fail) }) = some (hi, some 0x99) := by
  decide +kernel

/-- V48, and V115: the session is checked before the string is read. -/
theorem test_text_faults :
    (ended (exec (.lcdText 0x100) (holding [0x48, 0x69]))).map (fun r => (r.1, r.2.length))
      = some (some (.badRead 0x102), 22) ∧
    ended (exec (.lcdText 0x100) fresh) = some (some (.notInitialized (some 0x04)), []) := by
  decide +kernel

/-- V51 and V52. -/
theorem test_backlight_on :
    seen (exec .lcdBlon { ready with shadow := some 0x91, bl := false }) = some ([x 0x99], some 0x99) ∧
      seen (exec .lcdBlon ready) = some ([x 0x68], some 0x68) := by
  decide +kernel

/-- V50 and V53. -/
theorem test_backlight_off :
    seen (exec .lcdBloff { ready with shadow := some 0x99 }) = some ([x 0x91], some 0x91) ∧
      seen (exec .lcdBloff ready) = some ([x 0x60], some 0x60) := by
  decide +kernel

/-- V61 and V63. -/
theorem test_wrap :
    counts (exec (.lcdWrap 0x100) (holding [0x48, 0x65, 0x6C, 0x6C, 0x6F, 0x00])) = some (36, 30, 31) ∧
      words (exec (.lcdWrap 0x100) (holding (letters 17 ++ [0x00])))
        = some (0x080 :: (letters 16).map (fun b => 1#1 ++ b) ++ [0x0C0, 0x151]) := by
  decide +kernel

/-- V65: text beyond the last row is neither read nor sent; host memory ends after the 32 bytes. -/
theorem test_wrap_full : counts (exec (.lcdWrap 0x100) (holding (letters 32))) = some (204, 170, 172) := by
  decide +kernel

/-- V72. -/
theorem test_scroll :
    counts (exec (.lcdScroll 5 0x100 0) (holding (letters 17 ++ [0x00]))) = some (204, 171, 172) ∧
      words (exec (.lcdScroll 5 0x100 0) (holding (letters 17 ++ [0x00])))
        = some (0x0C0 :: (letters 16).map (fun b => 1#1 ++ b)
          ++ 0x0C0 :: ((letters 17).drop 1).map (fun b => 1#1 ++ b)) := by
  decide +kernel

/-- V75. -/
theorem test_scroll_bad_read :
    ended (exec (.lcdScroll 0 0x100 10) (holding (letters 20))) = some (some (.badRead 0x114), []) := by
  decide +kernel

/-! ### Bus words and lone nibbles -/

/-- P1's CLEAR_CMD and ENTRY_MODE rows. -/
theorem test_clear_display_entry_mode :
    seen (exec .clearDisplay ready)
      = some ([x 0x08, x 0x0C, w 1, x 0x08, w 1, x 0x18, x 0x1C, w 1, x 0x18, w 1, w 2], some 0x18) ∧
    seen (exec (.entryModeSet true false) ready)
      = some ([x 0x08, x 0x0C, w 1, x 0x08, w 1, x 0x68, x 0x6C, w 1, x 0x68, w 1, w 2], some 0x68) := by
  decide +kernel

/-- P1's FUNCTION_SET and DISPLAY_CTRL rows. -/
theorem test_function_set_display_control :
    seen (exec (.functionSet false true false 0) ready)
      = some ([x 0x28, x 0x2C, w 1, x 0x28, w 1, x 0x88, x 0x8C, w 1, x 0x88, w 1, w 2], some 0x88) ∧
    seen (exec (.displayControl true false false) ready)
      = some ([x 0x08, x 0x0C, w 1, x 0x08, w 1, x 0xC8, x 0xCC, w 1, x 0xC8, w 1, w 2], some 0xC8) := by
  decide +kernel

/-- V11 and V12. -/
theorem test_set_ddram_address :
    seen (exec (.setDdramAddress 0x00) ready)
      = some ([x 0x88, x 0x8C, w 1, x 0x88, w 1, x 0x08, x 0x0C, w 1, x 0x08, w 1, w 2], some 0x08) ∧
    seen (exec (.setDdramAddress 0x7F) ready)
      = some ([x 0xF8, x 0xFC, w 1, x 0xF8, w 1, x 0xF8, x 0xFC, w 1, x 0xF8, w 1, w 2], some 0xF8) := by
  decide +kernel

/-- V13 to V16. -/
theorem test_write_data :
    let offset := fun off flag => { ready with cfg := { testCfg 16 2 with nibOff := off }, bl := flag }
    seen (exec (.writeData 0x41) ready)
      = some ([x 0x49, x 0x4D, w 1, x 0x49, w 1, x 0x19, x 0x1D, w 1, x 0x19, w 1, w 1], some 0x19) ∧
    seen (exec (.writeData 0x41) (offset 4 false))
      = some ([x 0x41, x 0x45, w 1, x 0x41, w 1, x 0x11, x 0x15, w 1, x 0x11, w 1, w 1], some 0x11) ∧
    seen (exec (.writeData 0xC5) (offset 5 true))
      = some ([x 0x89, x 0x8D, w 1, x 0x89, w 1, x 0xA9, x 0xAD, w 1, x 0xA9, w 1, w 1], some 0xA9) ∧
    seen (exec (.writeData 0x31) (offset 3 false))
      = some ([x 0x19, x 0x1D, w 1, x 0x19, w 1, x 0x09, x 0x0D, w 1, x 0x09, w 1, w 1], some 0x09) := by
  decide +kernel

/-- V10 and V18. -/
theorem test_init_nibble :
    seen (exec (.initNibble 0x8) ready) = some ([x 0x88, x 0x8C, w 1, x 0x88, w 1], some 0x88) ∧
    seen (exec (.initNibble 0x8) { ready with cfg := { testCfg 16 2 with presetWrite := false } })
      = some ([x 0x8C, w 1, x 0x88, w 1], some 0x88) := by
  decide +kernel

/-! ### The LED channel -/

/-- A bit symbol at 72 MHz (R162). -/
def symbol (v : Bool) : List Event :=
  if v then [.pin true, .spin 800 57, .pin false, .spin 450 32] else [.pin true, .spin 400 28, .pin false, .spin 850 61]

/-- V90 and V96: the frame needs no session. -/
theorem test_send :
    (ended (exec (.ledSend 0x100 1) { holding [0xFF, 0x00, 0x81] with inited := false })) = some (none,
      [.irqOff true] ++ ([true, true, true, true, true, true, true, true, false, false, false, false, false, false, false,
        false, true, false, false, false, false, false, false, true].flatMap symbol)
      ++ [.pin false, .spin 300000 21600, .irqRestore true]) := by
  decide +kernel

/-- V92 to V94: no LED, interrupts that stay off, and an unreadable byte. -/
theorem test_send_corners :
    ended (exec (.ledSend 0x100 0) fresh)
      = some (none, [.irqOff true, .pin false, .spin 300000 21600, .irqRestore true]) ∧
    plain (exec (.ledSend 0x100 0) { fresh with ie := false })
      = .inl { fresh with ie := false, pin := false, pc := 1, trace :=
          [.irqOff false, .pin false, .spin 300000 21600, .irqRestore false] } ∧
    (ended (exec (.ledSend 0x100 2) (holding [0xAA, 0x55, 0x0F]))).map (fun r => (r.1, r.2.length))
      = some (some (.badRead 0x103), 97) := by
  decide +kernel

/-- R162 and R163. -/
theorem test_line_symbols :
    ended (exec .wsBit0 fresh) = some (none, symbol false) ∧ ended (exec .wsBit1 fresh) = some (none, symbol true) ∧
      ended (exec .wsReset fresh) = some (none, [.pin false, .spin 300000 21600]) := by
  decide +kernel

/-! ### Steps, faults and refusals -/

/-- P6: the first operation faults, the second never runs. -/
theorem test_sticky_fault :
    let s := { fresh with program := [.ho 0x04 [0x100], .ho 0x01 [1, 0x27]] }
    let t := { s with fault := some (.notInitialized (some 0x04)) }
    plain (step s) = .inl t ∧ plain (step t) = .inr (.inl (.notInitialized (some 0x04))) := by
  decide +kernel

/-- V114. -/
theorem test_invalid_config :
    let refused := fun c : Cfg => plain (step { fresh with cfg := c })
    refused { testCfg 16 2 with nibOff := 6 } = .inr (.inr (.invalidConfig .nibOffInRange)) ∧
    refused { testCfg 16 2 with t1lNs := 451 } = .inr (.inr (.invalidConfig .equalPeriod)) ∧
    refused { testCfg 16 2 with t0hNs := 800, t0lNs := 450 } = .inr (.inr (.invalidConfig .oneHigherThanZero)) ∧
    refused { testCfg 16 2 with rwMask := 0x01 } = .inr (.inr (.invalidConfig .masksDifferent)) := by
  decide +kernel

/-- R198: a transaction that never returns leaves the operation in it, and no other one starts (R204). -/
theorem test_hang :
    let s := { ready with replies := [.returned .ok, .never] }
    let t := { s with trace := [x 0x08, x 0x0C], shadow := some 0x08, replies := [], draws := 2, blocked := true }
    plain (exec .lcdClear s) = .inl t ∧ plain (step t) = .inl t ∧
      plain (exec .wsReset t) = .inr (.inr .concurrentCall) := by
  decide +kernel

/-- The word the host places is the word the next step runs, and one that is no table word is refused. -/
theorem test_fetch_word :
    ended (step (fresh.withFetchWord 8 0x02)) = some (some (.notInitialized (some 0x02)), []) ∧
      ended (step (fresh.withFetchWord 0 0)) = some (none, [.pin false, .spin 300000 21600]) ∧
      plain (step (fresh.withFetchWord 8 0x20)) = .inr (.inr (.illegalOp 0x00)) := by
  decide +kernel

/-- R32 and R198: after reset no reply is fixed, so a first `lcd.init` has a step, whatever the transport does. -/
theorem test_first_init (bus : BusHandle) (addr : Nat) : ∃ t, exec (.lcdInit bus addr) State.reset = .next t := ⟨_, rfl⟩

/-! ### Witnesses: for each statement with hypotheses, values that meet all of them together -/

/-- Whether an outcome is a next state with a property. -/
def nextWith (p : State → Bool) : Host.Outcome State Fault Refusal → Bool
  | .next t => p t
  | .fault _ => false
  | .refused _ => false

theorem next_with {P : State → Prop} [DecidablePred P] {o : Host.Outcome State Fault Refusal}
    (h : nextWith (fun t => decide (P t)) o = true) : ∃ t, o = .next t ∧ P t := by
  cases o with
  | next t => exact ⟨t, rfl, of_decide_eq_true h⟩
  | fault f => cases h
  | refused r => cases h

theorem next_any {o : Host.Outcome State Fault Refusal} (h : nextWith (fun _ => true) o = true) : ∃ t, o = .next t := by
  cases o with
  | next t => exact ⟨t, rfl⟩
  | fault f => cases h
  | refused r => cases h

/-- A program of two operations on a session. -/
def running : State := { ready with program := [.ho 0x02 [], .wb 1] }

/-- An operation inside its transaction. -/
def stuck : State := { ready with blocked := true }

/-- After a fault. -/
def broken : State := { ready with fault := some .reInit }

/-- A session with another nibble offset. -/
def wired (offset : Nat) : State := { ready with cfg := { testCfg 16 2 with nibOff := offset } }

/-- A transport that never returns. -/
def silent : State := { ready with replies := [.never] }

theorem witness_EncodeAfterDecode : decode (.lc 0b000101010) = .ok (.functionSet false true false 2) := rfl

theorem witness_UnlistedHostIdRefused :
    let s := { broken with program := [.ho 0x09 [5]] }
    (0x09 : Byte) ∉ [0x01, 0x02, 0x03, 0x04, 0x05, 0x06, 0x07, 0x08, 0x10] ∧ validCfg s.cfg = true ∧
      s.blocked = false ∧ s.program[s.pc]? = some (.ho 0x09 [5]) := by
  decide +kernel

theorem witness_BusWordsOfTheTable : ∀ i, decode (.lc 0b000000010) ≠ .ok i := nofun

theorem witness_StepRunsDecoded :
    (validCfg running.cfg = true ∧ running.blocked = false ∧ running.program[running.pc]? = some (.ho 0x02 [])) ∧
      decode (.ho 0x02 []) = .ok .lcdClear := ⟨by decide +kernel, rfl⟩

theorem witness_StepWithoutOperation :
    (validCfg stuck.cfg = true ∧ stuck.blocked = true) ∧
      (validCfg ready.cfg = true ∧ ready.blocked = false ∧ ready.fault = none ∧ ready.program.length ≤ ready.pc) := by
  decide +kernel

/-- Completed, raised and hanging. -/
theorem witness_CompletesFaultsOrHangs :
    (∃ t, exec .lcdClear ready = .next t ∧ t.pc = ready.pc + 1) ∧
      (∃ t, exec .lcdClear fresh = .next t ∧ t.fault ≠ none) ∧
      (∃ t, exec .lcdClear silent = .next t ∧ t.blocked = true) :=
  ⟨next_with (by decide +kernel), next_with (by decide +kernel), next_with (by decide +kernel)⟩

theorem witness_FaultIsFinal :
    broken.fault = some .reInit ∧ broken.blocked = false ∧ validCfg broken.cfg = true := by
  decide +kernel

theorem witness_InvalidConfigRefused : validCfg { testCfg 16 2 with nibOff := 6 } = false := by
  decide +kernel

theorem witness_DefaultsAreValid : 1 ≤ 20 ∧ 1 ≤ 4 := by decide

theorem witness_NotInitializedRaised : fresh.live ∧ fresh.inited = false := by decide +kernel

theorem witness_WireWordNeedsSession :
    (fresh.live ∧ fresh.inited = false) ∧
      Instr.writeData 0x41 ∈ [Instr.clearDisplay, .entryModeSet true false, .displayControl true false true,
        .functionSet true false true 0, .setDdramAddress 0, .writeData 0x41, .initNibble 0x3] := by
  decide +kernel

theorem witness_ReInitRaised : ready.inSession := by decide +kernel

theorem witness_HostMemoryIsReadOnly : ∃ t, exec (.lcdText 0x100) (holding [0x48, 0x69, 0x00]) = .next t :=
  next_any (by decide +kernel)

theorem witness_LcdIgnoresLedFields : isLed .lcdBlon = false ∧ isLed (.initNibble 0x3) = false := by decide

theorem witness_LedIgnoresLcdFields : isLed (.ledSend 0x100 1) = true ∧ isLed .wsReset = true := by decide

/-- In a session and before one; `initialize` and another instruction. -/
theorem witness_InitedOnlySetByInitialize :
    (∃ t, exec .lcdClear ready = .next t ∧ ready.inited = true) ∧
      ((∃ t, exec .wsReset fresh = .next t) ∧ ∀ bus addr, Instr.wsReset ≠ .lcdInit bus addr) ∧
      (∃ t, exec (.lcdInit ⟨1⟩ 0x27) fresh = .next t ∧ t.fault = none) :=
  ⟨next_with (by decide +kernel), ⟨next_any (by decide +kernel), nofun⟩, next_with (by decide +kernel)⟩

theorem witness_BacklightFlagWriters :
    (∃ t, exec (.lcdInit ⟨1⟩ 0x27) fresh = .next t ∧ fresh.inited = false) ∧
      (∃ t, exec .lcdBlon ready = .next t ∧ ready.inited = true) ∧
      (∃ t, exec .lcdBloff ready = .next t ∧ ready.inited = true) ∧
      (∃ t, exec .lcdClear ready = .next t) :=
  ⟨next_with (by decide +kernel), next_with (by decide +kernel), next_with (by decide +kernel), next_any (by decide +kernel)⟩

/-- The offsets 4 and 5. -/
theorem witness_WrittenBytesCarryTheFlag :
    ((∃ t, exec .lcdBloff ready = .next t ∧ t.trace = ready.trace ++ [x 0x60]) ∧
        (0x0F#8 <<< ready.cfg.nibOff) &&& ready.cfg.blMask = 0 ∧ Event.xmit 0x27 [0x60] ∈ [x 0x60]) ∧
      ((∃ t, exec .lcdBloff (wired 5) = .next t ∧ t.trace = (wired 5).trace ++ [x 0x60]) ∧
        (0x0F#8 <<< (wired 5).cfg.nibOff) &&& (wired 5).cfg.blMask = 0 ∧ Event.xmit 0x27 [0x60] ∈ [x 0x60]) :=
  ⟨⟨next_with (by decide +kernel), by decide +kernel, by decide⟩, next_with (by decide +kernel), by decide +kernel, by decide⟩

/-- A return and a hang. -/
theorem witness_NoHangWhenTransportReturns :
    (∃ t, exec .lcdBlon ready = .next t ∧ t.trace = ready.trace ++ [x 0x68] ∧ ready.returnsOn t.bus [x 0x68]) ∧
      (∃ t, exec .lcdBlon silent = .next t ∧ t.trace = silent.trace ++ [x 0x68] ∧ ¬silent.returnsOn t.bus [x 0x68]) :=
  ⟨next_with (by decide +kernel), next_with (by decide +kernel)⟩

theorem witness_OutcomesAreDiscarded :
    [Reply.returned .ok, .never].map (fun r => decide (r = .never))
      = ({ ready with replies := [.returned .fail, .never] } : State).replies.map (fun r => decide (r = .never)) := by
  decide +kernel

theorem witness_UnsetSessionIsUnobservable : fresh.inited = false := rfl

theorem ready_inv (m : Memory) (p : List Word) (h : Memory.wf m = true) :
    ({ ready with mem := m, program := p } : State).Inv := by
  have hbits : hasBit 0x68 ready.cfg.enMask = false ∧ hasBit 0x68 ready.cfg.blMask = ready.bl := by decide +kernel
  refine ⟨h, Nat.zero_le _, nofun, fun _ _ => ⟨fun _ => rfl, fun b hb => ?_⟩⟩
  obtain rfl : b = 0x68 := (Option.some.inj hb).symm
  exact ⟨rfl, fun _ => hbits.1, fun _ => hbits.2⟩

theorem witness_StepKeepsInvariant : running.Inv ∧ ∃ t, step running = .next t :=
  ⟨ready_inv [] _ rfl, next_any (by decide +kernel)⟩

theorem witness_StepKeepsTraceAgreement :
    ({ running with trace := [x 0x68] } : State).TraceInv ∧ ∃ t, step { running with trace := [x 0x68] } = .next t := by
  refine ⟨⟨fun _ => rfl, rfl, fun a bytes h => ?_⟩, next_any (by decide +kernel)⟩
  obtain ⟨rfl, rfl⟩ : a = 0x27 ∧ bytes = [0x68] := by simpa [x] using h
  exact ⟨rfl, rfl, rfl⟩

/-- The default wiring for every mask; and a wiring in which a nibble bit falls on the enable bit and on no other. -/
theorem witness_FrameFormula :
    let c := testCfg 16 2
    let d := { testCfg 16 2 with enMask := 0x80 }
    (validCfg c = true ∧ (0x0F#8 <<< c.nibOff) &&& c.enMask = 0 ∧ (0x0F#8 <<< c.nibOff) &&& c.rsMask = 0 ∧
        (0x0F#8 <<< c.nibOff) &&& c.blMask = 0 ∧ (0x0F#8 <<< c.nibOff) &&& c.rwMask = 0) ∧
      (validCfg d = true ∧ (0x0F#8 <<< d.nibOff) &&& d.enMask ≠ 0 ∧ (0x0F#8 <<< d.nibOff) &&& d.rsMask = 0 ∧
        (0x0F#8 <<< d.nibOff) &&& d.blMask = 0) := by
  decide +kernel

/-- After reset with the default configuration, whose open parameters are free, on a transport that acknowledges. -/
def acknowledged : State := { State.reset with replies := List.replicate 36 (.returned .ok) }

/-- Each transfer, with a configuration whose parameters are fixed and with the default one. -/
theorem witness_TransferCounts :
    (3 = (if ready.cfg.presetWrite then 3 else 2) ∧
        ready.transportReturns (pulse ready.cfg ready.addr (frame ready.cfg ready.bl 0x3 false)) ∧
        ready.transportReturns (cmdEvents ready.cfg ready.addr ready.bl 0x01) ∧
        ready.transportReturns (dataEvents ready.cfg ready.addr ready.bl 0x41)) ∧
      (acknowledged.cfg = defaultCfg 16 2 ∧
        acknowledged.transportReturns (cmdEvents acknowledged.cfg acknowledged.addr acknowledged.bl 0x01) ∧
        acknowledged.transportReturns (dataEvents acknowledged.cfg acknowledged.addr acknowledged.bl 0x41)) :=
  ⟨by decide +kernel, rfl, by decide +kernel, by decide +kernel⟩

theorem witness_InitializeCompletes :
    fresh.live ∧ fresh.inited = false ∧ fresh.returnsOn ⟨1⟩ (initEvents fresh.cfg 0x27) := by
  decide +kernel

/-- The default configuration too: its open parameters are free, and validity does not rest on them. -/
theorem witness_InitializeTiming :
    (fresh.live ∧ fresh.inited = false ∧ fresh.returnsOn ⟨1⟩ (initEvents fresh.cfg 0x27)) ∧
      (validCfg acknowledged.cfg = true ∧ acknowledged.blocked = false ∧ acknowledged.fault = none ∧
        acknowledged.inited = false ∧ acknowledged.returnsOn ⟨1⟩ (initEvents acknowledged.cfg 0x27) ∧
        acknowledged.cfg = defaultCfg 16 2) :=
  ⟨by decide +kernel, rfl, rfl, rfl, rfl, by decide +kernel, rfl⟩

/-- A transport that returns, one that never does, and the state after reset, where neither is known. -/
theorem witness_InitializeCompletesOrHangs :
    let s := { fresh with replies := [.never] }
    (fresh.live ∧ fresh.inited = false ∧ fresh.returnsOn ⟨1⟩ (initEvents fresh.cfg 0x27)) ∧
      (s.live ∧ s.inited = false ∧ Reply.never ∈ (answers ⟨1⟩ s.replies s.draws (initEvents s.cfg 0x27)).take 1) ∧
      (validCfg State.reset.cfg = true ∧ State.reset.blocked = false ∧ State.reset.fault = none ∧
        State.reset.inited = false) :=
  ⟨by decide +kernel, ⟨by decide +kernel, rfl, .head _⟩, rfl, rfl, rfl, rfl⟩

theorem witness_ClearCompletes :
    ready.inSession ∧ ready.transportReturns (clearEvents ready.cfg ready.addr ready.bl) := by
  decide +kernel

/-- The first and the last transaction of `clear`. -/
theorem witness_ClearHangs :
    let late : State := { ready with replies := List.replicate 5 (.returned .ok) ++ [.never] }
    let es := clearEvents ready.cfg ready.addr ready.bl
    let first := answers silent.bus silent.replies silent.draws es
    let last := answers late.bus late.replies late.draws es
    (silent.inSession ∧ 0 < xmitCount es ∧ Reply.never ∉ first.take 0 ∧ first[0]? = some .never) ∧
      (late.inSession ∧ 5 < xmitCount es ∧ Reply.never ∉ last.take 5 ∧ last[5]? = some .never) :=
  ⟨⟨by decide +kernel, by decide +kernel, List.not_mem_nil, rfl⟩, by decide +kernel⟩

theorem witness_CursorCompletes :
    ready.inSession ∧ ready.transportReturns (cursorEvents ready.cfg ready.addr ready.bl 1 3) := by
  decide +kernel

/-- 16×2, 20×4 (its last row) and a geometry of the fallback. -/
theorem witness_CursorCommandByte :
    (validCfg (testCfg 16 2) = true ∧ (testCfg 16 2).rowStarts = [] ∧ (testCfg 16 2).cols = 16 ∧
        (testCfg 16 2).rows = 2) ∧
      (validCfg (testCfg 20 4) = true ∧ (testCfg 20 4).rowStarts = [] ∧ (testCfg 20 4).cols = 20 ∧
        (testCfg 20 4).rows = 4 ∧ [0x00, 0x40, 0x14, 0x54][min 9 3]? = some 0x54) ∧
      (validCfg (testCfg 100 2) = true ∧ (testCfg 100 2).rowStarts = [] ∧
        ¬((testCfg 100 2).cols = 16 ∧ (testCfg 100 2).rows = 2) ∧
        ¬((testCfg 100 2).cols = 20 ∧ (testCfg 100 2).rows = 4)) := by
  decide +kernel

/-- A string and the empty string. -/
theorem witness_TextCompletes :
    let s := holding [0x48, 0x69, 0x00]
    (s.inSession ∧ s.transportReturns (charsEvents s.cfg s.addr s.bl [0x48, 0x69]) ∧
        HoldsString s.mem 0x100 [0x48, 0x69]) ∧
      (s.transportReturns (charsEvents s.cfg s.addr s.bl []) ∧ HoldsString s.mem 0x102 []) := by
  decide +kernel

theorem witness_TextBadRead :
    let s := holding [0x48, 0x69]
    s.inSession ∧ s.transportReturns (charsEvents s.cfg s.addr s.bl [0x48, 0x69]) ∧
      HoldsBytes s.mem 0x100 [0x48, 0x69] ∧ (∀ b ∈ [0x48#8, 0x69#8], b ≠ 0) ∧ Memory.read s.mem (0x100 + 2) = none := by
  decide +kernel

theorem witness_BacklightCompletes :
    ready.inSession ∧ ready.shadow = some 0x68 ∧
      ready.transportReturns [.xmit ready.addr [0x68 ||| ready.cfg.blMask]] ∧
      ready.transportReturns [.xmit ready.addr [0x68 &&& ~~~ready.cfg.blMask]] := by
  decide +kernel

theorem witness_BacklightWithoutShadowRefused :
    ({ ready with shadow := none } : State).inSession ∧ ({ ready with shadow := none } : State).shadow = none := by
  decide +kernel

theorem witness_BacklightIdempotent :
    let on := Event.xmit ready.addr [0x68 ||| ready.cfg.blMask]
    let off := Event.xmit ready.addr [0x68 &&& ~~~ready.cfg.blMask]
    ready.inSession ∧ ready.shadow = some 0x68 ∧ ready.transportReturns [on, on] ∧ ready.transportReturns [off, off] ∧
      ready.cfg.blMask.getLsbD 7 = false := by
  decide +kernel

/-- A full display, with no terminator to read, and a string that ends at a chunk boundary. -/
theorem witness_WrapCompletes :
    let s := holding (letters 32)
    let t := holding (letters 16 ++ [0x00])
    (s.inSession ∧ s.transportReturns (wrapEvents s.cfg s.addr s.bl (letters 32)) ∧
        HoldsBytes s.mem 0x100 (letters 32) ∧ (∀ b ∈ letters 32, b ≠ 0) ∧
        (letters 32).length = s.cfg.rows * s.cfg.cols) ∧
      (t.inSession ∧ t.transportReturns (wrapEvents t.cfg t.addr t.bl (letters 16)) ∧
        HoldsBytes t.mem 0x100 (letters 16) ∧ (∀ b ∈ letters 16, b ≠ 0) ∧
        (letters 16).length < t.cfg.rows * t.cfg.cols ∧
        Memory.read t.mem (0x100 + (letters 16).length) = some 0) := by
  decide +kernel

theorem witness_WrapBadRead :
    let s := holding (letters 16)
    s.inSession ∧ s.transportReturns (wrapEvents s.cfg s.addr s.bl (letters 16)) ∧
      HoldsBytes s.mem 0x100 (letters 16) ∧ (∀ b ∈ letters 16, b ≠ 0) ∧
      (letters 16).length < s.cfg.rows * s.cfg.cols ∧ Memory.read s.mem (0x100 + (letters 16).length) = none := by
  decide +kernel

/-- A text that fits exactly and one that is one character longer. -/
theorem witness_ScrollCompletes :
    let s := holding (letters 17 ++ [0x00])
    let returns := fun bs => s.transportReturns (scrollEvents s.cfg s.addr s.bl 0 200 bs)
    s.inSession ∧ (returns ((letters 17).drop 1) ∧ HoldsString s.mem 0x101 ((letters 17).drop 1)) ∧
      (returns (letters 17) ∧ HoldsString s.mem 0x100 (letters 17)) := by
  decide +kernel

theorem witness_ScrollBadRead :
    let s := holding (letters 20)
    s.inSession ∧ HoldsBytes s.mem 0x100 (letters 20) ∧ (∀ b ∈ letters 20, b ≠ 0) ∧
      Memory.read s.mem (0x100 + (letters 20).length) = none := by
  decide +kernel

/-- Each clause: a text longer than a row, which the display holds. -/
theorem witness_MinimumBlockingTimes :
    let s := holding (letters 17 ++ [0x00])
    let bs := letters 17
    (s.inSession ∧ s.shadow = some 0x68 ∧ HoldsString s.mem 0x100 bs) ∧
      (s.transportReturns (clearEvents s.cfg s.addr s.bl) ∧ s.transportReturns (cursorEvents s.cfg s.addr s.bl 1 3) ∧
        s.transportReturns (charsEvents s.cfg s.addr s.bl bs) ∧
        s.transportReturns [.xmit s.addr [0x68 ||| s.cfg.blMask]] ∧
        s.transportReturns [.xmit s.addr [0x68 &&& ~~~s.cfg.blMask]]) ∧
      (s.transportReturns (wrapEvents s.cfg s.addr s.bl bs) ∧ bs.length ≤ s.cfg.rows * s.cfg.cols) ∧
      (s.transportReturns (scrollEvents s.cfg s.addr s.bl 0 200 bs) ∧ s.cfg.cols < bs.length ∧
        s.cfg.scrollTrailingDelay = false) := by
  decide +kernel

/-- One word of each class. -/
theorem witness_BusWordsComplete :
    let returns := fun b => ready.transportReturns (cmdEvents ready.cfg ready.addr ready.bl b)
    ready.inSession ∧ returns 0x01 ∧
      ((0x06 : Byte) = BitVec.ofNat 8 (0x04 + 2 * true.toNat + false.toNat) ∧ returns 0x06) ∧
      ((0x0D : Byte) = BitVec.ofNat 8 (0x08 + 4 * true.toNat + 2 * false.toNat + true.toNat) ∧ returns 0x0D) ∧
      ((0x2A : Byte) = BitVec.ofNat 8 (0x20 + 16 * false.toNat + 8 * true.toNat + 4 * false.toNat + (2#2).toNat) ∧
        returns 0x2A) ∧
      ((0xFF : Byte) = BitVec.ofNat 8 (0x80 + (0x7F#7).toNat) ∧ returns 0xFF) ∧
      ready.transportReturns (dataEvents ready.cfg ready.addr ready.bl 0xFF) := by
  decide +kernel

theorem witness_InitNibbleCompletes :
    ready.inSession ∧ ready.transportReturns (pulse ready.cfg ready.addr (frame ready.cfg ready.bl 0x3 false)) := by
  decide +kernel

theorem witness_HostOperationsAreWords :
    let s := holding [0x48, 0x00]
    s.inSession ∧ HoldsString s.mem 0x100 [0x48] ∧ s.cfg.clearCmd = 0x01 := by
  decide +kernel

theorem witness_ObserverReceivesText :
    let s := holding [0x48, 0x69, 0x00]
    s.Inv ∧ s.inSession ∧ s.transportReturns (charsEvents s.cfg s.addr s.bl [0x48, 0x69]) ∧
      cleanWiring s.cfg = true ∧ HoldsString s.mem 0x100 [0x48, 0x69] :=
  ⟨ready_inv _ [] (by decide +kernel), by decide +kernel⟩

/-- A string that fills both rows. -/
theorem witness_ObserverReceivesWrap :
    let s := holding (letters 32 ++ [0x00])
    s.Inv ∧ s.inSession ∧ s.transportReturns (wrapEvents s.cfg s.addr s.bl (letters 32)) ∧
      cleanWiring s.cfg = true ∧ HoldsString s.mem 0x100 (letters 32) ∧ (letters 32).length ≤ s.cfg.rows * s.cfg.cols :=
  ⟨ready_inv _ [] (by decide +kernel), by decide +kernel⟩

theorem witness_ObserverReceivesHandshake :
    fresh.live ∧ fresh.inited = false ∧ fresh.shadow = none ∧ fresh.returnsOn ⟨1⟩ (initEvents fresh.cfg 0x27) ∧
      cleanWiring fresh.cfg = true := by
  decide +kernel

theorem witness_LoopsFormula : (testCfg 16 2).loopCounts = [] := rfl

theorem witness_SendCompletes :
    let s := holding [0xFF, 0x00, 0x81]
    s.live ∧ HoldsBytes s.mem 0x100 [0xFF, 0x00, 0x81] ∧ [0xFF#8, 0x00#8, 0x81#8].length = 3 * 1 := by
  decide +kernel

theorem witness_SendZero : fresh.live := by decide +kernel

/-- At the first byte and after one. -/
theorem witness_SendBadRead :
    let s := holding [0xFF]
    (s.live ∧ HoldsBytes s.mem 0x100 [0xFF] ∧ [0xFF#8].length < 3 * 1 ∧ Memory.read s.mem (0x100 + 1) = none) ∧
      (fresh.live ∧ HoldsBytes fresh.mem 0x100 [] ∧ ([] : List Byte).length < 3 * 1 ∧
        Memory.read fresh.mem 0x100 = none) := by
  decide +kernel

/-- With the default configuration too. -/
theorem witness_SendCounts :
    let s := holding [0xFF, 0x00, 0x81]
    (s.live ∧ HoldsBytes s.mem 0x100 [0xFF, 0x00, 0x81] ∧ [0xFF#8, 0x00#8, 0x81#8].length = 3 * 1) ∧
      (validCfg State.reset.cfg = true ∧ State.reset.blocked = false ∧ State.reset.fault = none ∧
        HoldsBytes State.reset.mem 0x100 [] ∧ ([] : List Byte).length = 3 * 0 ∧ State.reset.cfg = defaultCfg 16 2) :=
  ⟨by decide +kernel, rfl, rfl, rfl, nofun, rfl, rfl⟩

theorem witness_BitSymbolsComplete : fresh.live := by decide +kernel

theorem witness_ResetHoldCompletes : fresh.live := by decide +kernel

theorem witness_BufferReadsBack :
    let s := holding [0xFF, 0x00, 0x81]
    s.live ∧ HoldsBytes s.mem 0x100 [0xFF, 0x00, 0x81] ∧ [0xFF#8, 0x00#8, 0x81#8].length = 3 * 1 ∧ 7 < 8 := by
  decide +kernel

end Sys2Proof.Tests
end

section
/-! Configuration validity (00_scope.md R8, R9): O11 and O12. -/

namespace Sys2Proof.Machine

/-- A configuration is valid exactly where every check of R9 holds. -/
theorem validCfg_iff_checkHolds (c : Cfg) : validCfg c = true ↔ ∀ k : ConfigCheck, checkHolds c k = true := by
  have hall : ∀ k : ConfigCheck, k ∈ allChecks := by intro k; cases k <;> decide
  simp [validCfg, hall]

/-- The bytes with exactly one bit set are the eight shifts of 1. -/
theorem oneBit_iff_shift : ∀ m : Byte, oneBit m = true ↔ ∃ k < 8, m = 1#8 <<< k := by decide

/-- The six comparisons of `masksDiffer` say that no mask occurs twice in R9's list. -/
theorem masksDiffer_iff_nodup (c : Cfg) : masksDiffer c = true ↔ (masks c).Nodup := by
  simp [masksDiffer, masks, and_assoc]

/-- Settles O11: each check of R9, in its order, is the condition it stands for. -/
theorem configValidity : Obligations.ConfigValidity := by
  unfold Obligations.ConfigValidity
  intro c
  have hbits : (masks c).all oneBit = true ↔ ∀ m ∈ masks c, ∃ k < 8, m = 1#8 <<< k := by
    simp only [List.all_eq_true, oneBit_iff_shift]
  simp only [validCfg, allChecks, checkHolds, List.all_cons, List.all_nil, Bool.and_true, Bool.and_eq_true,
    Bool.or_eq_true, beq_iff_eq, decide_eq_true_iff, or_assoc, hbits, masksDiffer_iff_nodup]
  rfl

/-- The defaults of R8 meet every check of R9 where the geometry has a row and a column. -/
theorem checkHolds_defaultCfg {cols rows : Nat} (hcols : 1 ≤ cols) (hrows : 1 ≤ rows) (k : ConfigCheck) :
    checkHolds (defaultCfg cols rows) k = true := by
  cases k with
  | rowsAtLeastOne => exact decide_eq_true hrows
  | colsAtLeastOne => exact decide_eq_true hcols
  | masksOneBit => simp [checkHolds, masks, defaultCfg, oneBit]
  | masksDifferent => simp [checkHolds, masksDiffer, defaultCfg]
  | _ => simp [checkHolds, defaultCfg]

/-- The defaults of R8 are in their legal ranges, whatever the OPEN core frequency is. -/
theorem inLegalRange_defaultCfg (cols rows : Nat) : inLegalRange (defaultCfg cols rows) = true := by
  simp [inLegalRange, defaultCfg]

/-- The default nibble is bits 7 to 4 and the default control bits lie below it. -/
theorem cleanWiring_defaultCfg (cols rows : Nat) : cleanWiring (defaultCfg cols rows) = true := by
  simp [cleanWiring, apart, defaultCfg]

/-- Settles O12: of the checks only the geometry's two depend on the geometry. -/
theorem defaultsAreValid : Obligations.DefaultsAreValid := by
  unfold Obligations.DefaultsAreValid
  intro cols rows hcols hrows
  have hvalid := (validCfg_iff_checkHolds _).mpr (checkHolds_defaultCfg hcols hrows)
  exact ⟨hvalid, inLegalRange_defaultCfg cols rows, cleanWiring_defaultCfg cols rows⟩

end Sys2Proof.Machine
end

section
/-! Noninterference of the LED channel (R1, R160): O18. An LED instruction's script holds no transaction and reads none of the
LCD channel's fields, and playing it commutes with a change of them. -/

namespace Sys2Proof.Machine

/-- Where no operation can start, what an instruction answers depends on the configuration, the hang and the recorded fault
alone (R201), so it commutes with every change of the state that keeps these three. -/
theorem exec_mapNext_of_not_live {g : State → State} {s : State} (hcfg : (g s).cfg = s.cfg)
    (hblocked : (g s).blocked = s.blocked) (hfault : (g s).fault = s.fault) (h : ¬ s.live) (i : Instr) :
    exec i (g s) = mapNext g (exec i s) := by
  obtain ⟨refusal, body, hexec⟩ := exec_operates i
  rw [hexec, hexec]
  cases hc : failedCheck s.cfg with
  | some k =>
    rw [operateUnless_invalid hc, operateUnless_invalid (hcfg ▸ hc)]
    rfl
  | none =>
    have hv := (failedCheck_eq_none s.cfg).mp hc
    have hv' : validCfg (g s).cfg = true := hcfg ▸ hv
    cases hb : s.blocked with
    | true =>
      rw [operateUnless_blocked hv hb, operateUnless_blocked hv' (hblocked.trans hb)]
      rfl
    | false =>
      cases hf : s.fault with
      | some f =>
        rw [operateUnless_faulted hv hb hf, operateUnless_faulted hv' (hblocked.trans hb) (hfault.trans hf)]
        rfl
      | none => exact absurd ⟨hv, hb, hf⟩ h

/-- A script without a transaction is played whole and ends as it says, whatever the transport would reply. -/
theorem Script.run_quiet {sc : Script} (h : xmitCount sc.events = 0) (s : State) :
    sc.run.run s = (conclude sc.ending).run (s.absorbAll sc.events) :=
  bind_ok (play_quiet h s)

/-- The script of `send`'s buffer holds no transaction. -/
theorem xmitCount_bufferScript (c : Cfg) (m : Memory) (count p : Nat) :
    xmitCount (bufferScript c m count p).events = 0 := by
  induction count generalizing p with
  | zero => rfl
  | succ count ih =>
    rw [bufferScript]
    cases Memory.read m p with
    | none => rfl
    | some b => simp only [Script.after, xmitCount_append, xmitCount_flatMap_bits, ih]

/-- `send` starts no transaction, whether its buffer is readable or not. -/
theorem xmitCount_sendScript (c : Cfg) (m : Memory) (ie : Bool) (p n : Nat) :
    xmitCount (sendScript c m ie p n).events = 0 := by
  have hbuffer := xmitCount_bufferScript c m (3 * n) p
  rw [sendScript, Script.andThen]
  cases (bufferScript c m (3 * n) p).ending with
  | none => simp only [Script.after, xmitCount_append, hbuffer]; rfl
  | some f => simp only [Script.after, xmitCount_append, hbuffer]; rfl

/-- What an LED instruction does in a live state: it plays a script without a transaction, from the state itself. -/
theorem led_script {i : Instr} (h : isLed i = true) :
    ∃ sc : Cfg → Memory → Bool → Script, (∀ c m ie, xmitCount (sc c m ie).events = 0) ∧
      ∀ s : State, script i s = some (sc s.cfg s.mem s.ie) ∧ prep i s = s := by
  cases i with
  | ledSend p n =>
    exact ⟨fun c m ie => sendScript c m ie p n, fun c m ie => xmitCount_sendScript c m ie p n, fun _ => ⟨rfl, rfl⟩⟩
  | wsBit0 => exact ⟨fun c _ _ => ⟨bitEvents c false, none⟩, fun _ _ _ => rfl, fun _ => ⟨rfl, rfl⟩⟩
  | wsBit1 => exact ⟨fun c _ _ => ⟨bitEvents c true, none⟩, fun _ _ _ => rfl, fun _ => ⟨rfl, rfl⟩⟩
  | wsReset => exact ⟨fun c _ _ => ⟨holdEvents c, none⟩, fun _ _ _ => rfl, fun _ => ⟨rfl, rfl⟩⟩
  | _ => cases h

/-- The state with the LCD channel's fields and the transport's replies of another state. -/
def State.withLcdOf (s u : State) : State :=
  { s with inited := u.inited, bus := u.bus, addr := u.addr, bl := u.bl, shadow := u.shadow, replies := u.replies,
           draws := u.draws }

/-- Events without a transaction neither read nor write what `withLcdOf` exchanges. -/
theorem absorbAll_withLcdOf {es : List Event} (h : xmitCount es = 0) (s u : State) :
    (s.withLcdOf u).absorbAll es = (s.absorbAll es).withLcdOf u := by
  induction es generalizing s with
  | nil => rfl
  | cons e es ih =>
    cases e with
    | xmit a bytes => simp [xmitCount] at h
    | _ => rw [State.absorbAll, State.absorbAll, ← ih h]; rfl

/-- Nor does the ending of a script. -/
theorem finish_conclude_withLcdOf (ending : Option Fault) (s u : State) :
    finish ((conclude ending).run (s.withLcdOf u)) = mapNext (·.withLcdOf u) (finish ((conclude ending).run s)) := by
  cases ending <;> rfl

/-- An LED instruction commutes with an exchange of the LCD channel's fields and the transport's replies. -/
theorem exec_led_withLcdOf {i : Instr} (h : isLed i = true) (s u : State) :
    exec i (s.withLcdOf u) = mapNext (·.withLcdOf u) (exec i s) := by
  by_cases hlive : s.live
  · obtain ⟨sc, hquiet, hscript⟩ := led_script h
    have hexec : ∀ t : State, t.live →
        exec i t = finish ((conclude (sc t.cfg t.mem t.ie).ending).run (t.absorbAll (sc t.cfg t.mem t.ie).events)) := by
      intro t ht
      obtain ⟨hs, hp⟩ := hscript t
      simp only [exec_script i ht, hs, hp, Script.run_quiet (hquiet _ _ _)]
    rw [hexec s hlive, hexec (s.withLcdOf u) hlive, absorbAll_withLcdOf (hquiet _ _ _)]
    exact finish_conclude_withLcdOf _ _ u
  · exact exec_mapNext_of_not_live (g := (·.withLcdOf u)) rfl rfl rfl hlive i

/-- Settles O18: the exchange of the LCD fields and the replies, with the new values given one by one. -/
theorem ledIgnoresLcdFields : Obligations.LedIgnoresLcdFields := by
  unfold Obligations.LedIgnoresLcdFields
  intro i s inited bus addr bl shadow replies draws h
  exact exec_led_withLcdOf h s { s with inited := inited, bus := bus, addr := addr, bl := bl, shadow := shadow,
                                        replies := replies, draws := draws }

end Sys2Proof.Machine
end

section
/-! The control bits of an expander byte (R72, R74, R127, R128): what the family of O26 and O21 needs of `hasBit`. -/

namespace Sys2Proof.Machine

theorem hasBit_or (x y m : Byte) : hasBit (x ||| y) m = (hasBit x m || hasBit y m) := by
  rw [Bool.eq_iff_iff]
  simp only [hasBit, bne_iff_ne, Bool.or_eq_true, BitVec.and_or_distrib_right]
  exact (not_congr BitVec.or_eq_zero_iff).trans not_and_or

/-- A mask in which no bit of another mask stands can be taken out of a byte without a trace in the other. -/
theorem hasBit_and_not {m m' : Byte} (h : hasBit m m' = false) (x : Byte) : hasBit (x &&& ~~~m) m' = hasBit x m' := by
  have hm : m &&& m' = 0 := by simpa [hasBit] using h
  have hx : x &&& ~~~m &&& m' = x &&& m' := by
    apply BitVec.eq_of_getLsbD_eq
    intro i hi
    have hbit : (m &&& m').getLsbD i = false := by rw [hm]; simp
    simp only [BitVec.getLsbD_and, BitVec.getLsbD_not, hi] at hbit ⊢
    cases hmi : m.getLsbD i <;> simp_all
  rw [hasBit, hasBit, hx]

/-- A mask taken out of a byte is gone from it. -/
theorem hasBit_and_not_self (x m : Byte) : hasBit (x &&& ~~~m) m = false := by
  simp [hasBit, BitVec.and_assoc]

/-- Of the four masks of a valid configuration each has its own bit, and no other's (R9). -/
theorem hasBit_masks {c : Cfg} (h : validCfg c = true) {m m' : Byte} (hm : m ∈ masks c) (hm' : m' ∈ masks c) :
    hasBit m m' = decide (m = m') := by
  have hone : ∀ x ∈ masks c, ∃ k < 8, x = 1#8 <<< k := fun x hx =>
    (oneBit_iff_shift x).mp (List.all_eq_true.mp ((validCfg_iff_checkHolds c).mp h .masksOneBit) x hx)
  obtain ⟨k, hk, rfl⟩ := hone m hm
  obtain ⟨l, hl, rfl⟩ := hone m' hm'
  clear hm hm'
  revert k l
  decide

/-- In a valid configuration the three control bits that the block sets are different bits, and the backlight bit is one. -/
theorem hasBit_controls {c : Cfg} (h : validCfg c = true) :
    hasBit c.rsMask c.enMask = false ∧ hasBit c.blMask c.enMask = false ∧ hasBit c.rsMask c.blMask = false ∧
      hasBit c.enMask c.blMask = false ∧ hasBit c.blMask c.blMask = true := by
  have hdiff : (masks c).Nodup := (masksDiffer_iff_nodup c).mp ((validCfg_iff_checkHolds c).mp h .masksDifferent)
  simp only [masks, List.nodup_cons, List.mem_cons, List.not_mem_nil, or_false, not_or] at hdiff
  obtain ⟨⟨-, hrsen, hrsbl⟩, -, henbl, -⟩ := hdiff
  have hrs : c.rsMask ∈ masks c := by simp [masks]
  have hen : c.enMask ∈ masks c := by simp [masks]
  have hbl : c.blMask ∈ masks c := by simp [masks]
  simp [hasBit_masks h, hrs, hen, hbl, hrsen, hrsbl, henbl, Ne.symm henbl]

/-- A nibble stays off a mask that is apart from the nibble bits (R74). -/
theorem hasBit_placedNibble {c : Cfg} {m : Byte} (h : apart c m = true) (n : Nibble) :
    hasBit (placedNibble c n) m = false := by
  have hm : (0x0F#8 <<< c.nibOff) &&& m = 0 := by simpa [apart] using h
  have hn : n.setWidth 8 = n.setWidth 8 &&& 0x0F#8 := by revert n; decide
  rw [hasBit, placedNibble, hn, BitVec.shiftLeft_and_distrib, BitVec.and_assoc, hm]
  simp

theorem hasBit_maskIf (v : Bool) (mask m : Byte) : hasBit (maskIf v mask) m = (v && hasBit mask m) := by
  cases v <;> simp [maskIf, hasBit]

/-- The base frame has the enable bit clear where no nibble bit falls on it (R72, R74). -/
theorem hasBit_frame_enMask {c : Cfg} (h : validCfg c = true) (ha : apart c c.enMask = true) (bl : Bool) (n : Nibble)
    (rs : Bool) : hasBit (frame c bl n rs) c.enMask = false := by
  obtain ⟨hrs, hbl, -, -, -⟩ := hasBit_controls h
  simp [frame, hasBit_or, hasBit_maskIf, hasBit_placedNibble ha, hrs, hbl]

/-- The base frame carries the backlight flag where no nibble bit falls on its bit (R74). -/
theorem hasBit_frame_blMask {c : Cfg} (h : validCfg c = true) (ha : apart c c.blMask = true) (bl : Bool) (n : Nibble)
    (rs : Bool) : hasBit (frame c bl n rs) c.blMask = bl := by
  obtain ⟨-, -, hrs, -, hbl⟩ := hasBit_controls h
  simp [frame, hasBit_or, hasBit_maskIf, hasBit_placedNibble ha, hrs, hbl]

/-- The enable pulse leaves the backlight bit of the frame (R75). -/
theorem hasBit_enabled_blMask {c : Cfg} (h : validCfg c = true) (f : Byte) :
    hasBit (enabled c f) c.blMask = hasBit f c.blMask := by
  obtain ⟨-, -, -, hen, -⟩ := hasBit_controls h
  simp [enabled, hasBit_or, hen]

/-- The byte a backlight operation re-issues for a new value of the flag (R127, R128). -/
def reissuedByte (c : Cfg) (v : Bool) (b : Byte) : Byte := if v then litByte c b else unlitByte c b

/-- A re-issued byte carries the new flag. -/
theorem hasBit_reissuedByte_blMask {c : Cfg} (h : validCfg c = true) (v : Bool) (b : Byte) :
    hasBit (reissuedByte c v b) c.blMask = v := by
  obtain ⟨-, -, -, -, hbl⟩ := hasBit_controls h
  cases v with
  | true => simp [reissuedByte, litByte, hasBit_or, hbl]
  | false => exact hasBit_and_not_self b c.blMask

/-- A re-issued byte keeps the enable bit. -/
theorem hasBit_reissuedByte_enMask {c : Cfg} (h : validCfg c = true) (v : Bool) (b : Byte) :
    hasBit (reissuedByte c v b) c.enMask = hasBit b c.enMask := by
  obtain ⟨-, hbl, -, -, -⟩ := hasBit_controls h
  cases v with
  | true => simp [reissuedByte, litByte, hasBit_or, hbl]
  | false => exact hasBit_and_not hbl b

end Sys2Proof.Machine
end

section
/-! The scripts of the LCD channel are made of enable pulses and delays, and every script is one of five kinds: what every
proof of this family reads off an instruction's events. -/

namespace Sys2Proof.Machine

/-- Lists of events made of enable pulses around base frames and of delays (R101 to R105), for one address and flag. -/
inductive Transfers (c : Cfg) (a : Nat) (bl : Bool) : List Event → Prop where
  | nil : Transfers c a bl []
  | wait (ms : Nat) : Transfers c a bl [.waitMs ms]
  | nibble (n : Nibble) (rs : Bool) : Transfers c a bl (pulse c a (frame c bl n rs))
  | append {es fs : List Event} : Transfers c a bl es → Transfers c a bl fs → Transfers c a bl (es ++ fs)

namespace Transfers

section
variable {c : Cfg} {a : Nat} {bl : Bool} {es fs : List Event}

/-- Transfers are events of the LCD channel. -/
theorem isLcd (h : Transfers c a bl es) : ∀ e ∈ es, e.isLcd = true := by
  induction h with
  | nil => simp
  | wait ms => exact isLcd_wait ms
  | nibble n rs => exact pulse_isLcd c a _
  | append _ _ ih1 ih2 => exact isLcd_append ih1 ih2

/-- Every transaction is one byte to the address: a base frame, or one with the enable bit set (R71, R101). -/
theorem xmit_mem (h : Transfers c a bl es) {a' : Nat} {bytes : List Byte} (hm : Event.xmit a' bytes ∈ es) :
    a' = a ∧ ∃ n rs, bytes = [frame c bl n rs] ∨ bytes = [enabled c (frame c bl n rs)] := by
  induction h with
  | nil => cases hm
  | wait ms => simp at hm
  | nibble n rs =>
    cases hp : c.presetWrite <;> simp only [pulse, hp] at hm <;> simp at hm
    · rcases hm with ⟨rfl, rfl⟩ | ⟨rfl, rfl⟩
      · exact ⟨rfl, n, rs, .inr rfl⟩
      · exact ⟨rfl, n, rs, .inl rfl⟩
    · rcases hm with ⟨rfl, rfl⟩ | ⟨rfl, rfl⟩ | ⟨rfl, rfl⟩
      · exact ⟨rfl, n, rs, .inl rfl⟩
      · exact ⟨rfl, n, rs, .inr rfl⟩
      · exact ⟨rfl, n, rs, .inl rfl⟩
  | append _ _ ih1 ih2 => exact (List.mem_append.mp hm).elim ih1 ih2

/-- Transfers leave a base frame on the port, or what stood there. -/
theorem lastWritten_eq (h : Transfers c a bl es) (b : Option Byte) :
    lastWritten b es = b ∨ ∃ n rs, lastWritten b es = some (frame c bl n rs) := by
  induction h generalizing b with
  | nil => exact .inl rfl
  | wait ms => exact .inl rfl
  | nibble n rs => exact .inr ⟨n, rs, lastWritten_pulse c a _ b⟩
  | @append es fs _ _ ih1 ih2 =>
    rw [lastWritten_append]
    rcases ih2 (lastWritten b es) with h | h
    · exact h.symm ▸ ih1 b
    · exact .inr h

theorem andThen {sc sd : Script} (h1 : Transfers c a bl sc.events) (h2 : Transfers c a bl sd.events) :
    Transfers c a bl (sc.andThen sd).events := by
  rw [Script.andThen]
  cases sc.ending with
  | none => exact h1.append h2
  | some f => exact h1

end

variable (c : Cfg) (a : Nat) (bl : Bool) (m : Memory)

theorem cmd (b : Byte) : Transfers c a bl (cmdEvents c a bl b) := ((nibble _ _).append (nibble _ _)).append (wait _)

theorem data (b : Byte) : Transfers c a bl (dataEvents c a bl b) := ((nibble _ _).append (nibble _ _)).append (wait _)

theorem lone (n : Nibble) (ms : Nat) : Transfers c a bl (loneEvents c a bl n ms) := (nibble _ _).append (wait _)

/-- The handshake, with the flag that `lcd.init` has set (R121). -/
theorem init : Transfers c a c.blInit (initEvents c a) := by
  have hmode : Transfers c a c.blInit (match c.modeNibble with
      | none => []
      | some n => loneEvents c a c.blInit n c.modeDelayMs) := by
    cases c.modeNibble with
    | none => exact nil
    | some n => exact lone c a _ n _
  exact ((((((((wait _).append (lone ..)).append (lone ..)).append (lone ..)).append hmode).append (cmd ..)).append
    (cmd ..)).append ((cmd ..).append (wait _))).append (cmd ..)

/-- `write_text`, whatever host memory holds (R126). -/
theorem text (fuel p : Nat) : Transfers c a bl (textScript c a bl m fuel p).events := by
  induction fuel generalizing p with
  | zero => exact nil
  | succ fuel ih =>
    rw [textScript]
    cases Memory.read m p with
    | none => exact nil
    | some b =>
      by_cases hb : b = 0
      · simp only [hb, if_true]; exact nil
      · simp only [hb, if_false]; exact (data c a bl b).append (ih _)

/-- One chunk of `write_wrapped` (R130). -/
theorem chunk (count p : Nat) : Transfers c a bl (chunkScript c a bl m count p).1.events := by
  induction count generalizing p with
  | zero => exact nil
  | succ count ih =>
    rw [chunkScript]
    cases Memory.read m p with
    | none => exact nil
    | some b =>
      by_cases hb : b = 0
      · simp only [hb, if_true]; exact nil
      · simp only [hb, if_false]; exact (data c a bl b).append (ih _)

/-- `write_wrapped` (R130). -/
theorem wrap (p left r : Nat) : Transfers c a bl (wrapScript c a bl m p left r).events := by
  induction left generalizing r with
  | zero => exact nil
  | succ left ih =>
    rw [wrapScript]
    cases Memory.read m (p + r * c.cols) with
    | none => exact nil
    | some b =>
      by_cases hb : b = 0
      · simp only [hb, if_true]; exact nil
      · simp only [hb, if_false]
        refine (cmd c a bl _).append ((chunk c a bl m _ _).andThen ?_)
        split
        · exact nil
        · exact ih _

/-- A counted run of characters (R131). -/
theorem chars (count p : Nat) : Transfers c a bl (charsScript c a bl m count p).events := by
  induction count generalizing p with
  | zero => exact nil
  | succ count ih =>
    rw [charsScript]
    cases Memory.read m p with
    | none => exact nil
    | some b => exact (data c a bl b).append (ih _)

/-- The windows of `scroll_row` (R131). -/
theorem windows (row d left p : Nat) : Transfers c a bl (windowsScript c a bl m row d left p).events := by
  induction left generalizing p with
  | zero => exact nil
  | succ left ih =>
    refine (cmd c a bl _).append ((chars c a bl m _ _).andThen (append ?_ (ih _)))
    split
    · exact wait d
    · exact nil

/-- `scroll_row` (R131). -/
theorem scroll (row p d : Nat) : Transfers c a bl (scrollScript c a bl m row p d).events := by
  rw [scrollScript]
  cases lengthOrBad m (m.length + 1) p with
  | error bad => exact nil
  | ok len =>
    by_cases hl : len ≤ c.cols
    · simp only [hl, if_true]; exact (cmd c a bl _).append (chars c a bl m _ _)
    · simp only [hl, if_false]; exact windows c a bl m row d _ _

end Transfers

/-- The kinds of a script that an instruction plays in a state: the channel (true for the LED channel), the state its events
start from, and the script. -/
inductive Plays (s : State) : Bool → State → Script → Prop where
  /-- A session check fails before any event (R192, R193). -/
  | raised (f : Fault) : Plays s false s ⟨[], some f⟩
  /-- A first `lcd.init` (R121). -/
  | opened (bus : BusHandle) (addr : Nat) (h : s.inited = false) :
      Plays s false (s.openSession bus addr) ⟨initEvents s.cfg addr, none⟩
  /-- Transfers in a session. -/
  | transfers {sc : Script} (h : s.inited = true) (ht : Transfers s.cfg s.addr s.bl sc.events) : Plays s false s sc
  /-- A backlight operation in a session (R127, R128). -/
  | reissued (v : Bool) (b : Byte) (h : s.inited = true) (hb : s.shadow = some b) :
      Plays s false (s.setBl v) ⟨[.xmit s.addr [reissuedByte s.cfg v b]], none⟩
  /-- The LED channel starts no transaction. -/
  | led {sc : Script} (h : xmitCount sc.events = 0) : Plays s true s sc

/-- An LCD operation that only transfers. -/
theorem plays_sessionScript {s : State} {op : Option Byte} {sc : Script}
    (h : Transfers s.cfg s.addr s.bl sc.events) : Plays s false s (sessionScript s op sc) := by
  rw [sessionScript]
  cases hi : s.inited with
  | true => exact .transfers hi h
  | false => exact .raised _

/-- What the script of every instruction is. -/
theorem script_plays {i : Instr} {s : State} {sc : Script} (h : script i s = some sc) :
    Plays s (isLed i) (prep i s) sc := by
  cases i with
  | lcdInit bus addr =>
    cases hi : s.inited with
    | true => simp only [script, prep, hi, if_true, Option.some.injEq] at h ⊢; exact h ▸ .raised _
    | false =>
      simp only [script, prep, hi, Bool.false_eq_true, if_false, Option.some.injEq] at h ⊢
      exact h ▸ .opened bus addr hi
  | lcdBlon =>
    cases hi : s.inited with
    | true =>
      simp only [script, prep, hi, if_true, Option.map_eq_some_iff] at h ⊢
      obtain ⟨b, hb, rfl⟩ := h
      exact .reissued true b hi hb
    | false =>
      simp only [script, prep, hi, Bool.false_eq_true, if_false, Option.some.injEq] at h ⊢
      exact h ▸ .raised _
  | lcdBloff =>
    cases hi : s.inited with
    | true =>
      simp only [script, prep, hi, if_true, Option.map_eq_some_iff] at h ⊢
      obtain ⟨b, hb, rfl⟩ := h
      exact .reissued false b hi hb
    | false =>
      simp only [script, prep, hi, Bool.false_eq_true, if_false, Option.some.injEq] at h ⊢
      exact h ▸ .raised _
  | lcdText p => cases h; exact plays_sessionScript (.text ..)
  | lcdWrap p => cases h; exact plays_sessionScript (.wrap ..)
  | lcdScroll row p d => cases h; exact plays_sessionScript (.scroll ..)
  | lcdClear => cases h; exact plays_sessionScript ((Transfers.cmd ..).append (.wait _))
  | writeData b => cases h; exact plays_sessionScript (.data ..)
  | initNibble n => cases h; exact plays_sessionScript (.nibble ..)
  | ledSend p n => cases h; exact .led (xmitCount_sendScript ..)
  | wsBit0 => cases h; exact .led rfl
  | wsBit1 => cases h; exact .led rfl
  | wsReset => cases h; exact .led rfl
  | _ => cases h; exact plays_sessionScript (.cmd ..)

/-- A list without a transaction holds none. -/
theorem xmit_not_mem_of_xmitCount {es : List Event} (h : xmitCount es = 0) (a : Nat) (bytes : List Byte) :
    Event.xmit a bytes ∉ es := by
  induction es with
  | nil => exact List.not_mem_nil
  | cons e es ih => cases e <;> simp_all [xmitCount]

/-- A list without a transaction leaves the byte on the port. -/
theorem lastWritten_of_xmitCount {es : List Event} (h : xmitCount es = 0) (b : Option Byte) : lastWritten b es = b := by
  induction es with
  | nil => rfl
  | cons e es ih =>
    cases e with
    | xmit a bytes => simp [xmitCount] at h
    | _ => exact ih h

/-- A handshake leaves the last command's low nibble on the port (R121). -/
theorem lastWritten_initEvents (c : Cfg) (a : Nat) (b : Option Byte) :
    lastWritten b (initEvents c a) = some (frame c c.blInit (loNibble c.entryMode) false) := by
  rw [initEvents, lastWritten_append, lastWritten_cmdEvents]

namespace Plays

variable {s u : State} {sc : Script}

/-- The LCD channel's scripts hold events of that channel only. -/
theorem isLcd (h : Plays s false u sc) : ∀ e ∈ sc.events, e.isLcd = true := by
  cases h with
  | raised f => simp
  | opened bus addr hi => exact initEvents_isLcd _ _
  | transfers hi ht => exact ht.isLcd
  | reissued v b hi hb => simp [Event.isLcd]

/-- Every transaction is started in a session and is one byte to its address (R25, R71): a base frame, one with the enable
bit set, or a re-issued byte, each made with the flag of the state the events start from. -/
theorem xmit_mem {led : Bool} (h : Plays s led u sc) {a : Nat} {bytes : List Byte}
    (hm : Event.xmit a bytes ∈ sc.events) :
    u.inited = true ∧ a = u.addr ∧ ∃ b, bytes = [b] ∧
      ((∃ n rs, b = frame s.cfg u.bl n rs) ∨ (∃ n rs, b = enabled s.cfg (frame s.cfg u.bl n rs)) ∨
        ∃ b', b = reissuedByte s.cfg u.bl b') := by
  have framed : ∀ {addr : Nat} {bl : Bool}, Transfers s.cfg addr bl sc.events → a = addr ∧ ∃ b, bytes = [b] ∧
      ((∃ n rs, b = frame s.cfg bl n rs) ∨ (∃ n rs, b = enabled s.cfg (frame s.cfg bl n rs)) ∨
        ∃ b', b = reissuedByte s.cfg bl b') := by
    intro addr bl ht
    obtain ⟨ha, n, rs, hb | hb⟩ := ht.xmit_mem hm
    · exact ⟨ha, _, hb, .inl ⟨n, rs, rfl⟩⟩
    · exact ⟨ha, _, hb, .inr (.inl ⟨n, rs, rfl⟩)⟩
  cases h with
  | raised f => cases hm
  | opened bus addr hi => exact ⟨rfl, framed (Transfers.init s.cfg addr)⟩
  | transfers hi ht => exact ⟨hi, framed ht⟩
  | reissued v b hi hb =>
    obtain ⟨rfl, rfl⟩ : a = s.addr ∧ bytes = [reissuedByte s.cfg v b] := by simpa using hm
    exact ⟨hi, rfl, _, rfl, .inr (.inr ⟨b, rfl⟩)⟩
  | led hq => exact absurd hm (xmit_not_mem_of_xmitCount hq a bytes)

/-- Every byte carries the flag of the state the events start from, where no nibble bit falls on its bit (R26, R74). -/
theorem hasBit_blMask_of_mem {led : Bool} (h : Plays s led u sc) (hv : validCfg s.cfg = true)
    (hap : apart s.cfg s.cfg.blMask = true) {a : Nat} {b : Byte} (hm : Event.xmit a [b] ∈ sc.events) :
    hasBit b s.cfg.blMask = u.bl := by
  obtain ⟨-, -, b', hb, hcases⟩ := h.xmit_mem hm
  obtain rfl := List.singleton_inj.mp hb
  rcases hcases with ⟨n, rs, rfl⟩ | ⟨n, rs, rfl⟩ | ⟨b', rfl⟩
  · exact hasBit_frame_blMask hv hap u.bl n rs
  · rw [hasBit_enabled_blMask hv, hasBit_frame_blMask hv hap]
  · exact hasBit_reissuedByte_blMask hv u.bl b'

end Plays

end Sys2Proof.Machine
end

section
/-! What an instruction that answers a next state has done to the session, the trace and the ending (R21, R25, R190, R198). -/

namespace Sys2Proof.Machine

/-- The events up to a transaction are the first ones of the list. -/
theorem throughXmit_prefix (k : Nat) (es : List Event) : throughXmit k es <+: es := by
  induction es generalizing k with
  | nil => cases k <;> exact List.prefix_rfl
  | cons e es ih => cases e <;> cases k <;> simp [throughXmit, ih]

/-- The fields that only the start of an instruction writes. -/
theorem exec_next_fields {i : Instr} {s t : State} (h : exec i s = .next t) :
    t.cfg = s.cfg ∧ t.program = s.program ∧ t.mem = s.mem ∧ t.inited = (prep i s).inited ∧ t.bus = (prep i s).bus ∧
      t.addr = (prep i s).addr ∧ t.bl = (prep i s).bl := by
  obtain ⟨hcfg, -, -, -, -, -, -, hprogram, hmem, -, -, -⟩ := prep_fields i s
  obtain ⟨-, sc, -, ⟨-, ⟨-, rfl⟩ | ⟨f, -, rfl⟩⟩ | ⟨k, -, -, -, rfl⟩⟩ := exec_next h <;>
    simp [hcfg, hprogram, hmem]

/-- The events an instruction has emitted are its script's, or the script's first events up to a hang. -/
theorem exec_next_trace {i : Instr} {s t : State} (h : exec i s = .next t) :
    ∃ sc es, script i s = some sc ∧ es <+: sc.events ∧ t.trace = s.trace ++ es ∧ t.pin = lastPin s.pin es ∧
      (t.blocked = false → t.shadow = lastWritten s.shadow es) := by
  obtain ⟨-, hshadow, hpin, -, -, htrace, -, -, -, -, -, -⟩ := prep_fields i s
  obtain ⟨-, sc, hs, ⟨-, ⟨-, rfl⟩ | ⟨f, -, rfl⟩⟩ | ⟨k, -, -, -, rfl⟩⟩ := exec_next h
  · exact ⟨sc, sc.events, hs, List.prefix_rfl, by simp [htrace], by simp [hpin], fun _ => by simp [hshadow]⟩
  · exact ⟨sc, sc.events, hs, List.prefix_rfl, by simp [htrace], by simp [hpin], fun _ => by simp [hshadow]⟩
  · exact ⟨sc, throughXmit k sc.events, hs, throughXmit_prefix k _, by simp [htrace], by simp [hpin],
      fun hb => by simp at hb⟩

/-- In a session every instruction starts from that session (R23 to R25). -/
theorem prep_session (i : Instr) {s : State} (h : s.inited = true) :
    (prep i s).inited = true ∧ (prep i s).bus = s.bus ∧ (prep i s).addr = s.addr := by
  cases i <;> simp [prep, h]

/-- Settles O8: the three ways in which an instruction answers a next state are the three endings. -/
theorem completesFaultsOrHangs : Obligations.CompletesFaultsOrHangs := by
  unfold Obligations.CompletesFaultsOrHangs
  intro i s t h
  obtain ⟨-, -, -, -, hfault, -, hpc, -, -, -, -, hblocked⟩ := prep_fields i s
  obtain ⟨hl, sc, -, hending⟩ := exec_next h
  refine ⟨hl, ?_⟩
  obtain ⟨-, hb, hf⟩ := hl
  rcases hending with ⟨-, ⟨-, rfl⟩ | ⟨f, -, rfl⟩⟩ | ⟨k, -, -, -, rfl⟩
  · exact .inl (by simp [hpc, hfault, hblocked, hb, hf])
  · exact .inr (.inl (by simp [hpc, hblocked, hb]))
  · exact .inr (.inr (by simp [hpc, hfault, hf]))

/-- Settles O9: an operation starts with no fault recorded (R31), and a step with one recorded can only wait in a hang. -/
theorem faultIsFinal : Obligations.FaultIsFinal := by
  unfold Obligations.FaultIsFinal
  refine ⟨fun _ => rfl, fun _ _ => rfl, fun s f hf => ?_⟩
  have hexec : ∀ (i : Instr) (t : State), exec i s ≠ .next t := by
    intro i t h
    obtain ⟨⟨-, -, hnone⟩, -⟩ := exec_next h
    cases hf.symm.trans hnone
  refine ⟨hexec, fun t ht => ?_, fun hv hb i => ?_⟩
  · obtain ⟨-, hwait | ⟨-, -, hnone, -⟩ | ⟨-, -, i, -, -, h⟩⟩ := step_cases ht
    · exact hwait
    · cases hf.symm.trans hnone
    · exact absurd h (hexec i t)
  · obtain ⟨refusal, body, he⟩ := exec_operates i
    rw [he, operateUnless_faulted hv hb hf]

/-- Settles O6: the model's own equation of a step. -/
theorem stepRunsDecoded : Obligations.StepRunsDecoded := by
  unfold Obligations.StepRunsDecoded
  intro s w i hv hb hw hd
  exact step_exec hv hb hw hd

end Sys2Proof.Machine
end

section
/-! The two invariants of the machine: O26 and O27. -/

namespace Sys2Proof.Machine

/-- The agreement of trace and fields is kept by an instruction (R25, R28, R29, R58). -/
theorem exec_keeps_traceInv {i : Instr} {s t : State} (hinv : s.TraceInv) (h : exec i s = .next t) : t.TraceInv := by
  obtain ⟨hshadow, hpin, hxmit⟩ := hinv
  obtain ⟨⟨-, hb, -⟩, -⟩ := exec_next h
  obtain ⟨hcfg, -, -, hinited, -, haddr, -⟩ := exec_next_fields h
  obtain ⟨sc, es, hs, hprefix, htrace, htpin, htshadow⟩ := exec_next_trace h
  refine ⟨fun hunblocked => ?_, ?_, fun a bytes hm => ?_⟩
  · rw [htshadow hunblocked, htrace, lastWritten_append, hshadow hb]
  · rw [htpin, htrace, lastPin_append, hcfg, hpin]
  · rw [hinited, haddr]
    rw [htrace] at hm
    rcases List.mem_append.mp hm with hold | hnew
    · obtain ⟨hset, rfl, hlen⟩ := hxmit a bytes hold
      obtain ⟨hi, -, ha⟩ := prep_session i hset
      exact ⟨hi, ha.symm, hlen⟩
    · obtain ⟨hi, ha, b, rfl, -⟩ := (script_plays hs).xmit_mem (hprefix.subset hnew)
      exact ⟨hi, ha, rfl⟩

/-- Settles O27: a step that runs no instruction answers the state itself. -/
theorem stepKeepsTraceAgreement : Obligations.StepKeepsTraceAgreement := by
  unfold Obligations.StepKeepsTraceAgreement
  intro s t hinv h
  obtain ⟨-, ⟨-, rfl⟩ | ⟨-, -, -, rfl⟩ | ⟨-, -, i, -, -, hexec⟩⟩ := step_cases h
  · exact hinv
  · exact hinv
  · exact exec_keeps_traceInv hinv hexec

/-- The shadow of a session is consistent where its two control bits are. -/
theorem shadowConsistent_of_byte {s : State} {b : Byte} (hi : s.inited = true) (hs : s.shadow = some b)
    (hen : apart s.cfg s.cfg.enMask = true → hasBit b s.cfg.enMask = false)
    (hbl : apart s.cfg s.cfg.blMask = true → hasBit b s.cfg.blMask = s.bl) : shadowConsistent s := by
  refine ⟨fun _ => by simp [hs], fun b' hb' => ?_⟩
  obtain rfl := Option.some.inj (hs.symm.trans hb')
  exact ⟨hi, hen, hbl⟩

/-- A base frame is a consistent shadow (R72, R74). -/
theorem shadowConsistent_of_frame {s : State} (n : Nibble) (rs : Bool) (hv : validCfg s.cfg = true)
    (hi : s.inited = true) (hs : s.shadow = some (frame s.cfg s.bl n rs)) : shadowConsistent s :=
  shadowConsistent_of_byte hi hs (fun ha => hasBit_frame_enMask hv ha s.bl n rs)
    (fun ha => hasBit_frame_blMask hv ha s.bl n rs)

/-- Consistency of the shadow depends on four fields. -/
theorem shadowConsistent_congr {s t : State} (hcfg : t.cfg = s.cfg) (hinited : t.inited = s.inited) (hbl : t.bl = s.bl)
    (hshadow : t.shadow = s.shadow) (h : shadowConsistent s) : shadowConsistent t := by
  unfold shadowConsistent at h ⊢
  rwa [hcfg, hinited, hbl, hshadow]

/-- Each kind of script, played whole, leaves a consistent shadow: the one before, a base frame, or the re-issued byte. -/
theorem Plays.keeps_shadowConsistent {s u : State} {sc : Script} {led : Bool} (h : Plays s led u sc)
    (hv : validCfg s.cfg = true) (hc : shadowConsistent s) : shadowConsistent (u.absorbAll sc.events) := by
  cases h with
  | raised f => exact hc
  | opened bus addr hi =>
    exact shadowConsistent_of_frame (loNibble s.cfg.entryMode) false (by simpa using hv) (by simp)
      (by simp [lastWritten_initEvents])
  | transfers hi ht =>
    rcases ht.lastWritten_eq s.shadow with hsame | ⟨n, rs, hframe⟩
    · exact shadowConsistent_congr (by simp) (by simp) (by simp) (by simp [hsame]) hc
    · exact shadowConsistent_of_frame n rs (by simpa using hv) (by simpa using hi) (by simp [hframe])
  | reissued v b hi hb =>
    obtain ⟨-, hen, -⟩ := hc.2 b hb
    refine shadowConsistent_of_byte (b := reissuedByte s.cfg v b) (by simpa using hi) (by simp [lastWritten, writtenBytes])
      (fun ha => ?_) (fun _ => ?_)
    · simpa [hasBit_reissuedByte_enMask hv] using hen (by simpa using ha)
    · simpa using hasBit_reissuedByte_blMask hv v b
  | led hq =>
    exact shadowConsistent_congr (by simp) (by simp) (by simp) (by simp [lastWritten_of_xmitCount hq]) hc

/-- The invariant is kept by an instruction that stands in the program (R21, R26, R74, R127, R198). -/
theorem exec_keeps_inv {i : Instr} {s t : State} (hinv : s.Inv) (hpc : s.pc < s.program.length)
    (h : exec i s = .next t) : t.Inv := by
  obtain ⟨hmem, -, -, hshadow⟩ := hinv
  obtain ⟨hcfg, hprogram, htmem, -⟩ := exec_next_fields h
  obtain ⟨⟨hv, hb, -⟩, hending⟩ := completesFaultsOrHangs i s t h
  refine ⟨by rwa [htmem], ?_, ?_, fun _ hunblocked => ?_⟩
  · rw [hprogram]
    rcases hending with ⟨hp, -⟩ | ⟨hp, -⟩ | ⟨hp, -⟩ <;> omega
  · rcases hending with ⟨-, hf, -⟩ | ⟨-, -, hb'⟩ | ⟨-, hf, -⟩
    · exact fun _ => hf
    · exact fun hblocked => by simp [hb'] at hblocked
    · exact fun _ => hf
  · obtain ⟨-, sc, hs, ⟨-, ⟨-, rfl⟩ | ⟨f, -, rfl⟩⟩ | ⟨k, -, -, -, rfl⟩⟩ := exec_next h
    · exact (script_plays hs).keeps_shadowConsistent hv (hshadow hv hb)
    · exact (script_plays hs).keeps_shadowConsistent hv (hshadow hv hb)
    · simp at hunblocked

/-- Settles O26: a step that runs no instruction answers the state itself, and an instruction that runs stands in the program. -/
theorem stepKeepsInvariant : Obligations.StepKeepsInvariant := by
  unfold Obligations.StepKeepsInvariant
  intro s t hinv h
  obtain ⟨-, ⟨-, rfl⟩ | ⟨-, -, -, rfl⟩ | ⟨-, w, i, hw, -, hexec⟩⟩ := step_cases h
  · exact hinv
  · exact hinv
  · obtain ⟨hpc, -⟩ := List.getElem?_eq_some_iff.mp hw
    exact exec_keeps_inv hinv hpc hexec

end Sys2Proof.Machine
end

section
/-! The session, the backlight flag and the transport (R23 to R26, R32, R107, R198): O19 to O22, O32 and O34. -/

namespace Sys2Proof.Machine

/-- Only `lcd.init` starts from another session (R23 to R25). -/
theorem prep_session_of_ne_lcdInit {i : Instr} (h : ∀ bus addr, i ≠ .lcdInit bus addr) (s : State) :
    (prep i s).inited = s.inited ∧ (prep i s).bus = s.bus ∧ (prep i s).addr = s.addr := by
  cases i with
  | lcdInit bus addr => exact absurd rfl (h bus addr)
  | lcdBlon => cases hi : s.inited <;> simp [prep, hi]
  | lcdBloff => cases hi : s.inited <;> simp [prep, hi]
  | _ => exact ⟨rfl, rfl, rfl⟩

/-- A first `lcd.init` starts from the session it opens (R121). -/
theorem prep_lcdInit {s : State} (h : s.inited = false) (bus : BusHandle) (addr : Nat) :
    prep (.lcdInit bus addr) s = s.openSession bus addr := by simp [prep, h]

/-- An `lcd.init` that raises nothing was the first one (R193). -/
theorem inited_of_lcdInit_next {bus : BusHandle} {addr : Nat} {s t : State} (h : exec (.lcdInit bus addr) s = .next t)
    (hf : t.fault = none) : s.inited = false := by
  obtain ⟨hl, -⟩ := exec_next h
  by_contra hi
  rw [Bool.not_eq_false] at hi
  rw [exec, execLcdInit, operate_live hl, initBody_reInit bus addr hi, finish_error] at h
  cases h
  simp at hf

/-- Settles O19: the three fields are those of the state that the instruction's events start from. -/
theorem initedOnlySetByInitialize : Obligations.InitedOnlySetByInitialize := by
  unfold Obligations.InitedOnlySetByInitialize
  refine ⟨fun _ => rfl, fun i s t h => ?_⟩
  obtain ⟨-, -, -, hinited, hbus, haddr, -⟩ := exec_next_fields h
  rw [hinited, hbus, haddr]
  refine ⟨prep_session i, fun hne => prep_session_of_ne_lcdInit hne s, ?_⟩
  rintro bus addr rfl hf
  rw [prep_lcdInit (inited_of_lcdInit_next h hf)]
  exact ⟨rfl, rfl, rfl⟩

/-- Settles O20: the flag is that of the state that the instruction's events start from. -/
theorem backlightFlagWriters : Obligations.BacklightFlagWriters := by
  unfold Obligations.BacklightFlagWriters
  intro i s t h
  obtain ⟨-, -, -, -, -, -, hbl⟩ := exec_next_fields h
  rw [hbl]
  refine ⟨?_, ?_, ?_, fun hinit hon hoff => ?_⟩
  · rintro bus addr rfl hi
    rw [prep_lcdInit hi, State.openSession_bl]
  · rintro rfl hi
    simp [prep, hi]
  · rintro rfl hi
    simp [prep, hi]
  · cases i with
    | lcdInit bus addr => exact absurd rfl (hinit bus addr)
    | lcdBlon => exact absurd rfl hon
    | lcdBloff => exact absurd rfl hoff
    | _ => rfl

/-- Settles O21: the events are a script's, and a script's bytes carry the flag. -/
theorem writtenBytesCarryTheFlag : Obligations.WrittenBytesCarryTheFlag := by
  unfold Obligations.WrittenBytesCarryTheFlag
  intro i s t events h hap htrace a b hm
  obtain ⟨⟨hv, -, -⟩, -⟩ := exec_next h
  obtain ⟨-, -, -, -, -, -, hbl⟩ := exec_next_fields h
  obtain ⟨sc, es, hs, hprefix, htrace', -⟩ := exec_next_trace h
  obtain rfl : events = es := List.append_cancel_left (htrace.symm.trans htrace')
  rw [hbl]
  exact (script_plays hs).hasBit_blMask_of_mem hv (beq_iff_eq.mpr hap) (hprefix.subset hm)

/-- A list cut at a transaction that never returns has that reply among its own. -/
theorem never_mem_answers_throughXmit {bus : BusHandle} {rs : List Reply} {n k : Nat} {es : List Event}
    (h : (answers bus rs n es)[k]? = some .never) : Reply.never ∈ answers bus rs n (throughXmit k es) := by
  rw [answers_throughXmit]
  refine List.mem_of_getElem? (i := k) ?_
  rw [List.getElem?_take_of_lt (Nat.lt_succ_self k), h]

/-- Settles O22: a script played whole has returned from every transaction, and one cut in a hang ends in the one that never
returns. -/
theorem noHangWhenTransportReturns : Obligations.NoHangWhenTransportReturns := by
  unfold Obligations.NoHangWhenTransportReturns
  intro i s t events h htrace
  obtain ⟨-, -, -, -, -, hptrace, -, -, -, hreplies, hdraws, hpblocked⟩ := prep_fields i s
  obtain ⟨-, -, -, -, hbus, -, -⟩ := exec_next_fields h
  obtain ⟨⟨-, hb, -⟩, sc, -, ⟨hreturns, hend⟩ | ⟨k, -, -, hnever, rfl⟩⟩ := exec_next h
  · have ht : t.blocked = false ∧ t.trace = s.trace ++ sc.events := by
      rcases hend with ⟨-, rfl⟩ | ⟨f, -, rfl⟩ <;> simp [hptrace, hpblocked, hb]
    obtain ⟨hblocked, htrace'⟩ := ht
    obtain rfl : events = sc.events := List.append_cancel_left (htrace.symm.trans htrace')
    rw [State.transportReturns, State.returnsOn, hreplies, hdraws, ← hbus] at hreturns
    simp [hblocked, hreturns]
  · have htrace' : events = throughXmit k sc.events := by simpa [hptrace] using htrace.symm
    rw [hreplies, hdraws] at hnever
    rw [htrace', hbus]
    simpa using never_mem_answers_throughXmit hnever

/-- Settles O32: a first `lcd.init` plays its handshake in the session it opens, which returns or hangs. -/
theorem initializeCompletesOrHangs : Obligations.InitializeCompletesOrHangs := by
  unfold Obligations.InitializeCompletesOrHangs
  intro s bus addr hl hi
  have hexec : exec (.lcdInit bus addr) s = finish ((play (initEvents s.cfg addr)).run (s.openSession bus addr)) := by
    rw [exec, execLcdInit, operate_live hl, initBody_play bus addr hi]
  obtain ⟨-, hb, hf⟩ := hl
  rcases play_cases (initEvents s.cfg addr) (s.openSession bus addr) with ⟨hret, hrun⟩ | ⟨k, -, -, hnever, hrun⟩
  · exact ⟨((s.openSession bus addr).absorbAll (initEvents s.cfg addr)).advance, by rw [hexec, hrun, finish_ok],
      by simp [hf], iff_of_true (by simp [hb]) hret, by simp [hb]⟩
  · exact ⟨(s.openSession bus addr).hungIn k (initEvents s.cfg addr), by rw [hexec, hrun, finish_error], by simp [hf],
      iff_of_false (by simp) fun hret => hret (List.mem_of_getElem? hnever), by simp⟩

/-- LCD events do not touch the interrupt-enable bit or the LED line. -/
theorem absorbAll_lcd_led {es : List Event} (h : ∀ e ∈ es, e.isLcd = true) (s : State) :
    (s.absorbAll es).ie = s.ie ∧ lastPin s.pin es = s.pin := by
  rw [← absorbAll_pin, absorbAll_lcd s h]
  exact ⟨rfl, rfl⟩

/-- A hang in LCD events, field by field (R198). -/
theorem hungIn_lcd (s : State) (k : Nat) {es : List Event} (h : ∀ e ∈ es, e.isLcd = true) :
    s.hungIn k es =
      { s with
        trace := s.trace ++ throughXmit k es, shadow := lastWritten s.shadow (throughXmit k es).dropLast,
        replies := s.replies.drop (k + 1), draws := s.draws + (k + 1), blocked := true } := by
  obtain ⟨hie, hpin⟩ := absorbAll_lcd_led (fun e he => h e ((throughXmit_prefix k es).subset he)) s
  rw [State.hungIn, hie, hpin]

/-- Settles O34: `clear` plays its events, which hang in transaction `k`. -/
theorem clearHangs : Obligations.ClearHangs := by
  unfold Obligations.ClearHangs
  intro s k hsession hk hret hnever
  rw [exec, execLcdClear, operate_session hsession, clearBody_play, play_hangs hk hret hnever, finish_error,
    hungIn_lcd s k (clearEvents_isLcd _ _ _)]

end Sys2Proof.Machine
end

section
/-! What cannot be observed: the LED channel's fields by the LCD channel (O17), the outcomes of the transport (O23), and a
session before it is opened (O24). Each is a change of the state that commutes with every instruction. -/

namespace Sys2Proof.Machine

/-- Whether a reply is a hang. -/
def isNever (r : Reply) : Bool := decide (r = .never)

theorem never_mem_iff_isNever (rs : List Reply) : Reply.never ∈ rs ↔ true ∈ rs.map isNever := by
  simp [isNever]

theorem getElem?_never_iff_isNever (rs : List Reply) (k : Nat) :
    rs[k]? = some .never ↔ (rs.map isNever)[k]? = some true := by
  simp [isNever]

/-- Replies that hang in the same places answer with hangs in the same places, the free values after them included. -/
theorem answers_map_isNever {rs qs : List Reply} (h : qs.map isNever = rs.map isNever) (bus : BusHandle) (n : Nat)
    (es : List Event) : (answers bus qs n es).map isNever = (answers bus rs n es).map isNever := by
  induction es generalizing rs qs n with
  | nil => rfl
  | cons e es ih =>
    cases e with
    | xmit a bytes =>
      have htail := ih (rs := rs.tail) (qs := qs.tail) (by rw [List.map_tail, List.map_tail, h]) (n + 1)
      have hhead : isNever (replyTo qs n bus a bytes) = isNever (replyTo rs n bus a bytes) := by
        cases qs <;> cases rs <;> simp_all [replyTo]
      simp only [answers, List.map_cons, hhead, htail]
    | _ => exact ih h n

/-- From two states whose transactions hang in the same places a script ends in the same way. -/
theorem Script.run_both (sc : Script) {s u : State}
    (h : (answers u.bus u.replies u.draws sc.events).map isNever =
      (answers s.bus s.replies s.draws sc.events).map isNever) :
    (sc.run.run s = (conclude sc.ending).run (s.absorbAll sc.events) ∧
        sc.run.run u = (conclude sc.ending).run (u.absorbAll sc.events)) ∨
      ∃ k < xmitCount sc.events, sc.run.run s = .error .hung (s.hungIn k sc.events) ∧
        sc.run.run u = .error .hung (u.hungIn k sc.events) := by
  rcases sc.run_cases s with ⟨hret, hrun⟩ | ⟨k, hk, hret, hnever, hrun⟩
  · have hret' : u.transportReturns sc.events := by
      rw [State.transportReturns, State.returnsOn, never_mem_iff_isNever] at hret ⊢
      rwa [h]
    exact .inl ⟨hrun, bind_ok (play_returns _ hret')⟩
  · rw [never_mem_iff_isNever, List.map_take, ← h, ← List.map_take, ← never_mem_iff_isNever] at hret
    rw [getElem?_never_iff_isNever, ← h, ← getElem?_never_iff_isNever] at hnever
    exact .inr ⟨k, hk, hrun, bind_error (play_hangs hk hret hnever)⟩

/-- A change of the state commutes with an instruction where it keeps what decides whether an operation starts and which script
is played, keeps the hangs, and commutes with playing the script. -/
theorem exec_mapNext_of_script {g : State → State} {i : Instr} {s : State} (hcfg : (g s).cfg = s.cfg)
    (hblocked : (g s).blocked = s.blocked) (hfault : (g s).fault = s.fault) (hscript : script i (g s) = script i s)
    (hplay : ∀ sc, script i s = some sc →
      (answers (prep i (g s)).bus (prep i (g s)).replies (prep i (g s)).draws sc.events).map isNever =
          (answers (prep i s).bus (prep i s).replies (prep i s).draws sc.events).map isNever ∧
        (∀ ending, finish ((conclude ending).run ((prep i (g s)).absorbAll sc.events)) =
          mapNext g (finish ((conclude ending).run ((prep i s).absorbAll sc.events)))) ∧
        ∀ k < xmitCount sc.events, (prep i (g s)).hungIn k sc.events = g ((prep i s).hungIn k sc.events)) :
    exec i (g s) = mapNext g (exec i s) := by
  by_cases hl : s.live
  · have hl' : (g s).live := by rwa [State.live, hcfg, hblocked, hfault]
    rw [exec_script i hl, exec_script i hl', hscript]
    cases hs : script i s with
    | none => rfl
    | some sc =>
      obtain ⟨hhangs, hended, hhung⟩ := hplay sc hs
      rcases sc.run_both hhangs with ⟨h1, h2⟩ | ⟨k, hk, h1, h2⟩
      · simp only [h1, h2, hended]
      · simp only [h1, h2, hhung k hk]
        rfl
  · exact exec_mapNext_of_not_live hcfg hblocked hfault hl i

/-- A change of the state that commutes with opening a session and setting the flag commutes with the start of an
instruction. -/
theorem prep_comm {g : State → State} {s : State} (hinited : (g s).inited = s.inited)
    (hopen : ∀ bus addr, (g s).openSession bus addr = g (s.openSession bus addr))
    (hbl : ∀ v, (g s).setBl v = g (s.setBl v)) (i : Instr) : prep i (g s) = g (prep i s) := by
  cases i with
  | lcdInit bus addr => rw [prep, prep, hinited, hopen, apply_ite g]
  | lcdBlon => rw [prep, prep, hinited, hbl, apply_ite g]
  | lcdBloff => rw [prep, prep, hinited, hbl, apply_ite g]
  | _ => rfl

/-! ### The LED channel's fields -/

/-- The state with other values of the interrupt-enable bit and the LED line. -/
def State.withLed (ie pin : Bool) (s : State) : State := { s with ie := ie, pin := pin }

/-- The script of an LCD instruction does not read them. -/
theorem script_withLed {i : Instr} (h : isLed i = false) (ie pin : Bool) (s : State) :
    script i (s.withLed ie pin) = script i s := by
  cases i with
  | ledSend p n => cases h
  | wsBit0 => cases h
  | wsBit1 => cases h
  | wsReset => cases h
  | _ => rfl

/-- Settles O17: an LCD instruction's events leave the two fields, and its script does not read them. -/
theorem lcdIgnoresLedFields : Obligations.LcdIgnoresLedFields := by
  unfold Obligations.LcdIgnoresLedFields
  intro i s ie pin hlcd
  refine exec_mapNext_of_script (g := State.withLed ie pin) rfl rfl rfl (script_withLed hlcd ie pin s)
    fun sc hs => ?_
  have hevents : ∀ e ∈ sc.events, e.isLcd = true := (hlcd ▸ script_plays hs).isLcd
  rw [prep_comm rfl (fun _ _ => rfl) (fun _ => rfl)]
  refine ⟨rfl, fun ending => ?_, fun k _ => ?_⟩
  · rw [absorbAll_lcd _ hevents, absorbAll_lcd _ hevents]
    cases ending <;> rfl
  · rw [hungIn_lcd _ k hevents, hungIn_lcd _ k hevents]
    rfl

/-! ### The transport's outcomes -/

/-- The state with other replies to come, the ones that a list holds after as many draws as there have been since draw `d`. -/
def State.withReplies (rs : List Reply) (d : Nat) (s : State) : State := { s with replies := rs.drop (s.draws - d) }

/-- Events that return draw as many of the other replies. -/
theorem absorbAll_withReplies (rs : List Reply) {d : Nat} (es : List Event) {s : State} (h : d ≤ s.draws) :
    (s.withReplies rs d).absorbAll es = (s.absorbAll es).withReplies rs d := by
  induction es generalizing s with
  | nil => rfl
  | cons e es ih =>
    have hone : (s.withReplies rs d).absorb e = (s.absorb e).withReplies rs d := by
      cases e with
      | xmit a bytes =>
        have hdrop : (rs.drop (s.draws - d)).tail = rs.drop (s.draws + 1 - d) := by
          rw [List.tail_drop, Nat.sub_add_comm h]
        simp [State.absorb, State.withReplies, hdrop]
      | _ => rfl
    have hd : d ≤ (s.absorb e).draws := by cases e <;> simp [State.absorb] <;> omega
    rw [State.absorbAll, State.absorbAll, hone, ih hd]

/-- So does a hang. -/
theorem hungIn_withReplies (rs : List Reply) {d : Nat} (k : Nat) (es : List Event) {s : State} (h : d ≤ s.draws) :
    (s.withReplies rs d).hungIn k es = (s.hungIn k es).withReplies rs d := by
  have hdrop : (rs.drop (s.draws - d)).drop (k + 1) = rs.drop (s.draws + (k + 1) - d) := by
    rw [List.drop_drop, Nat.sub_add_comm h]
  have hie : ((s.withReplies rs d).absorbAll (throughXmit k es)).ie = (s.absorbAll (throughXmit k es)).ie := by
    rw [absorbAll_withReplies rs _ h]
    rfl
  rw [State.hungIn, State.hungIn, hie]
  simp [State.withReplies, hdrop]

/-- Settles O23: replies that hang in the same places lead a script to the same end. -/
theorem outcomesAreDiscarded : Obligations.OutcomesAreDiscarded := by
  unfold Obligations.OutcomesAreDiscarded
  intro i s replies hhangs
  have hstart : s.withReplies replies s.draws = { s with replies := replies } := by simp [State.withReplies]
  obtain ⟨-, -, -, -, -, -, -, -, -, hreplies, hdraws, -⟩ := prep_fields i s
  rw [← hstart]
  refine exec_mapNext_of_script (g := State.withReplies replies s.draws) rfl rfl rfl ?_ fun sc _ => ?_
  · cases i <;> rfl
  · rw [prep_comm rfl (fun _ _ => rfl) (fun _ => rfl)]
    refine ⟨answers_map_isNever ?_ _ _ _, fun ending => ?_, fun k _ => hungIn_withReplies _ _ _ hdraws.ge⟩
    · have hlists : replies.map isNever = s.replies.map isNever := hhangs
      simpa [State.withReplies, hdraws, hreplies] using hlists
    · rw [absorbAll_withReplies _ _ hdraws.ge]
      cases ending <;> rfl

/-! ### The session before it is opened -/

/-- The state with another bus handle, address and flag. -/
def State.rebind (bus : BusHandle) (addr : Nat) (bl : Bool) (s : State) : State :=
  { s with bus := bus, addr := addr, bl := bl }

/-- Events that return leave these fields. -/
theorem absorbAll_rebind (bus : BusHandle) (addr : Nat) (bl : Bool) (es : List Event) (s : State) :
    (s.rebind bus addr bl).absorbAll es = (s.absorbAll es).rebind bus addr bl := by
  induction es generalizing s with
  | nil => rfl
  | cons e es ih =>
    have hone : (s.rebind bus addr bl).absorb e = (s.absorb e).rebind bus addr bl := by cases e <;> rfl
    rw [State.absorbAll, State.absorbAll, hone, ih]

/-- Before a session the script of an instruction reads none of them. -/
theorem script_rebind {s : State} (h : s.inited = false) (i : Instr) (bus : BusHandle) (addr : Nat) (bl : Bool) :
    script i (s.rebind bus addr bl) = script i s := by
  cases i <;> simp [script, sessionScript, State.rebind, h]

/-- Of the scripts that an unset session can see, only a first `lcd.init` starts a transaction. -/
theorem Plays.quiet_of_unset {s u : State} {sc : Script} {led : Bool} (h : Plays s led u sc) (hs : s.inited = false)
    (hu : u.inited = false) : xmitCount sc.events = 0 := by
  cases h with
  | raised f => rfl
  | opened bus addr _ => cases hu
  | transfers hi _ => cases hs.symm.trans hi
  | reissued v b hi _ => cases hs.symm.trans hi
  | led hq => exact hq

/-- Before a session every instruction but `lcd.init` starts from the state itself. -/
theorem prep_of_unset {i : Instr} {s : State} (hne : ∀ bus addr, i ≠ .lcdInit bus addr) (h : s.inited = false) :
    prep i s = s := by
  cases i with
  | lcdInit bus addr => exact absurd rfl (hne bus addr)
  | lcdBlon => simp [prep, h]
  | lcdBloff => simp [prep, h]
  | _ => rfl

/-- The state with another bus handle, address and flag, unless a session binds them. -/
def State.rebindUnset (bus : BusHandle) (addr : Nat) (bl : Bool) (s : State) : State :=
  if s.inited then s else s.rebind bus addr bl

theorem State.rebindUnset_unset {s : State} (h : s.inited = false) (bus : BusHandle) (addr : Nat) (bl : Bool) :
    s.rebindUnset bus addr bl = s.rebind bus addr bl := by simp [State.rebindUnset, h]

theorem State.rebindUnset_set {s : State} (h : s.inited = true) (bus : BusHandle) (addr : Nat) (bl : Bool) :
    s.rebindUnset bus addr bl = s := by simp [State.rebindUnset, h]

/-- What ends a script does not read these fields, and leaves `inited`. -/
theorem finish_conclude_rebindUnset (ending : Option Fault) (bus : BusHandle) (addr : Nat) (bl : Bool) (s : State) :
    finish ((conclude ending).run (s.rebindUnset bus addr bl)) =
      mapNext (State.rebindUnset bus addr bl) (finish ((conclude ending).run s)) := by
  cases ending <;> cases hi : s.inited <;> simp [conclude, mapNext, State.rebindUnset, hi] <;> rfl

/-- Settles O24: `lcd.init` overwrites the three fields; every other instruction plays the same script, without a
transaction that could go to the bus or the address. -/
theorem unsetSessionIsUnobservable : Obligations.UnsetSessionIsUnobservable := by
  unfold Obligations.UnsetSessionIsUnobservable
  intro i s bus addr bl hi
  have hstart := State.rebindUnset_unset hi bus addr bl
  change exec i (s.rebind bus addr bl) = mapNext (State.rebindUnset bus addr bl) (exec i s)
  rw [← hstart]
  refine exec_mapNext_of_script (g := State.rebindUnset bus addr bl) (by rw [hstart]; rfl) (by rw [hstart]; rfl)
    (by rw [hstart]; rfl) (by rw [hstart, script_rebind hi]) fun sc hs => ?_
  rw [hstart]
  by_cases hinit : ∃ b a, i = .lcdInit b a
  · obtain ⟨b, a, rfl⟩ := hinit
    have hprep : prep (.lcdInit b a) (s.rebind bus addr bl) = prep (.lcdInit b a) s := by
      rw [prep_lcdInit hi, prep_lcdInit (by exact hi)]
      rfl
    rw [hprep, prep_lcdInit hi]
    refine ⟨rfl, fun ending => ?_, fun k _ => (State.rebindUnset_set (by simp) bus addr bl).symm⟩
    rw [← finish_conclude_rebindUnset, State.rebindUnset_set (by simp)]
  · have hne : ∀ b a, i ≠ .lcdInit b a := fun b a h => hinit ⟨b, a, h⟩
    have hquiet : xmitCount sc.events = 0 :=
      (script_plays hs).quiet_of_unset hi (by rw [prep_of_unset hne hi, hi])
    have hanswers : ∀ u : State, answers u.bus u.replies u.draws sc.events = [] := fun u =>
      List.eq_nil_of_length_eq_zero ((answers_length ..).trans hquiet)
    rw [prep_of_unset hne hi, prep_of_unset hne (by exact hi)]
    refine ⟨by rw [hanswers, hanswers], fun ending => ?_, fun k hk => by omega⟩
    rw [absorbAll_rebind, ← finish_conclude_rebindUnset, State.rebindUnset_unset (by simpa using hi)]

end Sys2Proof.Machine
end

section
/-! Host memory (R50, R53, R55): that it is only read (O16), and that a buffer stands in the events of `send` (O60). -/

namespace Sys2Proof.Machine

/-- Settles O16: the fields are those that no instruction writes, and the events are its script's first ones. -/
theorem hostMemoryIsReadOnly : Obligations.HostMemoryIsReadOnly := by
  unfold Obligations.HostMemoryIsReadOnly
  intro i s t h
  obtain ⟨hcfg, hprogram, hmem, -, -, -, -⟩ := exec_next_fields h
  obtain ⟨-, events, -, -, htrace, -, -⟩ := exec_next_trace h
  exact ⟨fun a => by rw [hmem], hmem, hcfg, hprogram, events, htrace⟩

/-- In blocks of one length `n`, place `j` of block `i` is place `n * i + j` of the whole. -/
theorem getElem?_flatMap_block {α β : Type} {f : α → List β} {n : Nat} (hf : ∀ x, (f x).length = n) {l : List α}
    {i j : Nat} {x : α} (hi : l[i]? = some x) (hj : j < n) : (l.flatMap f)[n * i + j]? = (f x)[j]? := by
  induction l generalizing i with
  | nil => cases hi
  | cons y l ih =>
    rw [List.flatMap_cons]
    cases i with
    | zero =>
      obtain rfl : y = x := by simpa using hi
      rw [Nat.mul_zero, Nat.zero_add, List.getElem?_append_left (by rw [hf]; exact hj)]
    | succ i =>
      have hplace : n * (i + 1) + j = n + (n * i + j) := by rw [Nat.mul_succ]; omega
      rw [hplace, ← hf y, List.getElem?_append_right (Nat.le_add_right _ _), Nat.add_sub_cancel_left, hf y]
      exact ih (by simpa using hi)

/-- A bit symbol is four events (R162). -/
@[simp] theorem length_bitEvents (c : Cfg) (v : Bool) : (bitEvents c v).length = 4 := by cases v <;> rfl

/-- A bit symbol begins with the line driven high for the time of its value (R83, R162). -/
theorem bitEvents_high (c : Cfg) (v : Bool) :
    (bitEvents c v)[0]? = some (.pin true) ∧
      ∃ m, (bitEvents c v)[1]? = some (.spin (if v then c.t1hNs else c.t0hNs) m) := by
  cases v <;> exact ⟨rfl, _, rfl⟩

/-- Bit 7 of a byte comes first (R55). -/
theorem getElem?_msbFirst (b : Byte) {k : Nat} (hk : k < 8) : (msbFirst b)[k]? = some (b.getLsbD (7 - k)) := by
  have hmap : msbFirst b = (List.range 8).map fun k => b.getLsbD (7 - k) := rfl
  simp [hmap, hk]

/-- The symbols of a byte are 32 events (R167). -/
theorem length_byteSymbols (c : Cfg) (b : Byte) : ((msbFirst b).flatMap (bitEvents c)).length = 32 := by
  simp [msbFirst]

/-- The symbols of a buffer, by byte, bit position and place in the symbol (R55, R161). -/
theorem getElem?_bufferEvents (c : Cfg) {bs : List Byte} {i k j : Nat} (hi : i < bs.length) (hk : k < 8) (hj : j < 4) :
    (bufferEvents c bs)[32 * i + (4 * k + j)]? = (bitEvents c (bs[i].getLsbD (7 - k)))[j]? := by
  rw [bufferEvents, getElem?_flatMap_block (length_byteSymbols c) (List.getElem?_eq_getElem hi) (by omega),
    getElem?_flatMap_block (length_bitEvents c) (getElem?_msbFirst _ hk) hj]

/-- Each place of the buffer's symbols stands one later in `send`'s events, after `irq_off` (R161). -/
theorem getElem?_sendEvents (c : Cfg) (prev : Bool) {bs : List Byte} {i : Nat} {e : Event}
    (h : (bufferEvents c bs)[i]? = some e) : (sendEvents c prev bs)[i + 1]? = some e := by
  obtain ⟨hi, -⟩ := List.getElem?_eq_some_iff.mp h
  have hcons : sendEvents c prev bs = .irqOff prev :: (bufferEvents c bs ++ (holdEvents c ++ [.irqRestore prev])) := by
    simp [sendEvents]
  rw [hcons, List.getElem?_cons_succ, List.getElem?_append_left hi, h]

/-- `send` of a readable buffer plays its events and completes (R161). -/
theorem exec_ledSend {s : State} {p n : Nat} {bs : List Byte} (hl : s.live) (hb : HoldsBytes s.mem p bs)
    (hn : bs.length = 3 * n) :
    exec (.ledSend p n) s = .next (s.absorbAll (sendEvents s.cfg s.ie bs)).advance := by
  rw [exec, execLedSend, operate_live hl, sendBody_run hb hn, finish_ok]

/-- What holds of those events holds of `send`. -/
theorem completes_ledSend {s : State} {p n : Nat} {bs : List Byte} (hl : s.live) (hb : HoldsBytes s.mem p bs)
    (hn : bs.length = 3 * n) {Q : List Event → Prop} (hq : Q (sendEvents s.cfg s.ie bs)) :
    Completes (.ledSend p n) s Q := by
  have hexec := exec_ledSend hl hb hn
  obtain ⟨-, hblocked, hfault⟩ := hl
  exact ⟨_, _, hexec, by simp, by simp [hfault], by simp [hblocked], by simp, hq⟩

/-- Settles O60: the symbol of bit position `k` of byte `i` begins at place `32 * i + 4 * k` of the buffer's symbols. -/
theorem bufferReadsBack : Obligations.BufferReadsBack := by
  unfold Obligations.BufferReadsBack
  intro s p n bs hl hb hn
  refine completes_ledSend hl hb hn fun i k hi hk => ?_
  obtain ⟨hpin, m, hspin⟩ := bitEvents_high s.cfg (bs[i].getLsbD (7 - k))
  rw [← getElem?_bufferEvents s.cfg hi hk (by decide)] at hpin hspin
  exact ⟨getElem?_sendEvents _ _ hpin, m, getElem?_sendEvents _ _ hspin⟩

end Sys2Proof.Machine
end

section
/-! The encoding (30_encoding.md R76, R77, R81, R83 to R85, R88): O1, O2, O4 and O5. -/

namespace Sys2Proof

/-! ### The bits of a word -/

/-- A bus word's bits are the byte's, and RS in bit 8 (R76). -/
theorem getLsbD_busWord (rs : BitVec 1) (b : Byte) (k : Nat) :
    BitVec.getLsbD (w := 9) (rs ++ b) k = if k < 8 then b.getLsbD k else rs.getLsbD (k - 8) :=
  BitVec.getLsbD_append

/-- A bus word put together from the bits of `w` is `w`. -/
theorem lc_eq_of_bits {rs : BitVec 1} {b : Byte} {w : BitVec 9}
    (h : ∀ k < 9, (if k < 8 then b.getLsbD k else rs.getLsbD (k - 8)) = w.getLsbD k) : Word.lc (rs ++ b) = .lc w :=
  congrArg Word.lc (BitVec.eq_of_getLsbD_eq fun k hk => (getLsbD_busWord rs b k).trans (h k hk))

/-- The low bits of a bus word are the byte's. -/
theorem extractLsb'_busWord (rs : BitVec 1) (b : Byte) {len : Nat} (h : 0 + len ≤ 8) :
    BitVec.extractLsb' (n := 9) 0 len (rs ++ b) = b.extractLsb' 0 len :=
  BitVec.extractLsb'_append_eq_of_add_le h

/-- 1AAA AAAA (R77). -/
theorem getLsbD_setDdramByte (a : BitVec 7) (k : Nat) :
    (setDdramByte a).getLsbD k = if k < 7 then a.getLsbD k else (1#1).getLsbD (k - 7) :=
  BitVec.getLsbD_append

theorem extractLsb'_setDdramByte (a : BitVec 7) : (setDdramByte a).extractLsb' 0 7 = a :=
  BitVec.extractLsb'_append_eq_right

/-- 001L NFxx (R77). -/
theorem getLsbD_functionSetByte : ∀ (dataLength lines font : Bool) (ignored : BitVec 2), ∀ k < 8,
    (functionSetByte dataLength lines font ignored).getLsbD k =
      if k < 2 then ignored.getLsbD k else [font, lines, dataLength, true, false, false].getD (k - 2) false := by
  decide

theorem extractLsb'_functionSetByte (dataLength lines font : Bool) (ignored : BitVec 2) :
    (functionSetByte dataLength lines font ignored).extractLsb' 0 2 = ignored :=
  BitVec.extractLsb'_append_eq_right

/-- 0000 1DCB (R77). -/
theorem getLsbD_displayControlByte : ∀ display cursor blink : Bool, ∀ k < 8,
    (displayControlByte display cursor blink).getLsbD k = [blink, cursor, display, true].getD k false := by
  decide

/-- 0000 01IS (R77). -/
theorem getLsbD_entryModeByte : ∀ increment shift : Bool, ∀ k < 8,
    (entryModeByte increment shift).getLsbD k = [shift, increment, true].getD k false := by
  decide

/-! ### Encoding, then decoding -/

/-- Settles O1: the bits that the decoder tests are those that the encoder sets for the class, and the operands are the
other bits. -/
theorem decodeAfterEncode : Obligations.DecodeAfterEncode := by
  unfold Obligations.DecodeAfterEncode
  intro i
  cases i with
  | entryModeSet increment shift =>
    simp [encode, decode, commandWord, decodeLc, getLsbD_busWord, getLsbD_entryModeByte, -BitVec.getLsbD_eq_getElem]
  | displayControl display cursor blink =>
    simp [encode, decode, commandWord, decodeLc, getLsbD_busWord, getLsbD_displayControlByte,
      -BitVec.getLsbD_eq_getElem]
  | functionSet dataLength lines font ignored =>
    simp [encode, decode, commandWord, decodeLc, getLsbD_busWord, getLsbD_functionSetByte, extractLsb'_busWord,
      extractLsb'_functionSetByte, -BitVec.getLsbD_eq_getElem]
  | setDdramAddress address =>
    simp [encode, decode, commandWord, decodeLc, getLsbD_busWord, getLsbD_setDdramByte, extractLsb'_busWord,
      extractLsb'_setDdramByte, -BitVec.getLsbD_eq_getElem]
  | writeData character =>
    simp [encode, decode, dataWord, decodeLc, getLsbD_busWord, extractLsb'_busWord, -BitVec.getLsbD_eq_getElem]
  | initNibble nibble =>
    revert nibble
    decide
  | _ => rfl

/-! ### Decoding, then encoding -/

/-- The class that a bus word decodes to spells the word again: each branch of the decoder fixes the bits that it tests and
carries the others into the operands. -/
theorem encode_of_decodeLc {w : BitVec 9} {i : Instr} (h : decodeLc w = .ok i) : encode i = .lc w := by
  unfold decodeLc at h
  split_ifs at h with h8 h7 h6 h5 h4 h3 h2 h1 h0 <;> cases h <;> refine lc_eq_of_bits fun k hk => ?_
  case _ => interval_cases k <;> simp [h8, -BitVec.getLsbD_eq_getElem]
  case _ => interval_cases k <;> simp [h8, h7, getLsbD_setDdramByte, -BitVec.getLsbD_eq_getElem]
  case _ => interval_cases k <;> simp [h8, h7, h6, h5, getLsbD_functionSetByte, -BitVec.getLsbD_eq_getElem]
  case _ =>
    interval_cases k <;> simp [h8, h7, h6, h5, h4, h3, getLsbD_displayControlByte, -BitVec.getLsbD_eq_getElem]
  case _ =>
    interval_cases k <;> simp [h8, h7, h6, h5, h4, h3, h2, getLsbD_entryModeByte, -BitVec.getLsbD_eq_getElem]
  case _ => interval_cases k <;> simp [h8, h7, h6, h5, h4, h3, h2, h1, h0, -BitVec.getLsbD_eq_getElem]

/-- A listed id with as many operands as it has spells the word again (R85). -/
theorem encode_of_decodeHost {id : Byte} {operands : List Nat} {i : Instr} (h : decodeHost id operands = .ok i) :
    encode i = .ho id operands := by
  have hid : ∀ n, id.toNat = n → id = BitVec.ofNat 8 n := by
    rintro _ rfl
    simp
  unfold decodeHost at h
  split at h
  case h_10 => cases h
  all_goals
    rename_i hn
    obtain rfl := hid _ hn
    split at h <;> cases h
    rfl

/-- A lone nibble with RS = 0 (R81). -/
theorem encode_of_decodeLn : ∀ {w : BitVec 5} {i : Instr}, decodeLn w = .ok i → encode i = .ln w := by
  have h : ∀ w : BitVec 5, ∀ i ∈ (decodeLn w).toOption, encode i = .ln w := by decide
  exact fun {w i} hw => h w i (by simp [hw, Except.toOption])

/-- Settles O2, format by format. -/
theorem encodeAfterDecode : Obligations.EncodeAfterDecode := by
  unfold Obligations.EncodeAfterDecode
  intro w i h
  cases w with
  | ho id operands => exact encode_of_decodeHost h
  | lc w => exact encode_of_decodeLc h
  | ln w => exact encode_of_decodeLn h
  | wb w =>
    cases h
    revert w
    decide
  | hold =>
    cases h
    rfl

/-! ### The opcode table -/

/-- Every instruction's word is spelled by a row of the table. -/
theorem exists_row_spells_encode (i : Instr) : ∃ r ∈ opcodeTable, r.spells (encode i) = true := by
  have h : Laws.Table.Statement i := by
    cases i
    · exact Laws.Table.lcdInit ..
    · exact Laws.Table.lcdClear
    · exact Laws.Table.lcdCursor ..
    · exact Laws.Table.lcdText ..
    · exact Laws.Table.lcdBlon
    · exact Laws.Table.lcdBloff
    · exact Laws.Table.lcdWrap ..
    · exact Laws.Table.lcdScroll ..
    · exact Laws.Table.ledSend ..
    · exact Laws.Table.clearDisplay
    · exact Laws.Table.entryModeSet ..
    · exact Laws.Table.displayControl ..
    · exact Laws.Table.functionSet ..
    · exact Laws.Table.setDdramAddress ..
    · exact Laws.Table.writeData ..
    · exact Laws.Table.initNibble ..
    · exact Laws.Table.wsBit0
    · exact Laws.Table.wsBit1
    · exact Laws.Table.wsReset
  obtain ⟨r, hr, -, hs⟩ := h
  exact ⟨r, hr, hs⟩

/-- A row that spells a bus word is a row of that format, and its pattern is the word's bits under its mask. -/
theorem getLsbD_of_spells {r : Row} {w : BitVec 9} (h : r.spells (.lc w) = true) :
    r.format = .LC ∧ (∀ k, (r.mask &&& r.pattern).testBit k = true → w.getLsbD k = true) ∧
      ∀ k, r.mask.testBit k = true → r.pattern.testBit k = false → w.getLsbD k = false := by
  obtain ⟨hshape, hbits⟩ := (Bool.and_eq_true _ _).mp h
  obtain ⟨hformat, -⟩ := (Bool.and_eq_true _ _).mp hshape
  have hpattern : w.toNat &&& r.mask = r.pattern := of_decide_eq_true hbits
  have hbit : ∀ k, r.mask.testBit k = true → w.getLsbD k = r.pattern.testBit k := by
    intro k hk
    rw [← hpattern, Nat.testBit_and, hk, Bool.and_true, BitVec.testBit_toNat]
  refine ⟨of_decide_eq_true hformat, fun k hk => ?_, fun k hk hp => (hbit k hk).trans hp⟩
  rw [Nat.testBit_and, Bool.and_eq_true] at hk
  exact (hbit k hk.1).trans hk.2

/-- A bus word that a row spells is of that row's class: the decoder tests bits of the row's mask only. -/
theorem decodeLc_of_spells {r : Row} {w : BitVec 9} (hr : r ∈ opcodeTable) (h : r.spells (.lc w) = true) :
    ∃ i, decodeLc w = .ok i := by
  obtain ⟨hformat, hset, hclear⟩ := getLsbD_of_spells h
  simp only [opcodeTable, hostRows, wireRows, List.cons_append, List.nil_append, List.mem_cons, List.not_mem_nil,
    or_false] at hr
  rcases hr with rfl | rfl | rfl | rfl | rfl | rfl | rfl | rfl | rfl | rfl | rfl | rfl | rfl | rfl | rfl | rfl | rfl |
    rfl | rfl <;> cases hformat <;> dsimp only at hset hclear
  all_goals
    unfold decodeLc
    simp (disch := decide) only [hset, hclear, if_true, Bool.false_eq_true, if_false, Except.ok.injEq, exists_eq']

/-- The decoder has one rejection for bus words. -/
theorem decodeLc_cases (w : BitVec 9) : (∃ i, decodeLc w = .ok i) ∨ decodeLc w = .error (.neverEmitted w) := by
  unfold decodeLc
  split_ifs <;> simp

/-- Settles O4: a word that decodes is its instruction's word (O2), which the table spells; a word that a row spells has
the bits of that row's class. -/
theorem busWordsOfTheTable : Obligations.BusWordsOfTheTable := by
  unfold Obligations.BusWordsOfTheTable
  refine fun w => ⟨⟨fun ⟨i, hi⟩ => ?_, fun ⟨r, hr, hs⟩ => decodeLc_of_spells hr hs⟩, fun hnone => ?_⟩
  · rw [← encodeAfterDecode (.lc w) i hi]
    exact exists_row_spells_encode i
  · rcases decodeLc_cases w with ⟨i, hi⟩ | herror
    · exact absurd hi (hnone i)
    · exact herror

/-- Settles O5: the decoder is run on each word. -/
theorem sampleWordsDecode : Obligations.SampleWordsDecode := by
  unfold Obligations.SampleWordsDecode
  decide

end Sys2Proof
end

section
/-! Frames and cells (R71 to R74, R78 to R80, R124): O28 and O36. -/

namespace Sys2Proof.Machine

/-! ### The expander frame -/

theorem toNat_maskIf (flag : Bool) (mask : Byte) :
    (maskIf flag mask).toNat = if flag = true then mask.toNat else 0x00 := by
  cases flag <;> rfl

/-- A nibble at `NIB_OFF`, truncated to a byte, as a number (R74). -/
theorem toNat_placedNibble (c : Cfg) (n : Nibble) : (placedNibble c n).toNat = (n.toNat <<< c.nibOff) &&& 0xFF := by
  have hn : n.toNat % 2 ^ 8 = n.toNat := Nat.mod_eq_of_lt (by omega)
  rw [placedNibble, BitVec.toNat_shiftLeft, BitVec.toNat_setWidth, hn]
  exact (Nat.and_two_pow_sub_one_eq_mod _ 8).symm

/-- A control bit that no nibble bit falls on is set in the base frame exactly where it is the bit of a flag that is set
(R74). -/
theorem hasBit_frame {c : Cfg} (h : validCfg c = true) {m : Byte} (hm : m ∈ masks c)
    (ha : (0x0F#8 <<< c.nibOff) &&& m = 0) (bl : Bool) (n : Nibble) (rs : Bool) :
    hasBit (frame c bl n rs) m = (rs && decide (c.rsMask = m) || bl && decide (c.blMask = m)) := by
  have hrs : c.rsMask ∈ masks c := by simp [masks]
  have hbl : c.blMask ∈ masks c := by simp [masks]
  simp only [frame, hasBit_or, hasBit_maskIf, hasBit_placedNibble (beq_iff_eq.mpr ha), hasBit_masks h hrs hm,
    hasBit_masks h hbl hm, Bool.false_or]

/-- Settles O28: the formula is the frame's definition, and of the four different masks it sets two (R9). -/
theorem frameFormula : Obligations.FrameFormula := by
  unfold Obligations.FrameFormula
  refine fun c bl n rs => ⟨?_, fun hv => ?_⟩
  · rw [frame, BitVec.toNat_or, BitVec.toNat_or, toNat_placedNibble, toNat_maskIf, toNat_maskIf]
  have hdiff : (masks c).Nodup := (masksDiffer_iff_nodup c).mp ((validCfg_iff_checkHolds c).mp hv .masksDifferent)
  simp only [masks, List.nodup_cons, List.mem_cons, List.not_mem_nil, or_false, not_or] at hdiff
  obtain ⟨⟨hrsrw, hrsen, hrsbl⟩, ⟨-, hrwbl⟩, henbl, -⟩ := hdiff
  refine ⟨fun ha => ?_, fun ha => ?_, fun ha => ?_, fun ha => ?_⟩ <;> rw [hasBit_frame hv (by simp [masks]) ha]
  · simp [hrsen, Ne.symm henbl]
  · simp [Ne.symm hrsbl]
  · simp [hrsbl]
  · simp [hrsrw, Ne.symm hrwbl]

/-! ### The cell and its command -/

/-- The set-DDRAM command as a number: bit 7 and the address modulo 0x80 (R78). -/
theorem toNat_ddramCommand (a : Nat) : (ddramCommand a).toNat = 0x80 + a % 0x80 := by
  have hor := Nat.two_pow_add_eq_or_of_lt (i := 7) (Nat.mod_lt a (by decide)) 1
  have hlow : a % 128 % 2 ^ 8 = a % 128 := Nat.mod_eq_of_lt (by omega)
  simp only [ddramCommand, BitVec.toNat_or, BitVec.toNat_ofNat, hlow]
  exact hor.symm

/-- The cell's address where `ROW_OFFSET` is R79's table. -/
theorem cellAddress_table {c : Cfg} (h : c.rowStarts = []) (row column : Nat) :
    cellAddress c row column =
      tableRowOffset c.rows c.cols (min row (c.rows - 1)) + min column (c.cols - 1) := by
  rw [cellAddress, rowOffset, h]
  rfl

/-- On every geometry but 20x4 the row starts are 0x00 and 0x40 (R79). -/
theorem tableRowOffset_of_two_starts {rows cols : Nat} (h : ¬(cols = 20 ∧ rows = 4)) (r : Nat) :
    tableRowOffset rows cols r = if r = 0 then 0x00 else 0x40 := by
  rw [tableRowOffset, if_neg (c := cols = 20 ∧ rows = 4 ∧ r = 2) fun hr => h ⟨hr.1, hr.2.1⟩,
    if_neg (c := cols = 20 ∧ rows = 4 ∧ r = 3) fun hr => h ⟨hr.1, hr.2.1⟩]

/-- Settles O36: R79's table, case by case; in the two geometries of the table no sum reaches 0x80. -/
theorem cursorCommandByte : Obligations.CursorCommandByte := by
  unfold Obligations.CursorCommandByte
  intro c row column _ hstarts
  rw [toNat_ddramCommand, cellAddress_table hstarts]
  refine ⟨fun hcols hrows => ?_, fun hcols hrows start hstart => ?_, fun _ h20 => ?_⟩
  · rw [hcols, hrows, tableRowOffset_of_two_starts (by decide)]
    split_ifs <;> omega
  · rw [hcols, hrows]
    have hrow : min row 3 < 4 := by omega
    have htable : tableRowOffset 4 20 (min row 3) = start ∧ start < 0x60 := by
      generalize min row 3 = r at hrow hstart
      interval_cases r <;> cases hstart <;> decide
    obtain ⟨hoffset, hlt⟩ := htable
    rw [hoffset]
    omega
  · rw [tableRowOffset_of_two_starts h20]

end Sys2Proof.Machine
end

section
/-! The transfers and the line symbols run on their own, and the host operations made of such transfers (R76 to R87, R101
to R105, R123 to R126, R162, R163): O35, O37, O47 to O49, O58 and O59. -/

namespace Sys2Proof.Machine

/-! ### The LCD channel -/

/-- An LCD operation in a session whose body plays LCD events that all return completes with them (R120). -/
theorem operate_returns {s : State} (h : s.inSession) {op : Option Byte} {body : Proc Unit} {es : List Event}
    (hbody : body.run s = (play es).run s) (hr : s.transportReturns es) (hlcd : ∀ e ∈ es, e.isLcd = true) :
    operate (lcdOperation op body) s = .next (s.sent es (lastWritten s.shadow es)).advance := by
  rw [operate_session h, hbody, play_returns es hr, finish_ok, absorbAll_lcd s hlcd]

/-- Transactions of a byte (R106). -/
theorem xmitCount_byteEvents (c : Cfg) (a : Nat) (bl : Bool) (b : Byte) (rs : Bool) :
    xmitCount (byteEvents c a bl b rs) = if c.presetWrite = true then 6 else 4 := by
  rw [byteEvents, xmitCount_append, xmitCount_pulse, xmitCount_pulse]
  cases c.presetWrite <;> rfl

theorem xmitCount_cmdEvents (c : Cfg) (a : Nat) (bl : Bool) (b : Byte) :
    xmitCount (cmdEvents c a bl b) = if c.presetWrite = true then 6 else 4 := by
  rw [cmdEvents, xmitCount_append, xmitCount_byteEvents]
  rfl

theorem xmitCount_dataEvents (c : Cfg) (a : Nat) (bl : Bool) (b : Byte) :
    xmitCount (dataEvents c a bl b) = if c.presetWrite = true then 6 else 4 := by
  rw [dataEvents, xmitCount_append, xmitCount_byteEvents]
  rfl

theorem xmitCount_charsEvents (c : Cfg) (a : Nat) (bl : Bool) (bs : List Byte) :
    xmitCount (charsEvents c a bl bs) = (if c.presetWrite = true then 6 else 4) * bs.length := by
  induction bs with
  | nil => rfl
  | cons b bs ih =>
    rw [charsEvents, List.flatMap_cons, ← charsEvents, xmitCount_append, xmitCount_dataEvents, ih, List.length_cons,
      Nat.mul_succ, Nat.add_comm]

/-- A string leaves its last character's low nibble on the port, the empty string what stood there. -/
theorem lastWritten_charsEvents (c : Cfg) (a : Nat) (bl : Bool) (bs : List Byte) (shadow : Option Byte) :
    lastWritten shadow (charsEvents c a bl bs) =
      match bs.getLast? with
      | some b => some (frame c bl (loNibble b) true)
      | none => shadow := by
  induction bs using List.reverseRecOn with
  | nil => rfl
  | append_singleton bs b _ =>
    rw [charsEvents, List.flatMap_append, lastWritten_append, List.flatMap_singleton, lastWritten_dataEvents]
    simp

/-- Settles O35: the body is the command transfer of the clamped cell. -/
theorem cursorCompletes : Obligations.CursorCompletes := by
  unfold Obligations.CursorCompletes
  intro s row column h hr
  rw [exec, execLcdCursor, operate_returns h (cursorBody_play row column s) hr (cursorEvents_isLcd _ _ _ _ _),
    cursorEvents, lastWritten_cmdEvents, State.sent, xmitCount_cmdEvents]
  rfl

/-- Settles O37: the body is one character transfer for each byte. -/
theorem textCompletes : Obligations.TextCompletes := by
  unfold Obligations.TextCompletes
  intro s p bs h hr hs
  rw [exec, execLcdText, operate_returns h (textBody_play hs) hr (charsEvents_isLcd _ _ _ _), lastWritten_charsEvents,
    State.sent, xmitCount_charsEvents]
  rfl

/-! ### Bus words and lone nibbles -/

/-- A command word's transfer (R104). -/
theorem commandTransfer_returns {s : State} (h : s.inSession) {b : Byte}
    (hr : s.transportReturns (cmdEvents s.cfg s.addr s.bl b)) :
    operate (commandTransfer b) s = .next (s.wordSent b false) := by
  rw [commandTransfer, operate_returns h (sendCmd_play b s) hr (cmdEvents_isLcd _ _ _ _), lastWritten_cmdEvents,
    State.sent, xmitCount_cmdEvents]
  rfl

/-- A character word's transfer (R105). -/
theorem dataTransfer_returns {s : State} (h : s.inSession) {b : Byte}
    (hr : s.transportReturns (dataEvents s.cfg s.addr s.bl b)) :
    operate (lcdOperation none (sendData b)) s = .next (s.wordSent b true) := by
  rw [operate_returns h (sendData_play b s) hr (dataEvents_isLcd _ _ _ _), lastWritten_dataEvents, State.sent,
    xmitCount_dataEvents]
  rfl

/-! The bytes of R77's classes as numbers. -/

theorem entryModeByte_eq_ofNat : ∀ increment shift : Bool,
    entryModeByte increment shift = BitVec.ofNat 8 (0x04 + 2 * increment.toNat + shift.toNat) := by decide

theorem displayControlByte_eq_ofNat : ∀ display cursor blink : Bool,
    displayControlByte display cursor blink =
      BitVec.ofNat 8 (0x08 + 4 * display.toNat + 2 * cursor.toNat + blink.toNat) := by decide

theorem functionSetByte_eq_ofNat : ∀ (dataLength lines font : Bool) (ignored : BitVec 2),
    functionSetByte dataLength lines font ignored =
      BitVec.ofNat 8 (0x20 + 16 * dataLength.toNat + 8 * lines.toNat + 4 * font.toNat + ignored.toNat) := by decide

/-- SET_DDRAM_ADDRESS as a number: bit 7 and the address (R77). -/
theorem toNat_setDdramByte (a : BitVec 7) : (setDdramByte a).toNat = 0x80 + a.toNat := by
  rw [setDdramByte, BitVec.toNat_append]
  exact (Nat.two_pow_add_eq_or_of_lt a.isLt 1).symm

theorem setDdramByte_eq_ofNat (a : BitVec 7) : setDdramByte a = BitVec.ofNat 8 (0x80 + a.toNat) := by
  rw [← toNat_setDdramByte, BitVec.ofNat_toNat, BitVec.setWidth_eq]

/-- The command of `set_cursor` is the word of the cell's address modulo 0x80 (R77, R78). -/
theorem setDdramByte_eq_ddramCommand (a : Nat) : setDdramByte (BitVec.ofNat 7 a) = ddramCommand a := by
  apply BitVec.eq_of_toNat_eq
  rw [toNat_setDdramByte, toNat_ddramCommand, BitVec.toNat_ofNat]

/-- Settles O47: each word is the transfer of its class's byte. -/
theorem busWordsComplete : Obligations.BusWordsComplete := by
  unfold Obligations.BusWordsComplete
  intro s x y z dl n f ignored a b h
  refine ⟨commandTransfer_returns h, ?_, ?_, ?_, ?_, dataTransfer_returns h⟩
  · rintro _ rfl hr
    rw [exec, execEntryModeSet, entryModeByte_eq_ofNat, commandTransfer_returns h hr]
  · rintro _ rfl hr
    rw [exec, execDisplayControl, displayControlByte_eq_ofNat, commandTransfer_returns h hr]
  · rintro _ rfl hr
    rw [exec, execFunctionSet, functionSetByte_eq_ofNat, commandTransfer_returns h hr]
  · rintro _ rfl hr
    rw [exec, execSetDdramAddress, setDdramByte_eq_ofNat, commandTransfer_returns h hr]

/-- Settles O48: one enable pulse. -/
theorem initNibbleCompletes : Obligations.InitNibbleCompletes := by
  unfold Obligations.InitNibbleCompletes
  intro s n h hr
  rw [exec, execInitNibble, operate_returns h (sendNibble_play n false s) hr (pulse_isLcd _ _ _), lastWritten_pulse,
    State.sent, xmitCount_pulse]
  rfl

/-- An operation in a session depends on its body alone. -/
theorem operate_congr {s : State} (h : s.inSession) {op op' : Option Byte} {body body' : Proc Unit}
    (hb : body.run s = body'.run s) : operate (lcdOperation op body) s = operate (lcdOperation op' body') s := by
  rw [operate_session h, operate_session h, hb]

/-- A body and a delay after it, as an operation: the delay follows unless the body hangs. -/
theorem operate_then_wait {s : State} (h : s.inSession) (op op' : Option Byte) {body : Proc Unit} {es : List Event}
    (hbody : body.run s = (play es).run s) (ms : Nat) :
    operate (lcdOperation op (do body; wait ms)) s =
      mapNext (fun t => if t.blocked then t else { t with trace := t.trace ++ [.waitMs ms] })
        (operate (lcdOperation op' body) s) := by
  rw [operate_session h, operate_session h]
  obtain ⟨⟨-, hb, -⟩, -⟩ := h
  rcases play_cases es s with ⟨-, hp⟩ | ⟨k, -, -, -, hp⟩
  · rw [bind_ok (hbody.trans hp), hbody, hp, wait_run, finish_ok, finish_ok]
    rw [mapNext, if_neg (by simp [hb])]
    rfl
  · rw [bind_error (hbody.trans hp), hbody, hp, finish_error]
    simp [mapNext]

/-- Settles O49: the bodies are the same transfers, and `clear` waits after its own. -/
theorem hostOperationsAreWords : Obligations.HostOperationsAreWords := by
  unfold Obligations.HostOperationsAreWords
  refine fun s row column p b h => ⟨?_, fun hs => ?_, fun hclear => ?_⟩
  · refine operate_congr h ?_
    rw [setDdramByte_eq_ddramCommand, cursorBody, theCfg_bind]
  · refine operate_congr h ?_
    rw [textBody_play hs, sendData_play, charsEvents, List.flatMap_singleton]
  · have hbody : clearBody.run s = (do sendCmd 0x01; wait s.cfg.tClearMs : Proc Unit).run s := by
      rw [clearBody, theCfg_bind, hclear]
    rw [exec, execLcdClear, operate_congr h (op' := some 0x02) hbody]
    exact operate_then_wait h _ none (sendCmd_play _ s) _

/-! ### The LED channel -/

/-- A bit symbol leaves the line low and every other field but the trace (R162). -/
theorem absorbAll_bitEvents (s : State) (v : Bool) : s.absorbAll (bitEvents s.cfg v) = s.shown (bitEvents s.cfg v) := by
  cases v <;> simp [bitEvents, State.absorbAll, State.absorb, State.emit, State.setPin, State.shown]

/-- So does the reset hold (R163). -/
theorem absorbAll_holdEvents (s : State) : s.absorbAll (holdEvents s.cfg) = s.shown (holdEvents s.cfg) := by
  simp [holdEvents, State.absorbAll, State.absorb, State.emit, State.setPin, State.shown]

/-- Settles O58: the symbol's four events. -/
theorem bitSymbolsComplete : Obligations.BitSymbolsComplete := by
  unfold Obligations.BitSymbolsComplete
  refine fun s h => ⟨?_, ?_⟩
  · rw [exec, execWsBit0, operate_live h, sendBit_run (s := s) false rfl rfl, finish_ok, absorbAll_bitEvents]
    rfl
  · rw [exec, execWsBit1, operate_live h, sendBit_run (s := s) true rfl rfl, finish_ok, absorbAll_bitEvents]
    rfl

/-- Settles O59: the reset hold's two events. -/
theorem resetHoldCompletes : Obligations.ResetHoldCompletes := by
  unfold Obligations.ResetHoldCompletes
  intro s h
  rw [exec, execWsReset, operate_live h, resetHold_run (s := s) rfl rfl, finish_ok, absorbAll_holdEvents]
  rfl

end Sys2Proof.Machine
end

section
/-! What the observer of R112 receives from nibble and byte transfers under a wiring that keeps the control bits apart
(log 23): O52. -/

namespace Sys2Proof.Machine

/-! ### Latched nibbles -/

/-- From events that start with the enable bit low the observer latches these nibbles, and they end with the bit low: what
follows is latched as it would be after some other byte without the bit. -/
def Receives (c : Cfg) (es : List Event) (ls : List Latched) : Prop :=
  ∀ p, hasBit p c.enMask = false → ∃ q, hasBit q c.enMask = false ∧
    ∀ rest, latches c p (writtenBytes es ++ rest) = ls ++ latches c q rest

namespace Receives

variable {c : Cfg} {es fs : List Event} {ls ms : List Latched}

theorem nil : Receives c [] [] := fun p hp => ⟨p, hp, fun _ => rfl⟩

theorem wait (ms : Nat) : Receives c [.waitMs ms] [] := fun p hp => ⟨p, hp, fun _ => rfl⟩

theorem append (h1 : Receives c es ls) (h2 : Receives c fs ms) : Receives c (es ++ fs) (ls ++ ms) := by
  intro p hp
  obtain ⟨q, hq, h1⟩ := h1 p hp
  obtain ⟨r, hr, h2⟩ := h2 q hq
  refine ⟨r, hr, fun rest => ?_⟩
  rw [writtenBytes_append, List.append_assoc, h1, h2, List.append_assoc]

/-- From the first byte on, or from a port at 0 (R112). -/
theorem observed_eq (h : Receives c es ls) : observed c none es = ls := by
  obtain ⟨q, -, h⟩ := h 0 (by simp [hasBit])
  simpa [observed, latches] using h []

/-- A pulse has one falling enable edge, at its base frame (R101). -/
theorem pulse {f : Byte} (hen : hasBit c.enMask c.enMask = true) (hf : hasBit f c.enMask = false) (a : Nat) :
    Receives c (pulse c a f) [latchedFrom c f] := by
  intro p hp
  refine ⟨f, hf, fun rest => ?_⟩
  have hset : hasBit (f ||| c.enMask) c.enMask = true := by simp [hasBit_or, hen]
  cases hpre : c.presetWrite <;> simp [Machine.pulse, hpre, writtenBytes, latches, hp, hf, hset]

end Receives

/-! ### Clean wirings -/

/-- The conditions of a clean wiring, one by one (R71, R74). -/
theorem cleanWiring_iff (c : Cfg) : cleanWiring c = true ↔
    (c.nibOff = 3 ∨ c.nibOff = 4) ∧ apart c c.enMask = true ∧ apart c c.rsMask = true ∧ apart c c.blMask = true := by
  simp [cleanWiring, and_assoc]

/-- A mask apart from the nibble has none of the bits that a nibble is placed on. -/
theorem getLsbD_of_apart {c : Cfg} {m : Byte} (h : apart c m = true) {k : Nat} (hk : k < 4) (h8 : c.nibOff + k < 8) :
    m.getLsbD (c.nibOff + k) = false := by
  have hzero : (0x0F#8 <<< c.nibOff) &&& m = 0 := beq_iff_eq.mp h
  have hbit : ((0x0F#8 <<< c.nibOff) &&& m).getLsbD (c.nibOff + k) = false := by rw [hzero]; simp
  have hone : (0x0F#8).getLsbD k = true := by interval_cases k <;> rfl
  simpa [BitVec.getLsbD_and, BitVec.getLsbD_shiftLeft, h8, hone, -BitVec.getLsbD_eq_getElem] using hbit

/-- What the observer latches from a base frame is its nibble and its register select: no nibble bit is lost or
overlaid. -/
theorem latchedFrom_frame {c : Cfg} (hv : validCfg c = true) (hw : cleanWiring c = true) (bl : Bool) (n : Nibble)
    (rs : Bool) : latchedFrom c (frame c bl n rs) = ⟨n, rs⟩ := by
  obtain ⟨hoff, -, hrs, hbl⟩ := (cleanWiring_iff c).mp hw
  obtain ⟨-, hcontrols⟩ := frameFormula c bl n rs
  obtain ⟨-, hselect, -⟩ := hcontrols hv
  have hnibble : (frame c bl n rs >>> c.nibOff).setWidth 4 = n := by
    refine BitVec.eq_of_getLsbD_eq fun k hk => ?_
    have h8 : c.nibOff + k < 8 := by omega
    have hmask : ∀ (v : Bool) {m : Byte}, apart c m = true → (maskIf v m).getLsbD (c.nibOff + k) = false := by
      intro v m hm
      cases v with
      | false => simp [maskIf]
      | true => exact getLsbD_of_apart hm hk h8
    simp [frame, placedNibble, hmask, hrs, hbl, hk, h8, Nat.lt_trans hk, -BitVec.getLsbD_eq_getElem]
  rw [latchedFrom, hnibble, hselect (beq_iff_eq.mp hrs)]

/-! ### Transfers under a clean wiring -/

/-- What the observer latches from a byte (R103). -/
def byteLatches (rs : Bool) (b : Byte) : List Latched := [⟨hiNibble b, rs⟩, ⟨loNibble b, rs⟩]

/-- The lone nibbles of the handshake, the optional one included (R121). -/
def handshakeNibbles (c : Cfg) : List Nibble :=
  [c.initNibbles.first, c.initNibbles.second, c.initNibbles.third] ++ c.modeNibble.toList

theorem length_handshakeNibbles (c : Cfg) : (handshakeNibbles c).length = loneNibbles c := by
  cases hm : c.modeNibble <;> simp [handshakeNibbles, loneNibbles, hm]

namespace Receives

variable {c : Cfg} (hv : validCfg c = true) (hw : cleanWiring c = true) (a : Nat) (bl : Bool)
include hv hw

/-- A nibble transfer (R101). -/
theorem nibble (n : Nibble) (rs : Bool) : Receives c (Machine.pulse c a (frame c bl n rs)) [⟨n, rs⟩] := by
  obtain ⟨-, hen, -, -⟩ := (cleanWiring_iff c).mp hw
  have henMask : c.enMask ∈ masks c := by simp [masks]
  rw [← latchedFrom_frame hv hw bl n rs]
  exact pulse (by simp [hasBit_masks hv henMask henMask]) (hasBit_frame_enMask hv hen bl n rs) a

/-- A byte transfer (R103). -/
theorem byte (b : Byte) (rs : Bool) : Receives c (byteEvents c a bl b rs) (byteLatches rs b) :=
  (nibble hv hw a bl _ rs).append (nibble hv hw a bl _ rs)

/-- A command byte (R104). -/
theorem cmd (b : Byte) : Receives c (cmdEvents c a bl b) (byteLatches false b) :=
  (byte hv hw a bl b false).append (wait _)

/-- A lone nibble of the handshake (R81). -/
theorem lone (n : Nibble) (ms : Nat) : Receives c (loneEvents c a bl n ms) [⟨n, false⟩] :=
  (nibble hv hw a bl n false).append (wait ms)

/-- The handshake and the commands after it (R121). -/
theorem init : Receives c (initEvents c a)
    ((handshakeNibbles c).map (Latched.mk · false) ++
      [c.functionSet, c.displayCtrl, c.clearCmd, c.entryMode].flatMap (byteLatches false)) := by
  have hmode : Receives c (match c.modeNibble with
      | none => []
      | some n => loneEvents c a c.blInit n c.modeDelayMs) (c.modeNibble.toList.map (Latched.mk · false)) := by
    cases c.modeNibble with
    | none => exact nil
    | some n => exact lone hv hw a _ n _
  have hlone := lone hv hw a c.blInit
  have hcmd := cmd hv hw a c.blInit
  have h : Receives c (initEvents c a) _ :=
    ((((((((wait _).append (hlone _ _)).append (hlone _ _)).append (hlone _ _)).append hmode).append (hcmd _)).append
      (hcmd _)).append ((hcmd _).append (wait _))).append (hcmd _)
  simpa [handshakeNibbles] using h

end Receives

/-! ### Bus words -/

/-- A byte's bus word is its register select and its two nibbles (R73, R76). -/
theorem ofBool_append_nibbles (rs : Bool) (b : Byte) :
    BitVec.ofBool rs ++ hiNibble b ++ loNibble b = (BitVec.ofBool rs ++ b : BitVec 9) := by
  have hbyte : hiNibble b ++ loNibble b = b :=
    (BitVec.extractLsb'_append_extractLsb'_eq_extractLsb' rfl).trans BitVec.extractLsb'_eq_self
  calc BitVec.ofBool rs ++ hiNibble b ++ loNibble b
    _ = (BitVec.ofBool rs ++ (hiNibble b ++ loNibble b) : BitVec 9) := BitVec.append_assoc
    _ = (BitVec.ofBool rs ++ b : BitVec 9) := by rw [hbyte]

/-- The nibbles of bytes are paired up as the bytes' bus words (R76). -/
theorem pairUp_byteLatches (rs : Bool) (bs : List Byte) :
    pairUp (bs.flatMap (byteLatches rs)) = bs.map fun b => (BitVec.ofBool rs ++ b : BitVec 9) := by
  induction bs with
  | nil => rfl
  | cons b bs ih =>
    rw [List.flatMap_cons, List.map_cons, ← ih]
    exact congrArg (· :: _) (ofBool_append_nibbles rs b)

/-- Settles O52: the lone nibbles come first, and after them the nibbles pair up as the four commands. -/
theorem observerReceivesHandshake : Obligations.ObserverReceivesHandshake := by
  unfold Obligations.ObserverReceivesHandshake
  intro s bus addr h hi hs hr hw
  have hscript : script (.lcdInit bus addr) s = some ⟨initEvents s.cfg addr, none⟩ := by simp [script, hi]
  have hreturns : (prep (.lcdInit bus addr) s).transportReturns (initEvents s.cfg addr) := by
    rw [prep_lcdInit hi]
    exact hr
  refine completes_of_script _ h hscript hreturns ?_
  have hcount : loneNibbles s.cfg = ((handshakeNibbles s.cfg).map (Latched.mk · false)).length := by
    rw [List.length_map, length_handshakeNibbles]
  rw [hs, (Receives.init h.1 hw addr).observed_eq, hcount, List.take_left, List.drop_left, pairUp_byteLatches]
  exact ⟨rfl, rfl⟩

end Sys2Proof.Machine
end

section
/-! The LCD transfers: the session that a word run on its own needs (R110, log 11), and what a transfer counts (R106): O14 and
O29. -/

namespace Sys2Proof.Machine

/-- Before `initialize` an LCD operation records `NotInitialized` in place of its body (R192). -/
theorem operate_noSession {s : State} (h : s.live) (hi : s.inited = false) (op : Option Byte) (body : Proc Unit) :
    operate (lcdOperation op body) s = .next (s.recordFault (.notInitialized op)) := by
  rw [operate_live h, lcdOperation_noSession hi, finish_error]

/-- Settles O14: each of the seven forms is an LCD operation without an id. -/
theorem wireWordNeedsSession : Obligations.WireWordNeedsSession := by
  unfold Obligations.WireWordNeedsSession
  intro s b1 b2 b3 x a d n h hi
  have hword : ∀ body, operate (lcdOperation none body) s = .next { s with fault := some (.notInitialized none) } :=
    operate_noSession h hi none
  simp only [List.forall_mem_cons, List.not_mem_nil, false_implies, implies_true, and_true]
  exact ⟨hword _, hword _, hword _, hword _, hword _, hword _, hword _⟩

/-! ### Counts -/

theorem waitArgs_byteEvents (c : Cfg) (a : Nat) (bl : Bool) (b : Byte) (rs : Bool) :
    waitArgs (byteEvents c a bl b rs) = [c.tuMs, c.tuMs, c.tuMs, c.tuMs] := by
  rw [byteEvents, waitArgs_append, waitArgs_pulse, waitArgs_pulse]
  rfl

/-- A byte and its settle of `m` time units, `k` being the transactions of a nibble (R106). -/
theorem byteTransfer_counts {s : State} {p : Proc Unit} {b : Byte} {rs : Bool} {m k : Nat} {es : List Event}
    (hes : es = byteEvents s.cfg s.addr s.bl b rs ++ [.waitMs (m * s.cfg.tuMs)])
    (hp : p.run s = (play es).run s) (hk : k = if s.cfg.presetWrite then 3 else 2) (hr : s.transportReturns es) :
    ∃ (t : State) (es : List Event), p.run s = .ok () t ∧ t.trace = s.trace ++ es ∧ xmitCount es = 2 * k ∧
      waitArgs es = [s.cfg.tuMs, s.cfg.tuMs, s.cfg.tuMs, s.cfg.tuMs, m * s.cfg.tuMs] ∧
      waitTotal es = (4 + m) * s.cfg.tuMs ∧
      ∀ cols rows : Nat, s.cfg = defaultCfg cols rows → xmitCount es = 6 ∧ waitTotal es = 4 + m := by
  have hcount : xmitCount es = 2 * k := by
    rw [hes, xmitCount_append, xmitCount_byteEvents, hk]
    cases s.cfg.presetWrite <;> rfl
  have hargs : waitArgs es = [s.cfg.tuMs, s.cfg.tuMs, s.cfg.tuMs, s.cfg.tuMs, m * s.cfg.tuMs] := by
    rw [hes, waitArgs_append, waitArgs_byteEvents]
    rfl
  have htotal : waitTotal es = (4 + m) * s.cfg.tuMs := by
    rw [waitTotal, hargs, Nat.add_mul]
    simp only [List.sum_cons, List.sum_nil]
    omega
  refine ⟨_, _, hp.trans (play_returns _ hr), absorbAll_trace _ _, hcount, hargs, htotal, fun cols rows hc => ?_⟩
  have hpreset : s.cfg.presetWrite = true := by rw [hc]; rfl
  have hunit : s.cfg.tuMs = 1 := by rw [hc]; rfl
  rw [hcount, htotal, hk, hpreset, hunit]
  exact ⟨rfl, Nat.mul_one _⟩

/-- Settles O29: a nibble is one pulse; a byte is two and its settle, of 2 units for a command and 1 for a character. -/
theorem transferCounts : Obligations.TransferCounts := by
  unfold Obligations.TransferCounts
  intro s n rs b k hk
  refine ⟨fun hr => ?_, byteTransfer_counts rfl (sendCmd_play b s) hk, fun hr => ?_⟩
  · exact ⟨_, _, (sendNibble_play n rs s).trans (play_returns _ hr), absorbAll_trace _ _,
      (xmitCount_pulse _ _ _).trans hk.symm, waitArgs_pulse _ _ _⟩
  · simpa only [Nat.one_mul] using byteTransfer_counts rfl (sendData_play b s) hk hr

end Sys2Proof.Machine
end

section
/-! The bus words that the observer of R112 receives from `write_text` and `write_wrapped` (log 23): O50 and O51. -/

namespace Sys2Proof.Machine

/-- The observer receives these words from the events, and what follows pairs up on its own: the nibbles latched from the
events pair up among themselves. -/
def ReceivesWords (c : Cfg) (es : List Event) (ws : List (BitVec 9)) : Prop :=
  ∃ ls, Receives c es ls ∧ ∀ rest, pairUp (ls ++ rest) = ws ++ pairUp rest

namespace ReceivesWords

variable {c : Cfg} {es fs : List Event} {ws vs : List (BitVec 9)}

theorem nil : ReceivesWords c [] [] := ⟨[], .nil, fun _ => rfl⟩

theorem append (h1 : ReceivesWords c es ws) (h2 : ReceivesWords c fs vs) : ReceivesWords c (es ++ fs) (ws ++ vs) := by
  obtain ⟨ls, hls, hws⟩ := h1
  obtain ⟨ms, hms, hvs⟩ := h2
  refine ⟨ls ++ ms, hls.append hms, fun rest => ?_⟩
  rw [List.append_assoc, hws, hvs, List.append_assoc]

theorem flatMap {α : Type} {f : α → List Event} {g : α → List (BitVec 9)} (h : ∀ x, ReceivesWords c (f x) (g x))
    (l : List α) : ReceivesWords c (l.flatMap f) (l.flatMap g) := by
  induction l with
  | nil => exact nil
  | cons x l ih => exact (h x).append ih

/-- From a port whose enable bit is low, exactly these words (R112). -/
theorem pairUp_observed (h : ReceivesWords c es ws) {shadow : Option Byte}
    (hlow : hasBit (shadow.getD 0) c.enMask = false) : pairUp (observed c shadow es) = ws := by
  obtain ⟨ls, hls, hws⟩ := h
  obtain ⟨q, -, hlatches⟩ := hls _ hlow
  have hobserved : observed c shadow es = ls := by simpa [observed, latches] using hlatches []
  simpa [hobserved, pairUp] using hws []

/-- The two nibbles of a byte pair up as its word. -/
theorem of_byteLatches {rs : Bool} {b : Byte} (h : Receives c es (byteLatches rs b)) :
    ReceivesWords c es [BitVec.ofBool rs ++ b] :=
  ⟨_, h, fun _ => congrArg (· :: _) (ofBool_append_nibbles rs b)⟩

section
variable (hv : validCfg c = true) (hw : cleanWiring c = true) (a : Nat) (bl : Bool)
include hv hw

/-- A character transfer (R105). -/
theorem data (b : Byte) : ReceivesWords c (dataEvents c a bl b) [1#1 ++ b] :=
  of_byteLatches (rs := true) ((Receives.byte hv hw a bl b true).append (.wait _))

/-- `set_cursor` (R124). -/
theorem cursor (row column : Nat) :
    ReceivesWords c (cursorEvents c a bl row column) [0#1 ++ ddramCommand (cellAddress c row column)] :=
  of_byteLatches (rs := false) (Receives.cmd hv hw a bl _)

/-- A run of characters (R126). -/
theorem chars (bs : List Byte) : ReceivesWords c (charsEvents c a bl bs) (bs.map fun b => 1#1 ++ b) := by
  rw [List.map_eq_flatMap]
  exact flatMap (data hv hw a bl) bs

/-- `write_wrapped` (R130). -/
theorem wrap (bs : List Byte) : ReceivesWords c (wrapEvents c a bl bs)
    ((List.range c.rows).flatMap fun r =>
      if chunk c bs r = [] then []
      else (0#1 ++ ddramCommand (cellAddress c r 0)) :: (chunk c bs r).map fun b => 1#1 ++ b) := by
  refine flatMap (fun r => ?_) _
  by_cases hchunk : chunk c bs r = []
  · rw [if_pos hchunk, if_pos hchunk]
    exact nil
  · rw [if_neg hchunk, if_neg hchunk]
    exact (cursor hv hw a bl r 0).append (chars hv hw a bl _)

end

end ReceivesWords

/-- Between the operations of a session the enable bit on the port is low (R74, R127). -/
theorem State.Inv.enable_low {s : State} (hinv : s.Inv) (h : s.inSession) (hw : cleanWiring s.cfg = true) :
    hasBit (s.shadow.getD 0) s.cfg.enMask = false := by
  obtain ⟨⟨hv, hb, -⟩, hi⟩ := h
  obtain ⟨-, -, -, hconsistent⟩ := hinv
  obtain ⟨hsome, hbits⟩ := hconsistent hv hb
  obtain ⟨-, hapart, -⟩ := (cleanWiring_iff s.cfg).mp hw
  obtain ⟨b, hshadow⟩ := Option.isSome_iff_exists.mp (hsome hi)
  obtain ⟨-, hlow, -⟩ := hbits b hshadow
  rw [hshadow]
  exact hlow hapart

/-- An LCD operation in a session whose body plays LCD events that all return completes, with these events. -/
theorem completes_of_body {i : Instr} {s : State} (h : s.inSession) {op : Option Byte} {body : Proc Unit}
    {es : List Event} (hexec : exec i s = operate (lcdOperation op body) s) (hbody : body.run s = (play es).run s)
    (hr : s.transportReturns es) (hlcd : ∀ e ∈ es, e.isLcd = true) {Q : List Event → Prop} (hq : Q es) :
    Completes i s Q := by
  have ⟨⟨_, hb, hf⟩, _⟩ := h
  exact ⟨_, es, hexec.trans (operate_returns h hbody hr hlcd), rfl, hf, hb, rfl, hq⟩

/-- Settles O50: the body is one character transfer for each byte. -/
theorem observerReceivesText : Obligations.ObserverReceivesText := by
  unfold Obligations.ObserverReceivesText
  intro s p bs hinv h hr hw hs
  refine completes_of_body h rfl (textBody_play hs) hr (charsEvents_isLcd _ _ _ _) ?_
  have ⟨⟨hv, _, _⟩, _⟩ := h
  exact (ReceivesWords.chars hv hw _ _ bs).pairUp_observed (hinv.enable_low h hw)

/-- Settles O51: the body positions and writes each row whose chunk is not empty; a string that fills the display needs no
terminator. -/
theorem observerReceivesWrap : Obligations.ObserverReceivesWrap := by
  unfold Obligations.ObserverReceivesWrap
  intro s p bs hinv h hr hw hs hfits
  obtain ⟨hbytes, hnonzero, hterminator⟩ := hs
  have ⟨⟨hv, _, _⟩, _⟩ := h
  have hcols : 1 ≤ s.cfg.cols := by simpa [checkHolds] using (validCfg_iff_checkHolds s.cfg).mp hv .colsAtLeastOne
  have hend : bs.length = s.cfg.rows * s.cfg.cols ∨
      (bs.length < s.cfg.rows * s.cfg.cols ∧ Memory.read s.mem (p + bs.length) = some 0) :=
    hfits.eq_or_lt.imp_right fun hlt => ⟨hlt, hterminator⟩
  refine completes_of_body h rfl (wrapBody_play hcols hbytes hnonzero hend) hr (wrapEvents_isLcd _ _ _ _) ?_
  exact (ReceivesWords.wrap hv hw _ _ bs).pairUp_observed (hinv.enable_low h hw)

end Sys2Proof.Machine
end

section
/-! The operations of the LCD channel (41_lcd_operations.md R121 to R131): O30, O31, O33 and O38 to O45. -/

namespace Sys2Proof.Machine

/-! ### The handshake -/

/-- A first `lcd.init` whose transactions return on the bus it binds plays its handshake in the session it opens
(R121). -/
theorem exec_lcdInit_returns {s : State} (h : s.live) (hi : s.inited = false) {bus : BusHandle} {addr : Nat}
    (hr : s.returnsOn bus (initEvents s.cfg addr)) :
    exec (.lcdInit bus addr) s = .next ((s.openSession bus addr).sent (initEvents s.cfg addr)
      (some (frame s.cfg s.cfg.blInit (loNibble s.cfg.entryMode) false))).advance := by
  have hopened : (s.openSession bus addr).transportReturns (initEvents s.cfg addr) := hr
  rw [exec, execLcdInit, operate_live h, initBody_play bus addr hi, play_returns _ hopened, finish_ok,
    absorbAll_lcd _ (initEvents_isLcd _ _), lastWritten_initEvents]

/-- Settles O30: the fields of the state that the handshake leaves. -/
theorem initializeCompletes : Obligations.InitializeCompletes := by
  unfold Obligations.InitializeCompletes
  intro s bus addr h hi hr
  exact exec_lcdInit_returns h hi hr

/-- The delays of a command byte: four of its two pulses, and its settle of 2 units (R104). -/
theorem waitTotal_cmdEvents (c : Cfg) (a : Nat) (bl : Bool) (b : Byte) :
    waitTotal (cmdEvents c a bl b) = 6 * c.tuMs := by
  rw [waitTotal, cmdEvents, waitArgs_append, waitArgs_byteEvents]
  simp only [waitArgs, List.cons_append, List.nil_append, List.sum_cons, List.sum_nil]
  omega

/-- The delays of a lone nibble of the handshake (R81). -/
theorem waitTotal_loneEvents (c : Cfg) (a : Nat) (bl : Bool) (n : Nibble) (ms : Nat) :
    waitTotal (loneEvents c a bl n ms) = 2 * c.tuMs + ms := by
  rw [waitTotal, loneEvents, waitArgs_append, waitArgs_pulse]
  simp only [waitArgs, List.cons_append, List.nil_append, List.sum_cons, List.sum_nil]
  omega

theorem xmitCount_loneEvents (c : Cfg) (a : Nat) (bl : Bool) (n : Nibble) (ms : Nat) :
    xmitCount (loneEvents c a bl n ms) = if c.presetWrite then 3 else 2 := by
  rw [loneEvents, xmitCount_append, xmitCount_pulse]
  rfl

/-- The minimum blocking time of a handshake (R122). -/
theorem waitTotal_initEvents (c : Cfg) (a : Nat) :
    waitTotal (initEvents c a) =
      c.tPwrMs + (c.initDelaysMs.first + c.initDelaysMs.second + c.initDelaysMs.third)
        + (if c.modeNibble.isSome then c.modeDelayMs else 0) + 2 * c.tuMs * loneNibbles c + 4 * (6 * c.tuMs)
        + c.tClearMs := by
  have hwait : ∀ ms : Nat, waitTotal [.waitMs ms] = ms := fun ms => Nat.add_zero ms
  simp only [initEvents, clearEvents, waitTotal_append, waitTotal_loneEvents, waitTotal_cmdEvents, hwait, loneNibbles]
  cases c.modeNibble with
  | none => simp [waitTotal, waitArgs]; omega
  | some n => simp [waitTotal_loneEvents]; omega

/-- The transactions of a handshake: a pulse for each lone nibble and two for each of the four commands (R106, R122). -/
theorem xmitCount_initEvents (c : Cfg) (a : Nat) :
    xmitCount (initEvents c a) = (loneNibbles c + 8) * (if c.presetWrite then 3 else 2) := by
  have hwait : ∀ ms : Nat, xmitCount [.waitMs ms] = 0 := fun _ => rfl
  simp only [initEvents, clearEvents, xmitCount_append, xmitCount_loneEvents, xmitCount_cmdEvents, hwait, loneNibbles]
  cases c.modeNibble with
  | none => cases c.presetWrite <;> rfl
  | some n => rw [xmitCount_loneEvents]; cases c.presetWrite <;> rfl

/-- Settles O31: the sums over the handshake's events, which are closed numbers under the defaults. -/
theorem initializeTiming : Obligations.InitializeTiming := by
  unfold Obligations.InitializeTiming
  intro s bus addr h hi hr
  have hexec := exec_lcdInit_returns h hi hr
  obtain ⟨-, hb, hf⟩ := h
  refine ⟨_, initEvents s.cfg addr, hexec, rfl, hf, hb, rfl, waitTotal_initEvents _ _, xmitCount_initEvents _ _,
    fun cols rows hc => ?_⟩
  rw [waitTotal_initEvents, xmitCount_initEvents, hc]
  exact ⟨rfl, rfl⟩

/-! ### Operations that play a list of events -/

/-- Settles O33: the body is the command transfer and its wait. -/
theorem clearCompletes : Obligations.ClearCompletes := by
  unfold Obligations.ClearCompletes
  intro s h hr
  rw [exec, execLcdClear, operate_returns h (clearBody_play s) hr (clearEvents_isLcd _ _ _), clearEvents,
    lastWritten_append, lastWritten_cmdEvents]
  rfl

/-- A valid configuration has a column (R9). -/
theorem one_le_cols {c : Cfg} (h : validCfg c = true) : 1 ≤ c.cols := by
  simpa [checkHolds] using (validCfg_iff_checkHolds c).mp h .colsAtLeastOne

/-- Settles O42: the body positions and writes each row whose chunk is not empty. -/
theorem wrapCompletes : Obligations.WrapCompletes := by
  unfold Obligations.WrapCompletes
  intro s p bs h hr hbytes hnonzero hend
  have hbody := wrapBody_play (one_le_cols h.1.1) hbytes hnonzero hend
  exact operate_returns h hbody hr (wrapEvents_isLcd _ _ _ _)

/-- Settles O44: the body reads the length, then shows the windows of the string. -/
theorem scrollCompletes : Obligations.ScrollCompletes := by
  unfold Obligations.ScrollCompletes
  intro s row p d bs h hr hs
  exact operate_returns h (scrollBody_play hs) hr (scrollEvents_isLcd _ _ _ _ _ _)

/-! ### Unreadable strings -/

/-- An LCD operation in a session whose body plays LCD events that all return, and then raises a fault, leaves the
events and the fault (R190, R202). -/
theorem operate_raises {s : State} (h : s.inSession) {op : Option Byte} {body : Proc Unit} {es : List Event} {f : Fault}
    (hbody : body.run s = (play es >>= fun _ => raise f : Proc Unit).run s) (hr : s.transportReturns es)
    (hlcd : ∀ e ∈ es, e.isLcd = true) :
    operate (lcdOperation op body) s = .next ((s.sent es (lastWritten s.shadow es)).recordFault f) := by
  rw [operate_session h, hbody, bind_ok (play_returns es hr), raise_run, finish_error, absorbAll_lcd s hlcd]

/-- Settles O38: the body sends the characters before the unreadable byte, then raises. -/
theorem textBadRead : Obligations.TextBadRead := by
  unfold Obligations.TextBadRead
  intro s p bs h hr hbytes hnonzero hnone
  exact operate_raises h (textBody_badRead hbytes hnonzero hnone) hr (charsEvents_isLcd _ _ _ _)

/-- Settles O45: the body reads the length first, and raises there. -/
theorem scrollBadRead : Obligations.ScrollBadRead := by
  unfold Obligations.ScrollBadRead
  intro s row p d bs h hbytes hnonzero hnone
  rw [exec, execLcdScroll, operate_session h, scrollBody_badRead hbytes hnonzero hnone, finish_error]
  rfl

/-- A chunk's script begins with the characters that host memory holds there (R130). -/
theorem chunkScript_append (c : Cfg) (a : Nat) (bl : Bool) {m : Memory} {p : Nat} {bs : List Byte}
    (hbytes : HoldsBytes m p bs) (hnonzero : ∀ b ∈ bs, b ≠ 0) (count : Nat) :
    chunkScript c a bl m (bs.length + count) p =
      (Script.after (charsEvents c a bl bs) (chunkScript c a bl m count (p + bs.length)).1,
        (chunkScript c a bl m count (p + bs.length)).2) := by
  induction bs generalizing p with
  | nil => simp [charsEvents, Script.after]
  | cons b bs ih =>
    obtain ⟨hb, hbs⟩ := List.forall_mem_cons.mp hnonzero
    have hcount : (b :: bs).length + count = bs.length + count + 1 := by rw [List.length_cons]; omega
    have haddr : p + (b :: bs).length = p + 1 + bs.length := by rw [List.length_cons]; omega
    rw [hcount, haddr, chunkScript, hbytes.head]
    simp only [if_neg hb, ih hbytes.tail hbs]
    simp [Script.after, charsEvents]

/-- The script of a full chunk (R130). -/
theorem chunkScript_full (c : Cfg) (a : Nat) (bl : Bool) {m : Memory} {p : Nat} {bs : List Byte}
    (hbytes : HoldsBytes m p bs) (hnonzero : ∀ b ∈ bs, b ≠ 0) :
    chunkScript c a bl m bs.length p = (⟨charsEvents c a bl bs, none⟩, false) := by
  simpa [chunkScript, Script.after] using chunkScript_append c a bl hbytes hnonzero 0

/-- The script of a chunk with an unreadable byte in it (R130, R191). -/
theorem chunkScript_badRead (c : Cfg) (a : Nat) (bl : Bool) {m : Memory} {p count : Nat} {bs : List Byte}
    (hbytes : HoldsBytes m p bs) (hnonzero : ∀ b ∈ bs, b ≠ 0) (hnone : Memory.read m (p + bs.length) = none)
    (hcount : bs.length < count) :
    chunkScript c a bl m count p = (⟨charsEvents c a bl bs, some (.badRead (p + bs.length))⟩, false) := by
  obtain ⟨k, rfl⟩ := Nat.exists_eq_add_of_lt hcount
  rw [Nat.add_assoc, chunkScript_append c a bl hbytes hnonzero (k + 1), chunkScript, hnone]
  simp [Script.after]

/-- What `write_wrapped` emits for row `r` (R130). -/
def rowEvents (c : Cfg) (a : Nat) (bl : Bool) (bs : List Byte) (r : Nat) : List Event :=
  if chunk c bs r = [] then [] else cursorEvents c a bl r 0 ++ charsEvents c a bl (chunk c bs r)

theorem wrapEvents_eq_flatMap_rowEvents (c : Cfg) (a : Nat) (bl : Bool) (bs : List Byte) :
    wrapEvents c a bl bs = (List.range' 0 c.rows).flatMap (rowEvents c a bl bs) := by
  rw [← List.range_eq_range']
  rfl

/-- The rows after the end of the string emit nothing. -/
theorem rowEvents_past_end {c : Cfg} {bs : List Byte} {r : Nat} (h : bs.length ≤ r * c.cols) (a : Nat) (bl : Bool) :
    rowEvents c a bl bs r = [] := by
  rw [rowEvents, if_pos (by rw [chunk, List.drop_eq_nil_of_le h, List.take_nil])]

theorem flatMap_rowEvents_past_end {c : Cfg} {bs : List Byte} {r : Nat} (h : bs.length ≤ r * c.cols) (a : Nat)
    (bl : Bool) (left : Nat) : (List.range' r left).flatMap (rowEvents c a bl bs) = [] := by
  refine List.flatMap_eq_nil_iff.mpr fun k hk => rowEvents_past_end (h.trans ?_) a bl
  exact Nat.mul_le_mul_right _ (List.mem_range'_1.mp hk).1

/-- A row that begins before the end of the string is positioned and written. -/
theorem rowEvents_of_lt {c : Cfg} {bs : List Byte} {r : Nat} (hcols : 1 ≤ c.cols) (h : r * c.cols < bs.length)
    (a : Nat) (bl : Bool) : rowEvents c a bl bs r = cursorEvents c a bl r 0 ++ charsEvents c a bl (chunk c bs r) := by
  refine if_neg fun hnil => ?_
  simp only [chunk, List.take_eq_nil_iff, List.drop_eq_nil_iff] at hnil
  omega

/-- The rows of `write_wrapped` from the row that begins in or right after the string, up to the unreadable byte (R130,
R191): full rows before it, and then the row in which, or at whose beginning, it stands. -/
theorem wrapScript_badRead (a : Nat) (bl : Bool) {c : Cfg} {m : Memory} {p : Nat} {bs : List Byte}
    (hcols : 1 ≤ c.cols) (hbytes : HoldsBytes m p bs) (hnonzero : ∀ b ∈ bs, b ≠ 0)
    (hnone : Memory.read m (p + bs.length) = none) {left r : Nat} (hfrom : r * c.cols ≤ bs.length)
    (hto : bs.length < (r + left) * c.cols) :
    wrapScript c a bl m p left r =
      ⟨(List.range' r left).flatMap (rowEvents c a bl bs), some (.badRead (p + bs.length))⟩ := by
  induction left generalizing r with
  | zero => exact absurd hto (Nat.not_lt.mpr hfrom)
  | succ left ih =>
    have hnext : (r + 1) * c.cols = r * c.cols + c.cols := Nat.succ_mul r c.cols
    rw [List.range'_succ, List.flatMap_cons, wrapScript]
    rcases hfrom.eq_or_lt with hboundary | hlt
    · -- the unreadable byte is the row's first one
      rw [rowEvents_past_end hboundary.ge, flatMap_rowEvents_past_end (by omega), hboundary, hnone]
      rfl
    have hchunk : HoldsBytes m (p + r * c.cols) (chunk c bs r) := (hbytes.drop _).take _
    have hchunkNonzero : ∀ b ∈ chunk c bs r, b ≠ 0 := fun b hb =>
      hnonzero b (List.mem_of_mem_drop (List.mem_of_mem_take hb))
    have hlength : (chunk c bs r).length = min c.cols (bs.length - r * c.cols) := by simp [chunk]
    have hfirst : bs[r * c.cols] ≠ 0 := hnonzero _ (List.getElem_mem hlt)
    rw [hbytes _ hlt, rowEvents_of_lt hcols hlt]
    simp only [if_neg hfirst]
    by_cases hfull : (r + 1) * c.cols ≤ bs.length
    · have hscript := chunkScript_full c a bl hchunk hchunkNonzero
      rw [hlength, Nat.min_eq_left (by omega)] at hscript
      rw [hscript, if_neg Bool.false_ne_true, ih hfull (by rwa [Nat.add_right_comm])]
      simp [Script.andThen, Script.after]
    · have hend : p + r * c.cols + (chunk c bs r).length = p + bs.length := by omega
      have hscript := chunkScript_badRead c a bl hchunk hchunkNonzero (hend ▸ hnone) (count := c.cols) (by omega)
      rw [hscript, flatMap_rowEvents_past_end (by omega), hend]
      simp [Script.andThen, Script.after]

/-- Settles O43: the script of all rows. -/
theorem wrapBadRead : Obligations.WrapBadRead := by
  unfold Obligations.WrapBadRead
  intro s p bs h hr hbytes hnonzero hlt hnone
  have hscript := wrapScript_badRead s.addr s.bl (left := s.cfg.rows) (r := 0) (one_le_cols h.1.1) hbytes hnonzero hnone
    (by omega) (by rwa [Nat.zero_add])
  rw [← wrapEvents_eq_flatMap_rowEvents] at hscript
  have hbody : (wrapBody p).run s =
      (play (wrapEvents s.cfg s.addr s.bl bs) >>= fun _ => raise (.badRead (p + bs.length)) : Proc Unit).run s := by
    rw [wrapBody, theCfg_bind, wrapRows_script _ _ _ (Alike.refl s), hscript]
    rfl
  exact operate_raises h hbody hr (wrapEvents_isLcd _ _ _ _)

/-! ### Backlight -/

/-- The backlight operation for a new value of the flag (R127, R128). -/
def backlightOp (v : Bool) : Instr := if v then .lcdBlon else .lcdBloff

/-- The state after a backlight operation that has re-issued `b` (R127, R128). -/
def State.relit (s : State) (v : Bool) (b : Byte) : State :=
  { s with
    bl := v, trace := s.trace ++ [.xmit s.addr [b]], shadow := some b, replies := s.replies.drop 1,
    draws := s.draws + 1, pc := s.pc + 1 }

/-- In a session in which a byte has been written a backlight operation whose transaction returns re-issues it (R127,
R128). -/
theorem exec_backlightOp {s : State} (h : s.inSession) {b : Byte} (hb : s.shadow = some b) (v : Bool)
    (hr : s.transportReturns [.xmit s.addr [reissuedByte s.cfg v b]]) :
    exec (backlightOp v) s = .next (s.relit v (reissuedByte s.cfg v b)) := by
  obtain ⟨hl, hi⟩ := h
  have hscript : script (backlightOp v) s = some ⟨[.xmit s.addr [reissuedByte s.cfg v b]], none⟩ := by
    cases v <;> simp [backlightOp, script, hi, hb, reissuedByte, litByte, unlitByte]
  have hprep : prep (backlightOp v) s = s.setBl v := by cases v <;> simp [backlightOp, prep, hi]
  rw [exec_returns _ hl hscript (by rwa [hprep]), hprep, absorbAll_lcd _ (by simp [Event.isLcd])]
  rfl

/-- Settles O39: the two values of the flag. -/
theorem backlightCompletes : Obligations.BacklightCompletes := by
  unfold Obligations.BacklightCompletes
  exact fun s b h hb => ⟨exec_backlightOp h hb true, exec_backlightOp h hb false⟩

/-- Settles O40: without a byte written a backlight operation has no script. -/
theorem backlightWithoutShadowRefused : Obligations.BacklightWithoutShadowRefused := by
  unfold Obligations.BacklightWithoutShadowRefused
  rintro s ⟨hl, hi⟩ hs
  rw [exec_script _ hl, exec_script _ hl]
  simp [script, hi, hs]

/-- Setting or clearing a mask's bits a second time changes nothing. -/
theorem reissuedByte_reissuedByte (c : Cfg) (v : Bool) (b : Byte) :
    reissuedByte c v (reissuedByte c v b) = reissuedByte c v b := by
  cases v with
  | true => simp [reissuedByte, litByte, BitVec.or_assoc]
  | false => simp [reissuedByte, unlitByte, BitVec.and_assoc]

/-- Every other bit of a re-issued byte is the shadow's (R129). -/
theorem getLsbD_reissuedByte {c : Cfg} {k : Nat} (h : c.blMask.getLsbD k = false) (v : Bool) (b : Byte) :
    (reissuedByte c v b).getLsbD k = b.getLsbD k := by
  cases v with
  | true => simp [reissuedByte, litByte, h, -BitVec.getLsbD_eq_getElem]
  | false =>
    by_cases hk : k < 8
    · simp [reissuedByte, unlitByte, h, hk, -BitVec.getLsbD_eq_getElem]
    · rw [BitVec.getLsbD_of_ge _ _ (by omega), BitVec.getLsbD_of_ge _ _ (by omega)]

/-- Two backlight operations in a row (R129). -/
theorem exec_backlightOp_twice {s : State} (h : s.inSession) {b : Byte} (hb : s.shadow = some b) (v : Bool)
    (hr : s.transportReturns [.xmit s.addr [reissuedByte s.cfg v b], .xmit s.addr [reissuedByte s.cfg v b]]) :
    ∃ t u : State, exec (backlightOp v) s = .next t ∧ exec (backlightOp v) t = .next u ∧
      u.trace = s.trace ++ [.xmit s.addr [reissuedByte s.cfg v b], .xmit s.addr [reissuedByte s.cfg v b]] := by
  obtain ⟨hfirst, hsecond⟩ := not_or.mp fun hm => hr (answers_absorb s _ _ ▸ List.mem_append.mpr hm)
  have hsame := reissuedByte_reissuedByte s.cfg v b
  have hreturns : (s.relit v (reissuedByte s.cfg v b)).transportReturns
      [.xmit s.addr [reissuedByte s.cfg v (reissuedByte s.cfg v b)]] := by
    simpa [State.relit, State.absorb, hsame] using hsecond
  refine ⟨_, _, exec_backlightOp h hb v hfirst,
    exec_backlightOp (s := s.relit v (reissuedByte s.cfg v b)) h rfl v hreturns, ?_⟩
  simp [State.relit, hsame]

/-- Settles O41: the two values of the flag. -/
theorem backlightIdempotent : Obligations.BacklightIdempotent := by
  unfold Obligations.BacklightIdempotent
  exact fun s b h hb => ⟨exec_backlightOp_twice h hb true, exec_backlightOp_twice h hb false, fun k hk =>
    ⟨getLsbD_reissuedByte hk true b, getLsbD_reissuedByte hk false b⟩⟩

end Sys2Proof.Machine
end

section
/-! `send` and its busy-waits (42_led_send.md R161 to R168): O53 to O57. -/

namespace Sys2Proof.Machine

/-! ### The busy-wait count -/

/-- Settles O53: without an override `LOOPS` is a quotient by 10^9. -/
theorem loopsFormula : Obligations.LoopsFormula := by
  unfold Obligations.LoopsFormula
  refine ⟨fun c ns f h => ?_, fun c h => ?_⟩
  · rw [loops_formula h]
    exact ⟨Nat.div_mul_le_self _ _, (Nat.div_lt_iff_lt_mul (by decide)).mp (Nat.lt_succ_self _)⟩
  · simp [loops_formula h]

/-! ### The state after the events of `send` -/

/-- `send`'s events end with the reset hold and `irq_restore` (R161). -/
theorem sendEvents_eq_append (c : Cfg) (prev : Bool) (bs : List Byte) :
    sendEvents c prev bs = ([.irqOff prev] ++ bufferEvents c bs) ++ (holdEvents c ++ [.irqRestore prev]) := by
  rw [sendEvents, List.append_assoc]

/-- The symbols of a buffer leave the line low, unless the buffer is empty, and change no other field but the trace
(R162). -/
theorem absorbAll_bufferEvents (s : State) (bs : List Byte) :
    s.absorbAll (bufferEvents s.cfg bs) =
      { s with trace := s.trace ++ bufferEvents s.cfg bs, pin := if bs = [] then s.pin else false } := by
  obtain ⟨hie, hshadow, hcount, hpin⟩ := bufferEvents_fields s bs
  rw [absorbAll_shadow] at hshadow
  rw [absorbAll_pin] at hpin
  apply State.ext_fields <;> simp [hie, hshadow, hcount, hpin]

/-- Between the interrupt disable and the reset hold, interrupts are off (R161). -/
theorem absorbAll_irqOff_bufferEvents (s : State) (bs : List Byte) :
    s.absorbAll ([.irqOff s.ie] ++ bufferEvents s.cfg bs) =
      { s with
        trace := s.trace ++ ([.irqOff s.ie] ++ bufferEvents s.cfg bs), pin := if bs = [] then s.pin else false,
        ie := false } := by
  have hoff : s.absorbAll [.irqOff s.ie] = { s with trace := s.trace ++ [.irqOff s.ie], ie := false } := rfl
  rw [absorbAll_append, hoff, ← List.append_assoc]
  exact absorbAll_bufferEvents _ bs

/-- A whole `send` leaves the line low and changes no other field but the trace (R161). -/
theorem absorbAll_sendEvents (s : State) (bs : List Byte) :
    s.absorbAll (sendEvents s.cfg s.ie bs) = s.shown (sendEvents s.cfg s.ie bs) := by
  rw [sendEvents_eq_append, absorbAll_append, absorbAll_irqOff_bufferEvents, State.shown, ← List.append_assoc s.trace]
  simp [holdEvents, State.absorbAll, State.absorb, State.emit, State.setPin, State.setIe]

/-! ### `send` of a buffer -/

/-- Settles O54. -/
theorem sendCompletes : Obligations.SendCompletes := by
  unfold Obligations.SendCompletes
  intro s p n bs hl hb hn
  rw [exec_ledSend hl hb hn, absorbAll_sendEvents]
  rfl

/-- Settles O55: the empty buffer is readable wherever it stands. -/
theorem sendZero : Obligations.SendZero := by
  unfold Obligations.SendZero
  exact fun s p hl => sendCompletes s p 0 [] hl nofun rfl

/-- Settles O56: the body raises after the symbols of the bytes it has read, before the reset hold and `irq_restore`. -/
theorem sendBadRead : Obligations.SendBadRead := by
  unfold Obligations.SendBadRead
  intro s p n bs hl hb hn hnone
  rw [exec, execLedSend, operate_live hl, sendBody_badRead hb hnone hn, finish_error, absorbAll_irqOff_bufferEvents]
  rfl

/-! ### Counts and sums over a frame -/

section
variable {μ : List Event → Nat} (happend : ∀ es fs, μ (es ++ fs) = μ es + μ fs)
include happend

/-- What adds up over events is, over blocks of one measure, that measure for each block. -/
theorem measure_flatMap {α : Type} {f : α → List Event} {k : Nat} (hf : ∀ x, μ (f x) = k) (l : List α) :
    μ (l.flatMap f) = l.length * k := by
  induction l with
  | nil =>
    have hnil : μ [] = μ [] + μ [] := happend [] []
    rw [List.flatMap_nil, List.length_nil, Nat.zero_mul]
    omega
  | cons x l ih => rw [List.flatMap_cons, happend, hf, ih, List.length_cons, Nat.succ_mul, Nat.add_comm]

/-- A buffer of `n` LEDs is `24 * n` bit symbols (R167). -/
theorem measure_bufferEvents {c : Cfg} {k : Nat} (hbit : ∀ v, μ (bitEvents c v) = k) {bs : List Byte} {n : Nat}
    (hn : bs.length = 3 * n) : μ (bufferEvents c bs) = 24 * n * k := by
  have hbyte (b : Byte) : μ ((msbFirst b).flatMap (bitEvents c)) = 8 * k := measure_flatMap happend hbit _
  rw [bufferEvents, measure_flatMap happend hbyte, hn, ← Nat.mul_assoc]
  congr 1
  omega

end

/-- A bit symbol drives the line high once (R162). -/
theorem pulseCount_bitEvents (c : Cfg) (v : Bool) : pulseCount (bitEvents c v) = 1 := by cases v <;> rfl

/-- The symbols of the two values take the same time, by R9's check (R167). -/
theorem spinTotal_bitEvents {c : Cfg} (h : validCfg c = true) (v : Bool) :
    spinTotal (bitEvents c v) = c.t0hNs + c.t0lNs := by
  have hperiod := (validCfg_iff_checkHolds c).mp h .equalPeriod
  rw [checkHolds, beq_iff_eq] at hperiod
  cases v with
  | false => rfl
  | true => exact hperiod.symm

theorem length_bufferEvents (c : Cfg) {bs : List Byte} {n : Nat} (hn : bs.length = 3 * n) :
    (bufferEvents c bs).length = 96 * n := by
  rw [measure_bufferEvents (fun _ _ => List.length_append) (length_bitEvents c) hn]
  omega

theorem length_sendEvents (c : Cfg) (prev : Bool) {bs : List Byte} {n : Nat} (hn : bs.length = 3 * n) :
    (sendEvents c prev bs).length = 96 * n + 4 := by
  simp [sendEvents, holdEvents, length_bufferEvents c hn]

theorem pulseCount_sendEvents (c : Cfg) (prev : Bool) {bs : List Byte} {n : Nat} (hn : bs.length = 3 * n) :
    pulseCount (sendEvents c prev bs) = 24 * n := by
  have hbuffer := measure_bufferEvents pulseCount_append (pulseCount_bitEvents c) hn
  simp [sendEvents, holdEvents, pulseCount_append, pulseCount, hbuffer]

theorem spinTotal_sendEvents {c : Cfg} (h : validCfg c = true) (prev : Bool) {bs : List Byte} {n : Nat}
    (hn : bs.length = 3 * n) :
    spinTotal (sendEvents c prev bs) = 24 * n * (c.t0hNs + c.t0lNs) + c.tResetNs := by
  have hbuffer := measure_bufferEvents spinTotal_append (spinTotal_bitEvents h) hn
  simp [sendEvents, holdEvents, spinTotal_append, spinTotal, hbuffer]

/-- After `irq_off` and the symbols of `n` LEDs come the last three events (R161). -/
theorem drop_sendEvents (c : Cfg) (prev : Bool) {bs : List Byte} {n : Nat} (hn : bs.length = 3 * n) :
    (sendEvents c prev bs).drop (96 * n + 1) = holdEvents c ++ [.irqRestore prev] := by
  rw [sendEvents_eq_append]
  exact List.drop_left' (by simp [length_bufferEvents c hn])

/-- Settles O57: counts and sums add up over the `24 * n` symbols. -/
theorem sendCounts : Obligations.SendCounts := by
  unfold Obligations.SendCounts
  intro s p n bs hl hb hn
  have htotal := spinTotal_sendEvents hl.1 s.ie hn
  refine completes_ledSend hl hb hn ⟨length_sendEvents _ _ hn, pulseCount_sendEvents _ _ hn, rfl,
    drop_sendEvents _ _ hn, htotal, fun cols rows hdefault => ?_⟩
  have hperiod : s.cfg.t0hNs + s.cfg.t0lNs = 1250 := by rw [hdefault]; rfl
  have hreset : s.cfg.tResetNs = 300000 := by rw [hdefault]; rfl
  rw [htotal, hperiod, hreset]
  omega

end Sys2Proof.Machine
end

section
/-! The exceptions that end an operation before its body (60_exceptions.md R192 to R195, R198, R204): O3, O7, O10, O13 and
O15. -/

namespace Sys2Proof.Machine

/-! ### Steps without an operation -/

/-- An invalid configuration has no step (R194). -/
theorem step_invalid {s : State} {k : ConfigCheck} (h : failedCheck s.cfg = some k) :
    step s = .refused (.invalidConfig k) := by
  simp [step, h]

/-- A blocked machine stays in its transaction (R198; log 6). -/
theorem step_blocked {s : State} (hv : validCfg s.cfg = true) (hb : s.blocked = true) : step s = .next s := by
  simp [step, (failedCheck_eq_none s.cfg).mpr hv, hb]

/-- Past the last word of the program a step is `atEnd` (R21; log 8). -/
theorem step_atEnd {s : State} (hv : validCfg s.cfg = true) (hb : s.blocked = false) (hend : s.program[s.pc]? = none) :
    step s = atEnd s := by
  simp [step, (failedCheck_eq_none s.cfg).mpr hv, hb, fetch, hend]

/-- A word that the decoder rejects is refused before a recorded fault is looked at (R195, R201). -/
theorem step_rejected {s : State} {w : Word} {r : Reject} (hv : validCfg s.cfg = true) (hb : s.blocked = false)
    (hw : s.program[s.pc]? = some w) (hd : decode w = .error r) : step s = .refused (rejected r) := by
  simp [step, (failedCheck_eq_none s.cfg).mpr hv, hb, fetch, hw, hd]

/-- Settles O7: a hang is looked at before the next word and before every body; past the program's end no word is fetched. -/
theorem stepWithoutOperation : Obligations.StepWithoutOperation := by
  unfold Obligations.StepWithoutOperation
  intro s hv
  refine ⟨fun hb => ⟨step_blocked hv hb, fun i => ?_⟩, fun hb hf hend => ?_⟩
  · obtain ⟨refusal, body, hexec⟩ := exec_operates i
    rw [hexec, operateUnless_blocked hv hb]
  · rw [step_atEnd hv hb (List.getElem?_eq_none hend), atEnd, hf]

/-- A configuration that is not valid has a first check that fails (R9). -/
theorem exists_failedCheck {c : Cfg} (h : validCfg c = false) : ∃ k, failedCheck c = some k := by
  rw [← Option.ne_none_iff_exists', Ne, failedCheck_eq_none, h]
  exact Bool.false_ne_true

/-- Settles O10: the check that is named is the first one that fails. -/
theorem invalidConfigRefused : Obligations.InvalidConfigRefused := by
  unfold Obligations.InvalidConfigRefused
  intro s hinvalid
  obtain ⟨k, hk⟩ := exists_failedCheck hinvalid
  refine ⟨k, failedCheck_eq_some hk, step_invalid hk, fun i => ?_⟩
  obtain ⟨refusal, body, hexec⟩ := exec_operates i
  rw [hexec, operateUnless_invalid hk]

/-- An id outside R85's table has no operation, whatever its operands (R195). -/
theorem decodeHost_unlisted {id : Byte} (h : id ∉ [0x01, 0x02, 0x03, 0x04, 0x05, 0x06, 0x07, 0x08, 0x10])
    (operands : List Nat) : decodeHost id operands = .error (.illegalOp id) := by
  have hne : ∀ n ∈ [0x01, 0x02, 0x03, 0x04, 0x05, 0x06, 0x07, 0x08, 0x10], id.toNat ≠ n := by
    rintro _ hn rfl
    exact h ((List.mem_map_of_injective (f := BitVec.toNat) fun _ _ => BitVec.eq_of_toNat_eq).mp hn)
  unfold decodeHost
  split
  case h_10 => rfl
  all_goals exact absurd ‹id.toNat = _› (hne _ (by decide))

/-- Settles O3: the decoder rejects the word, and `step` refuses what the decoder rejects. -/
theorem unlistedHostIdRefused : Obligations.UnlistedHostIdRefused := by
  unfold Obligations.UnlistedHostIdRefused
  intro id operands hid
  have hreject : decode (.ho id operands) = .error (.illegalOp id) := decodeHost_unlisted hid operands
  exact ⟨hreject, fun s hv hb hw => step_rejected hv hb hw hreject⟩

/-! ### The session checks -/

/-- Before `initialize` a backlight operation has a step, although no byte has been written (R127, R192). -/
theorem noShadowYet_noSession {s : State} (h : s.inited = false) : noShadowYet s = none := by
  simp [noShadowYet, h]

/-- Settles O13: the session is checked before the body, and before `initialize` the backlight operations have no reason to
be refused. -/
theorem notInitializedRaised : Obligations.NotInitializedRaised := by
  unfold Obligations.NotInitializedRaised
  intro s row column p d h hi
  have hraise : ∀ op body, operate (lcdOperation op body) s = .next { s with fault := some (.notInitialized op) } :=
    operate_noSession h hi
  have hbacklight : ∀ op body, operateUnless (noShadowYet s) (lcdOperation op body) s =
      .next { s with fault := some (.notInitialized op) } := by
    rw [noShadowYet_noSession hi]
    exact hraise
  exact ⟨hraise _ _, hraise _ _, hraise _ _, hbacklight _ _, hbacklight _ _, hraise _ _, hraise _ _⟩

/-- Settles O15: `initialize` checks the session before it opens one. -/
theorem reInitRaised : Obligations.ReInitRaised := by
  unfold Obligations.ReInitRaised
  rintro s bus addr ⟨hlive, hinited⟩
  rw [exec, execLcdInit, operate_live hlive, initBody_reInit bus addr hinited, finish_error]
  rfl

end Sys2Proof.Machine
end

section
/-! The state right after reset and the minimum blocking times (70_reset_and_hazards.md R220, R233): O25 and O46. -/

namespace Sys2Proof.Machine

/-! ### Reset -/

/-- Nothing is bound, written or recorded yet, and no operation is inside a transaction (R220). -/
theorem inv_resetWith (c : Cfg) : (State.resetWith c).Inv :=
  ⟨Memory.wf_nil, Nat.le_refl 0, nofun, fun _ _ => ⟨nofun, nofun⟩⟩

/-- The empty trace has no last byte, no last level and no transaction (R220). -/
theorem traceInv_resetWith (c : Cfg) : (State.resetWith c).TraceInv :=
  ⟨fun _ => rfl, rfl, nofun⟩

/-- Settles O25: the fields are the ones `resetWith` writes; the invariants are the two lemmas above. -/
theorem resetState : Obligations.ResetState := by
  unfold Obligations.ResetState
  exact fun c => ⟨rfl, rfl, rfl, rfl, rfl, rfl, inv_resetWith c, traceInv_resetWith c⟩

/-! ### Delays of the event lists -/

theorem waitTotal_waitMs (ms : Nat) : waitTotal [.waitMs ms] = ms := List.sum_singleton

/-- `set_cursor` is one command transfer (R124). -/
theorem waitTotal_cursorEvents (c : Cfg) (a : Nat) (bl : Bool) (row column : Nat) :
    waitTotal (cursorEvents c a bl row column) = 6 * c.tuMs :=
  waitTotal_cmdEvents _ _ _ _

/-- `clear` is one command transfer and its wait (R123). -/
theorem waitTotal_clearEvents (c : Cfg) (a : Nat) (bl : Bool) :
    waitTotal (clearEvents c a bl) = 6 * c.tuMs + c.tClearMs := by
  rw [clearEvents, waitTotal_append, waitTotal_cmdEvents, waitTotal_waitMs]

/-- The delays of a character: four of its two pulses, and its settle of 1 unit (R105). -/
theorem waitTotal_dataEvents (c : Cfg) (a : Nat) (bl : Bool) (b : Byte) :
    waitTotal (dataEvents c a bl b) = 5 * c.tuMs := by
  rw [waitTotal, dataEvents, waitArgs_append, waitArgs_byteEvents]
  simp only [waitArgs, List.cons_append, List.nil_append, List.sum_cons, List.sum_nil]
  omega

theorem waitTotal_charsEvents (c : Cfg) (a : Nat) (bl : Bool) (bs : List Byte) :
    waitTotal (charsEvents c a bl bs) = 5 * c.tuMs * bs.length := by
  rw [charsEvents, measure_flatMap waitTotal_append (waitTotal_dataEvents c a bl), Nat.mul_comm]

/-! ### Rows of `write_wrapped` -/

/-- R233's time of `write_wrapped` for a text of `m` characters that the display holds. -/
def wrappedTime (c : Cfg) (m : Nat) : Nat := 6 * c.tuMs * ((m + c.cols - 1) / c.cols) + 5 * c.tuMs * m

theorem wrappedTime_zero {c : Cfg} (hcols : 1 ≤ c.cols) : wrappedTime c 0 = 0 := by
  simp [wrappedTime, Nat.div_eq_of_lt (Nat.sub_lt hcols Nat.one_pos)]

/-- Taking a row of `cols` characters off a text that is not empty lowers its number of rows by one. -/
theorem rowCount_sub_row {cols m : Nat} (hcols : 1 ≤ cols) (hm : 0 < m) :
    (m + cols - 1) / cols = (m - cols + cols - 1) / cols + 1 := by
  rw [Nat.sub_add_comm hm, Nat.add_div_right _ hcols]
  rcases Nat.le_total cols m with hfull | hlast
  · rw [Nat.sub_add_cancel hfull]
  · rw [Nat.div_eq_of_lt (by omega), Nat.div_eq_of_lt (by omega)]

/-- The first row of a text that is not empty takes a command and its characters (R130). -/
theorem wrappedTime_sub_row {c : Cfg} {m : Nat} (hcols : 1 ≤ c.cols) (hm : 0 < m) :
    wrappedTime c m = 6 * c.tuMs + 5 * c.tuMs * min c.cols m + wrappedTime c (m - c.cols) := by
  have hchars : 5 * c.tuMs * m = 5 * c.tuMs * min c.cols m + 5 * c.tuMs * (m - c.cols) := by
    rw [← Nat.mul_add, Nat.add_comm, Nat.min_comm, tsub_add_min]
  rw [wrappedTime, wrappedTime, rowCount_sub_row hcols hm, Nat.mul_succ, hchars]
  omega

/-- After the end of the text there is no row left to wait for (R130). -/
theorem waitTotal_rowEvents_past_end {c : Cfg} (hcols : 1 ≤ c.cols) (a : Nat) (bl : Bool) {bs : List Byte} {r : Nat}
    (hpast : bs.length ≤ r * c.cols) (left : Nat) :
    waitTotal ((List.range' r left).flatMap (rowEvents c a bl bs)) = wrappedTime c (bs.length - r * c.cols) := by
  rw [flatMap_rowEvents_past_end hpast, Nat.sub_eq_zero_of_le hpast, wrappedTime_zero hcols]
  rfl

/-- The rows of `write_wrapped` from row `r` on take the time of the text from there on, where the display holds it. -/
theorem waitTotal_rowEvents_from {c : Cfg} (hcols : 1 ≤ c.cols) (a : Nat) (bl : Bool) {bs : List Byte} {left r : Nat}
    (hfits : bs.length ≤ (r + left) * c.cols) :
    waitTotal ((List.range' r left).flatMap (rowEvents c a bl bs)) = wrappedTime c (bs.length - r * c.cols) := by
  induction left generalizing r with
  | zero => exact waitTotal_rowEvents_past_end hcols a bl hfits 0
  | succ left ih =>
    rcases Nat.lt_or_ge (r * c.cols) bs.length with hlt | hpast
    · have hchunk : (chunk c bs r).length = min c.cols (bs.length - r * c.cols) := by simp [chunk]
      rw [List.range'_succ, List.flatMap_cons, waitTotal_append, rowEvents_of_lt hcols hlt, waitTotal_append,
        waitTotal_cursorEvents, waitTotal_charsEvents, hchunk, ih (by rwa [Nat.add_right_comm]), Nat.succ_mul r,
        Nat.sub_add_eq, ← wrappedTime_sub_row hcols (Nat.sub_pos_of_lt hlt)]
    · exact waitTotal_rowEvents_past_end hcols a bl hpast (left + 1)

/-- The minimum blocking time of `write_wrapped` (R233). -/
theorem waitTotal_wrapEvents {c : Cfg} (hcols : 1 ≤ c.cols) (a : Nat) (bl : Bool) {bs : List Byte}
    (hfits : bs.length ≤ c.rows * c.cols) : waitTotal (wrapEvents c a bl bs) = wrappedTime c bs.length := by
  have hrows := waitTotal_rowEvents_from hcols a bl (left := c.rows) (r := 0) (by rwa [Nat.zero_add])
  rwa [← wrapEvents_eq_flatMap_rowEvents, Nat.zero_mul, Nat.sub_zero] at hrows

/-! ### Windows of `scroll_row` -/

/-- A window inside the text: its cursor command, a row of characters, and its delay where it has one (R131). -/
theorem waitTotal_windowEvents {c : Cfg} (htrailing : c.scrollTrailingDelay = false) (a : Nat) (bl : Bool) (row d : Nat)
    {bs : List Byte} {i : Nat} (hi : i + c.cols ≤ bs.length) :
    waitTotal (windowEvents c a bl row d bs i) =
      (6 + 5 * c.cols) * c.tuMs + if i < bs.length - c.cols then d else 0 := by
  have hlength : ((bs.drop i).take c.cols).length = c.cols := by
    rw [List.length_take, List.length_drop]
    omega
  have hunits : 6 * c.tuMs + 5 * c.tuMs * c.cols = (6 + 5 * c.cols) * c.tuMs := by
    rw [Nat.add_mul, Nat.mul_right_comm]
  rw [windowEvents, waitTotal_append, waitTotal_append, waitTotal_cursorEvents, waitTotal_charsEvents, hlength, hunits]
  by_cases hmore : i < bs.length - c.cols
  · rw [if_pos (.inl hmore), if_pos hmore, waitTotal_waitMs]
  · rw [if_neg (by simp [hmore, htrailing]), if_neg hmore]
    rfl

/-- The first `n` blocks of a family, where these all wait `k` milliseconds. -/
theorem waitTotal_flatMap_range {f : Nat → List Event} {k n : Nat} (hf : ∀ i < n, waitTotal (f i) = k) :
    waitTotal ((List.range n).flatMap f) = n * k := by
  induction n with
  | zero => rw [Nat.zero_mul]; rfl
  | succ n ih =>
    rw [List.range_succ, List.flatMap_append, waitTotal_append, List.flatMap_singleton,
      ih fun i hi => hf i (hi.trans (Nat.lt_succ_self n)), hf n (Nat.lt_succ_self n), Nat.succ_mul]

/-- The minimum blocking time of a `scroll_row` that scrolls: every window but the last is followed by a delay (R233). -/
theorem waitTotal_scrollEvents {c : Cfg} (htrailing : c.scrollTrailingDelay = false) (a : Nat) (bl : Bool) (row d : Nat)
    {bs : List Byte} (hlong : c.cols < bs.length) :
    waitTotal (scrollEvents c a bl row d bs) =
      (bs.length - c.cols + 1) * (6 + 5 * c.cols) * c.tuMs + (bs.length - c.cols) * d := by
  have hdelayed : ∀ i < bs.length - c.cols,
      waitTotal (windowEvents c a bl row d bs i) = (6 + 5 * c.cols) * c.tuMs + d := by
    intro i hi
    rw [waitTotal_windowEvents htrailing a bl row d (by omega), if_pos hi]
  have hlast : waitTotal (windowEvents c a bl row d bs (bs.length - c.cols)) = (6 + 5 * c.cols) * c.tuMs := by
    rw [waitTotal_windowEvents htrailing a bl row d (by omega), if_neg (Nat.lt_irrefl _)]
    rfl
  rw [scrollEvents, if_neg (Nat.not_le.mpr hlong), List.range_succ, List.flatMap_append, waitTotal_append,
    waitTotal_flatMap_range hdelayed, List.flatMap_singleton, hlast, Nat.mul_add, Nat.mul_assoc,
    Nat.succ_mul (bs.length - c.cols), Nat.add_right_comm]

/-! ### The operations -/

/-- A backlight operation whose transaction returns completes and waits for nothing (R127, R128). -/
theorem completes_backlightOp {s : State} (h : s.inSession) {b : Byte} (hb : s.shadow = some b) (v : Bool)
    (hr : s.transportReturns [.xmit s.addr [reissuedByte s.cfg v b]]) :
    Completes (backlightOp v) s fun es => waitTotal es = 0 := by
  have ⟨⟨_, hblocked, hfault⟩, _⟩ := h
  exact ⟨_, [.xmit s.addr [reissuedByte s.cfg v b]], exec_backlightOp h hb v hr, rfl, hfault, hblocked, rfl, rfl⟩

/-- Settles O46: each operation plays its list of events, whose delays are summed above. -/
theorem minimumBlockingTimes : Obligations.MinimumBlockingTimes := by
  unfold Obligations.MinimumBlockingTimes
  intro s row column p d b bs h hb hs
  have hcols := one_le_cols h.1.1
  have ⟨hbytes, hnonzero, hterminator⟩ := hs
  refine ⟨fun hr => ?_, fun hr => ?_, fun hr => ?_, completes_backlightOp h hb true, completes_backlightOp h hb false,
    fun hr hfits => ?_, fun hr hlong htrailing => ?_⟩
  · exact completes_of_body h rfl (clearBody_play s) hr (clearEvents_isLcd _ _ _) (waitTotal_clearEvents _ _ _)
  · exact completes_of_body h rfl (cursorBody_play row column s) hr (cursorEvents_isLcd _ _ _ _ _)
      (waitTotal_cursorEvents _ _ _ _ _)
  · exact completes_of_body h rfl (textBody_play hs) hr (charsEvents_isLcd _ _ _ _) (waitTotal_charsEvents _ _ _ _)
  · have hend := hfits.eq_or_lt.imp_right fun hlt => And.intro hlt hterminator
    exact completes_of_body h rfl (wrapBody_play hcols hbytes hnonzero hend) hr (wrapEvents_isLcd _ _ _ _)
      (waitTotal_wrapEvents hcols _ _ hfits)
  · exact completes_of_body h rfl (scrollBody_play hs) hr (scrollEvents_isLcd _ _ _ _ _ _)
      (waitTotal_scrollEvents htrailing _ _ _ _ hlong)

end Sys2Proof.Machine
end
